-- ==== Sys2Proof/Word.lean ====
section
/-! DEFINITION. The word types of the TJS-CE engine: a byte of DMEM, a 32-bit register or hash word, and the
index of a BigInt register (00_scope.md R9–R11, 30_encoding.md R82). -/

namespace Sys2Proof

/-- One byte of DMEM (20_memory.md R61). -/
abbrev Byte := BitVec 8

/-- A 32-bit host register, command word or hash word (10_state.md R17, 00_scope.md R10). -/
abbrev Word := BitVec 32

/-- The index of a BigInt register B0–B15: an unsigned 4-bit number (30_encoding.md R82). -/
abbrev RegIdx := Fin 16

end Sys2Proof
end

