-- ==== Sys2Proof/Config.lean ====
section
/-! DEFINITION. The implementation parameters of 00_scope.md R8 at the values the spec fixes, and the values it
leaves free: the platform's base address and the RNG's draws. -/

namespace Sys2Proof.Config

/-- DMEM_SIZE, in bytes (00_scope.md R8; log entry 3). -/
def dmemSize : Nat := 4096

/-- BIGINT_MAX_LIMBS, the capacity of a BigInt register in 32-bit limbs (00_scope.md R8; log entry 3). -/
def bigintMaxLimbs : Nat := 128

/-- NUM_BREGS, the number of BigInt registers (00_scope.md R8, 10_state.md R34). -/
def numBregs : Nat := 16

/-- HOST_ADDR_SPAN, the size of the register block in bytes (00_scope.md R8, 10_state.md R17). -/
def hostAddrSpan : Nat := 0x2000

/-- Which multiple of 0x2000 the platform chose for ENGINE_BASE: a free value (20_memory.md R68; log entry 7). -/
opaque engineBaseIndex : Nat

/-- ENGINE_BASE, a multiple of 0x2000 the platform chooses (20_memory.md R68; log entry 7). -/
def engineBase : Nat := engineBaseIndex * hostAddrSpan

/-- The RNG's n-th draw, less one: a free value in 0..254, so that the byte drawn is any of 1..255
(00_scope.md R8, R12; 41_rsa.md R139; log entry 6). -/
opaque rngDraw : Nat → Fin 255

end Sys2Proof.Config
end

