-- ==== Sys2Proof/Syntax.lean ====
section
/-! DEFINITION. The commands of the engine, one constructor for each row of spec/opcode_table.json, and the error
kinds a command (or its decoding) can complete with (60_exceptions.md R226). -/

namespace Sys2Proof

/-- A command (30_encoding.md R88). Register operands are indices of B0–B15; every other operand comes from the
latched LARG0–LARG3 (R83) and is no part of the command. -/
inductive Instr where
  /-- 0x00: no operation (40_bigint.md R96). -/
  | nop
  /-- 0x01: load a signed 32-bit immediate (R97). -/
  | ldi (rd : RegIdx)
  /-- 0x02: copy a register (R98). -/
  | mov (rd ra : RegIdx)
  /-- 0x03: load from a big-endian two's-complement byte string (R99). -/
  | ldb (rd : RegIdx)
  /-- 0x04: load from a big-endian unsigned byte string (R100). -/
  | ldu (rd : RegIdx)
  /-- 0x05: store as a minimal two's-complement byte string (R101). -/
  | stb (ra : RegIdx)
  /-- 0x06: store as an unsigned byte string of a given length (R102). -/
  | stu (ra : RegIdx)
  /-- 0x10: sum (R110). -/
  | add (rd ra rb : RegIdx)
  /-- 0x11: difference (R111). -/
  | sub (rd ra rb : RegIdx)
  /-- 0x12: product (R112). -/
  | mul (rd ra rb : RegIdx)
  /-- 0x13: truncating quotient (R116). -/
  | div (rd ra rb : RegIdx)
  /-- 0x14: truncating remainder (R117). -/
  | rem (rd ra rb : RegIdx)
  /-- 0x15: quotient to rd, remainder to rc (R120). -/
  | divrem (rd ra rb rc : RegIdx)
  /-- 0x16: the mod operation (R121). -/
  | mod (rd ra rb : RegIdx)
  /-- 0x17: modular exponentiation, base ra, exponent rb, modulus rc (R122). -/
  | modpow (rd ra rb rc : RegIdx)
  /-- 0x18: modular inverse of ra for the modulus rb (R124). -/
  | modinv (rd ra rb : RegIdx)
  /-- 0x19: compare (R126). -/
  | cmp (ra rb : RegIdx)
  /-- 0x1A: bit length of the magnitude (R127). -/
  | bitlen (ra : RegIdx)
  /-- 0x20: RSA encryption, modulus ra, exponent rb; pssrc: the padding string comes from DMEM (41_rsa.md R140). -/
  | rsaenc (ra rb : RegIdx) (pssrc : Bool)
  /-- 0x21: RSA decryption, modulus ra, exponent rb (41_rsa.md R142). -/
  | rsadec (ra rb : RegIdx)
  /-- 0x30: expand and load an AES key (42_aes.md R176). -/
  | aeskey
  /-- 0x31: load the CBC initialisation vector (42_aes.md R177). -/
  | aesiv
  /-- 0x32: AES encryption or decryption (42_aes.md R178), with the FN bits of 30_encoding.md R85. -/
  | aescrypt (dec cbc pad strict : Bool)
  /-- 0x40: initialise a hash context (45_hash_commands.md R214). -/
  | hinit (alg : BitVec 2)
  /-- 0x41: absorb bytes into a hash context (R215). -/
  | hupdate (alg : BitVec 2)
  /-- 0x42: output a digest (R213). -/
  | hfinal (alg : BitVec 2)
  deriving DecidableEq, Repr

/-- The error kinds of 60_exceptions.md R226; code 0 (NONE) is the absence of one. -/
inductive ErrKind where
  | divisionByZero
  | arithmetic
  | unsupportedAlgorithm
  /-- Code 4: reserved, never raised (R226). -/
  | invalidKeySpec
  | dataTooLong
  | invalidPadding
  | invalidCiphertextLength
  | illegalCommand
  | range
  | capacity
  | invalidKeyLength
  | noKey
  | noIv
  | psZero
  deriving DecidableEq, Repr

end Sys2Proof
end

