-- ==== Sys2Proof/Machine/State.lean ====
section
/-! DEFINITION. The engine's architectural state (10_state.md R16), the environment around it (host accesses
waiting, whose turn it is, the reset input), the reasons the model stops, and the state after reset (R48). -/

namespace Sys2Proof.Machine

/-- Why the model stops: the model faults of 60_exceptions.md R228. A command's own errors are no faults: they
complete the command (R229). -/
inductive Fault where
  /-- HOST_BUS_ERROR: raised by a host access of an illegal width or alignment (20_memory.md R70). Safe: the
  hardware changes no engine state and goes on, the model stops. -/
  | hostBusError
  /-- HOST_HAZARD: raised by a host access to the DMEM window while STATUS.BUSY = 1 (70_reset_and_hazards.md
  R260). Safe: the hardware's result is undefined, the model gives none. -/
  | hostHazard
  /-- UNINIT_READ: raised by a read, by the host or by a command, of a DMEM byte that nothing has written since
  hardware reset or that an abandoned command may have written (20_memory.md R63). Safe: the hardware returns an
  unspecified byte, the model gives none. -/
  | uninitRead
  deriving DecidableEq, Repr

/-- Why a step has no meaning. -/
inductive Refusal where
  /-- Raised by `exec` for an instruction whose meaning is not written, under its mnemonic. Safe: the model
  stops. (No instruction of this model is in that position.) -/
  | notModelled (mnemonic : String)
  deriving DecidableEq, Repr

/-- The width of a host bus access (20_memory.md R70). -/
inductive Width where
  | byte | half | word
  deriving DecidableEq, Repr

/-- A host bus access at an offset in the register block of 0x2000 bytes (10_state.md R17; log entry 7). -/
inductive HostAccess where
  | read (width : Width) (offset : BitVec 13)
  | write (width : Width) (offset : BitVec 13) (value : Word)
  deriving DecidableEq, Repr

/-- Who moves next (60_exceptions.md R233, 70_reset_and_hazards.md R251, R265; log entry 4): the host makes its
next access, the engine takes its step, or the platform drives the reset input. -/
inductive Turn where
  | host
  | engine
  | rst (level : Bool)
  deriving DecidableEq, Repr

/-- The stored bits of STATUS (10_state.md R28). Bits 9 and 10 are views of `Aes.keyValid` and `Aes.ivValid`,
and bits 31:11 are reserved. -/
structure Status where
  busy : Bool
  done : Bool
  err : Bool
  cmdovr : Bool
  lt : Bool
  eq : Bool
  gt : Bool
  noinv : Bool
  padbad : Bool
  deriving DecidableEq, Repr

/-- ARG0–ARG3, or their latched copies LARG0–LARG3 (10_state.md R32, R33). -/
structure Args where
  arg0 : Word
  arg1 : Word
  arg2 : Word
  arg3 : Word
  deriving DecidableEq, Repr

/-- The AES state (10_state.md R40). -/
structure Aes where
  keyw : Vector Word 60
  nr : BitVec 4
  keyValid : Bool
  iv : Vector Byte 16
  ivValid : Bool
  deriving DecidableEq, Repr

/-- A hash context with `n` running words (10_state.md R43): H, BUF and CNT. -/
structure HashCtx (n : Nat) where
  h : Vector Word n
  buf : List Byte
  cnt : BitVec 64
  deriving DecidableEq, Repr

/-- DMEM: the bytes whose "initialised" mark is set, with their addresses strictly rising; an unlisted byte is
unmarked and has no value (20_memory.md R61, R63; log entry 2). -/
abbrev Memory := List Host.Cell

/-- The whole state: the architectural state of 10_state.md R16, then the model's own environment. -/
structure State where
  /-- CTRL.IE (R27). -/
  ie : Bool
  /-- STATUS (R28). -/
  status : Status
  /-- ERRCODE[7:0] (R29). -/
  errcode : BitVec 8
  /-- CMDREG: what a read of CMD returns (R30). -/
  cmdreg : Word
  /-- RESULT (R31). -/
  result : Word
  /-- ARG0–ARG3 (R32). -/
  arg : Args
  /-- LCMD: the latched command word (R33). -/
  lcmd : Word
  /-- LARG0–LARG3 (R33). -/
  larg : Args
  /-- PENDING (R33). -/
  pending : Bool
  /-- B0–B15, each a signed integer (R34, R35). -/
  b : Vector Int 16
  /-- KEYW, NR, KEYVALID, IV, IVVALID (R40). -/
  aes : Aes
  /-- CTX[0], the MD5 context (R43). -/
  md5 : HashCtx 4
  /-- CTX[1], the SHA-256 context (R43). -/
  sha : HashCtx 8
  /-- DMEM (20_memory.md R61, R63). -/
  dmem : Memory
  /-- The level of the reset input rst (70_reset_and_hazards.md R251). -/
  rst : Bool
  /-- The model's own: the host's accesses not yet made, oldest first (20_memory.md R75; log entry 4). -/
  host : List HostAccess
  /-- The model's own: the turns still to be taken (70_reset_and_hazards.md R265; log entry 4). -/
  sched : List Turn
  /-- The model's own: the data of the last completed host read (20_memory.md R74; log entry 5). -/
  rdata : Word
  /-- The model's own free-value counter: how many RNG draws have been taken (41_rsa.md R139; log entry 6). -/
  rng : Nat
  deriving DecidableEq, Repr

/-- STATUS after reset (10_state.md R28, R48). -/
def Status.reset : Status :=
  { busy := false, done := false, err := false, cmdovr := false, lt := false, eq := false, gt := false,
    noinv := false, padbad := false }

/-- ARG0–ARG3 and LARG0–LARG3 after reset (10_state.md R48). -/
def Args.reset : Args := { arg0 := 0, arg1 := 0, arg2 := 0, arg3 := 0 }

/-- The AES state after reset (10_state.md R40, R48). KEYW, NR and IV are unspecified and unobservable there;
the zeros are a DESIGN CHOICE (log entry 1). -/
def Aes.reset : Aes :=
  { keyw := Vector.replicate 60 0, nr := 0, keyValid := false, iv := Vector.replicate 16 0, ivValid := false }

/-- A hash context at its initial value for the initial words `h0` (10_state.md R44). -/
def HashCtx.initial {n : Nat} (h0 : Vector Word n) : HashCtx n := { h := h0, buf := [], cnt := 0 }

/-- The machine right after a hardware reset (10_state.md R48, 70_reset_and_hazards.md R251): the engine idle,
no DMEM byte marked, the reset input released, no host access waiting. -/
def State.reset : State :=
  { ie := false, status := Status.reset, errcode := 0, cmdreg := 0, result := 0, arg := Args.reset,
    lcmd := 0, larg := Args.reset, pending := false, b := Vector.replicate 16 0, aes := Aes.reset,
    md5 := HashCtx.initial md5Init, sha := HashCtx.initial sha256Init, dmem := [],
    rst := false, host := [], sched := [], rdata := 0, rng := 0 }

end Sys2Proof.Machine
end

