-- ==== Sys2Proof/Machine/Ops.lean ====
section
/-! DEFINITION. The named operations over DMEM and the registers (00_scope.md R12, 20_memory.md R64, R65), and the
completion of a command, with or without an error, as ONE shared operation (60_exceptions.md R229): it is all
the engine has of exception entry, and there is no return operation beside it (R234). -/

namespace Sys2Proof.Machine

/-! ### DMEM -/

/-- The strict order of the listed addresses, each inside DMEM (20_memory.md R61). -/
def Memory.wfFrom : Nat → Memory → Bool
  | _, [] => true
  | lo, (a, _) :: m => lo ≤ a && a < Config.dmemSize && Memory.wfFrom (a + 1) m

/-- The canonical form of DMEM: strictly rising addresses below DMEM_SIZE. (No entry can equal what an unlisted
address reads as, since an unlisted address has no value.) -/
def Memory.wf (m : Memory) : Bool := Memory.wfFrom 0 m

/-- The byte at `a`, or none when its mark is not set (20_memory.md R63). -/
def Memory.read? : Memory → Nat → Option Byte
  | [], _ => none
  | (k, v) :: m, a => if a = k then some v else Memory.read? m a

/-- DMEM[a] <- v, which sets the byte's mark (20_memory.md R63). -/
def Memory.write : Memory → Nat → Byte → Memory
  | [], a, v => [(a, v)]
  | (k, u) :: m, a, v =>
    if a < k then (a, v) :: (k, u) :: m
    else if a = k then (a, v) :: m
    else (k, u) :: Memory.write m a v

/-- Clear the marks of the `n` bytes at `lo` (70_reset_and_hazards.md R255). -/
def Memory.unmark (m : Memory) (lo n : Nat) : Memory := m.filter fun c => c.1 < lo || lo + n ≤ c.1

/-- DMEM[a] ‖ … ‖ DMEM[a+n-1], or none when some byte has no value (20_memory.md R63, R64). -/
def Memory.readBytes? (m : Memory) : Nat → Nat → Option (List Byte)
  | _, 0 => some []
  | a, n + 1 =>
    match m.read? a with
    | none => none
    | some v =>
      match m.readBytes? (a + 1) n with
      | none => none
      | some vs => some (v :: vs)

/-- DMEM[a+i] <- s[i] for every i (20_memory.md R64). -/
def Memory.writeBytes (m : Memory) : Nat → List Byte → Memory
  | _, [] => m
  | a, v :: vs => (m.write a v).writeBytes (a + 1) vs

/-- InRange(off, n): off + n ≤ DMEM_SIZE on unbounded integers (20_memory.md R65). -/
abbrev inRange (off : Word) (n : Nat) : Prop := off.toNat + n ≤ Config.dmemSize

/-! ### Commands that may stop before their writes -/

/-- What ends a command before it writes: an error it raises (00_scope.md R12), or the model fault UNINIT_READ. -/
inductive Stop where
  | raise (e : ErrKind)
  | fault (f : Fault)
  deriving DecidableEq, Repr

/-- `if not c: raise e` (00_scope.md R12, R13). -/
def require (c : Prop) [Decidable c] (e : ErrKind) : Except Stop Unit :=
  if c then .ok () else .error (.raise e)

/-- MemRead(addr, n): the bytes, or UNINIT_READ when one of them is unmarked (20_memory.md R63, R64). -/
def memRead (s : State) (addr : Word) (n : Nat) : Except Stop (List Byte) :=
  match s.dmem.readBytes? addr.toNat n with
  | some bs => .ok bs
  | none => .error (.fault .uninitRead)

/-- MemWrite(addr, len(bs), bs) (20_memory.md R64). -/
def State.memWrite (s : State) (addr : Word) (bs : List Byte) : State :=
  { s with dmem := s.dmem.writeBytes addr.toNat bs }

/-! ### Registers -/

/-- fits(v): |v| < 2^(32·BIGINT_MAX_LIMBS) (00_scope.md R12, 10_state.md R36). -/
abbrev fits (v : Int) : Prop := v.natAbs < 2 ^ (32 * Config.bigintMaxLimbs)

/-- B[r] (00_scope.md R12). -/
def State.getB (s : State) (r : RegIdx) : Int := s.b.get r

/-- B[r] <- v (00_scope.md R12). -/
def State.setB (s : State) (r : RegIdx) (v : Int) : State := { s with b := s.b.set r.val v r.isLt }

/-- RESULT <- v for a scalar that the rules keep below 2^32 (10_state.md R31). -/
def State.setResult (s : State) (v : Nat) : State := { s with result := BitVec.ofNat 32 v }

/-- The RNG counter after some draws (41_rsa.md R139; log entry 6). -/
def State.setRng (s : State) (n : Nat) : State := { s with rng := n }

/-! ### Completion (60_exceptions.md R226, R229, R230) -/

/-- The code of an error kind (60_exceptions.md R226). -/
def ErrKind.code : ErrKind → BitVec 8
  | .divisionByZero => 1
  | .arithmetic => 2
  | .unsupportedAlgorithm => 3
  | .invalidKeySpec => 4
  | .dataTooLong => 5
  | .invalidPadding => 6
  | .invalidCiphertextLength => 7
  | .illegalCommand => 8
  | .range => 9
  | .capacity => 10
  | .invalidKeyLength => 11
  | .noKey => 12
  | .noIv => 13
  | .psZero => 14

/-- code(err), 0 for NONE (60_exceptions.md R226). -/
def errCode : Option ErrKind → BitVec 8
  | none => 0
  | some e => ErrKind.code e

/-- complete(err): how every command ends, with success (none) or at its first error (60_exceptions.md R229). -/
def complete (err : Option ErrKind) (s : State) : State :=
  { s with
    status := { s.status with busy := false, done := true, err := err.isSome }
    pending := false
    errcode := errCode err }

/-- The outcome of a command started in `s` whose pseudocode ended as `c`: its writes and complete(NONE); on an
error none of its writes, only complete(e) on `s`; or the model fault (60_exceptions.md R229, R230, R233). -/
def finish (s : State) (c : Except Stop State) : Host.Outcome State Fault Refusal :=
  match c with
  | .ok t => .next (complete none t)
  | .error (.raise e) => .next (complete (some e) s)
  | .error (.fault f) => .fault f

end Sys2Proof.Machine
end

