-- ==== Sys2Proof/Machine/Operands.lean ====
section
/-! DEFINITION. How operands are read and results laid out: integers and byte strings (00_scope.md R10, R11;
40_bigint.md R107, R108), the immediate (30_encoding.md R87), the RNG's bytes (41_rsa.md R139). -/

namespace Sys2Proof.Machine

/-! ### Byte strings and integers -/

/-- OS2IP: a byte string as a big-endian unsigned integer (00_scope.md R11). -/
def os2ip (bs : List Byte) : Nat := bs.foldl (fun acc x => acc * 256 + x.toNat) 0

/-- The `n` bytes of `x`, least significant first: byte i is (x div 256^i) mod 256. -/
def leBytes : Nat → Nat → List Byte
  | _, 0 => []
  | x, n + 1 => BitVec.ofNat 8 x :: leBytes (x / 256) n

/-- I2OSP(x, n) for x < 256^n: the n-byte big-endian string of x (00_scope.md R11). -/
def i2osp (x n : Nat) : List Byte := (leBytes x n).reverse

/-- A byte string as a little-endian unsigned integer (20_memory.md R73, R74). -/
def leToNat : List Byte → Nat
  | [] => 0
  | x :: xs => x.toNat + 256 * leToNat xs

/-- bitlen(x): the least n with x < 2^n (00_scope.md R10). -/
def bitlen (x : Nat) : Nat := if x = 0 then 0 else Nat.log2 x + 1

/-- tc_decode: a big-endian two's-complement byte string as an integer (40_bigint.md R107). -/
def tcDecode (bs : List Byte) : Int :=
  match bs with
  | [] => 0
  | x :: _ =>
    if 0x80 ≤ x.toNat then (os2ip bs : Int) - 256 ^ bs.length
    else os2ip bs

/-- The length of tc_encode(v): t div 8 + 1 for t = bitlen(v), or bitlen(−v − 1) when v < 0 (40_bigint.md R107). -/
def tcLength (v : Int) : Nat :=
  (if 0 ≤ v then bitlen v.toNat else bitlen (-v - 1).toNat) / 8 + 1

/-- tc_encode: the minimal big-endian two's-complement byte string of an integer (40_bigint.md R107). -/
def tcEncode (v : Int) : List Byte := i2osp (v % 256 ^ tcLength v).toNat (tcLength v)

/-- sext_32: LDI's immediate (30_encoding.md R87). -/
def sext32 (w : Word) : Int := w.toInt

/-! ### The RNG (00_scope.md R12, 41_rsa.md R139; log entry 6) -/

/-- The byte of the n-th draw_nonzero_byte(): a free value in 1..255. -/
def drawNonzeroByte (n : Nat) : Byte := BitVec.ofNat 8 ((Config.rngDraw n).val + 1)

/-- `k` independent draws, from the n-th draw on. -/
def drawBytes : Nat → Nat → List Byte
  | _, 0 => []
  | n, k + 1 => drawNonzeroByte n :: drawBytes (n + 1) k

/-! ### Tables -/

/-- The first `n` entries of a list as a vector, `d` beyond its end. -/
def vectorOf {α : Type} (n : Nat) (d : α) (l : List α) : Vector α n :=
  ⟨((List.range n).map fun i => l.getD i d).toArray, by simp⟩

end Sys2Proof.Machine
end

