-- ==== Sys2Proof/Machine/AesCore.lean ====
section
/-! DEFINITION. The AES datapath: GF(2^8), key expansion, the block transforms, ECB and CBC, PKCS#7
(42_aes.md R151–R171). -/

namespace Sys2Proof.Machine

/-! ### GF(2^8) (42_aes.md R154) -/

/-- xtime(b): multiplication by x modulo 0x11B (42_aes.md R154). -/
def xtime (b : Byte) : Byte := (b <<< 1) ^^^ (if b.getLsbD 7 then 0x1B else 0x00)

/-- xtime applied `n` times. -/
def xtimeIter : Nat → Byte → Byte
  | 0, a => a
  | n + 1, a => xtimeIter n (xtime a)

/-- a • b: the XOR over i with b[i] = 1 of xtime^i(a) (42_aes.md R154). -/
def gmul (a b : Byte) : Byte :=
  (List.range 8).foldl (fun acc i => if b.getLsbD i then acc ^^^ xtimeIter i a else acc) 0

/-! ### The state (42_aes.md R151, R152) -/

/-- One column of the state, rows 0 to 3. -/
structure Column where
  r0 : Byte
  r1 : Byte
  r2 : Byte
  r3 : Byte
  deriving DecidableEq, Repr

/-- The 4×4 state, columns 0 to 3: s[r][c] is row r of column c (42_aes.md R151). -/
structure Block where
  c0 : Column
  c1 : Column
  c2 : Column
  c3 : Column
  deriving DecidableEq, Repr

/-- The four bytes at 4c of a block as its column c: s[r][c] = in[r + 4c] (42_aes.md R151). -/
def columnAt (bs : List Byte) (c : Nat) : Column :=
  { r0 := bs.getD (4 * c) 0, r1 := bs.getD (4 * c + 1) 0, r2 := bs.getD (4 * c + 2) 0, r3 := bs.getD (4 * c + 3) 0 }

/-- state(block) (42_aes.md R151). -/
def Block.ofBytes (bs : List Byte) : Block :=
  { c0 := columnAt bs 0, c1 := columnAt bs 1, c2 := columnAt bs 2, c3 := columnAt bs 3 }

/-- A column's bytes, row 0 first. -/
def Column.toBytes (c : Column) : List Byte := [c.r0, c.r1, c.r2, c.r3]

/-- bytes(s): out[r + 4c] = s[r][c] (42_aes.md R151). -/
def Block.toBytes (s : Block) : List Byte := s.c0.toBytes ++ s.c1.toBytes ++ s.c2.toBytes ++ s.c3.toBytes

/-- A key word as a column: byte j, most significant first, meets row j (42_aes.md R152). -/
def Column.ofWord (w : Word) : Column :=
  { r0 := w.extractLsb' 24 8, r1 := w.extractLsb' 16 8, r2 := w.extractLsb' 8 8, r3 := w.extractLsb' 0 8 }

/-- A column as a big-endian word (42_aes.md R152). -/
def Column.toWord (c : Column) : Word := (c.r0 ++ c.r1 ++ c.r2 ++ c.r3 : BitVec (8 + 8 + 8 + 8))

/-- A function applied to every byte of a column. -/
def Column.map (f : Byte → Byte) (c : Column) : Column := { r0 := f c.r0, r1 := f c.r1, r2 := f c.r2, r3 := f c.r3 }

/-- The bytewise XOR of two columns. -/
def Column.xor (c d : Column) : Column :=
  { r0 := c.r0 ^^^ d.r0, r1 := c.r1 ^^^ d.r1, r2 := c.r2 ^^^ d.r2, r3 := c.r3 ^^^ d.r3 }

/-- A function applied to every column of a block. -/
def Block.mapColumns (f : Column → Column) (s : Block) : Block := { c0 := f s.c0, c1 := f s.c1, c2 := f s.c2, c3 := f s.c3 }

/-! ### Key expansion (42_aes.md R157–R159) -/

/-- RotWord: rotate left by one byte (42_aes.md R158). -/
def rotWord (w : Word) : Word := w.rotateLeft 8

/-- SubWord: SBOX on each byte (42_aes.md R158). -/
def subWord (w : Word) : Word := ((Column.ofWord w).map sbox).toWord

/-- w[i] from the words before it, for i ≥ Nk (42_aes.md R159). -/
def nextKeyWord (nk : Nat) (w : List Word) : Word :=
  let i := w.length
  let t := w.getD (i - 1) 0
  let u :=
    if i % nk = 0 then subWord (rotWord t) ^^^ rcon (i / nk)
    else if 6 < nk ∧ i % nk = 4 then subWord t
    else t
  w.getD (i - nk) 0 ^^^ u

/-- `k` more words of the key schedule. -/
def expandWords (nk : Nat) : Nat → List Word → List Word
  | 0, w => w
  | k + 1, w => expandWords nk k (w ++ [nextKeyWord nk w])

/-- Nr = Nk + 6 for a key of `len` bytes, Nk = len/4 (42_aes.md R153). -/
def roundsOf (len : Nat) : Nat := len / 4 + 6

/-- key_expand: the 4·(Nr+1) words of the schedule (42_aes.md R159). -/
def keyExpand (key : List Byte) : List Word :=
  let nk := key.length / 4
  expandWords nk (4 * (roundsOf key.length + 1) - nk) ((List.range nk).map fun i => (columnAt key i).toWord)

/-! ### Round steps (42_aes.md R160–R163) -/

/-- SubBytes (42_aes.md R160). -/
def subBytes (s : Block) : Block := s.mapColumns (Column.map sbox)

/-- InvSubBytes (42_aes.md R160). -/
def invSubBytes (s : Block) : Block := s.mapColumns (Column.map isbox)

/-- ShiftRows: s'[r][c] = s[r][(c + r) mod 4] (42_aes.md R161). -/
def shiftRows (s : Block) : Block :=
  { c0 := ⟨s.c0.r0, s.c1.r1, s.c2.r2, s.c3.r3⟩
    c1 := ⟨s.c1.r0, s.c2.r1, s.c3.r2, s.c0.r3⟩
    c2 := ⟨s.c2.r0, s.c3.r1, s.c0.r2, s.c1.r3⟩
    c3 := ⟨s.c3.r0, s.c0.r1, s.c1.r2, s.c2.r3⟩ }

/-- InvShiftRows: s'[r][(c + r) mod 4] = s[r][c] (42_aes.md R161). -/
def invShiftRows (s : Block) : Block :=
  { c0 := ⟨s.c0.r0, s.c3.r1, s.c2.r2, s.c1.r3⟩
    c1 := ⟨s.c1.r0, s.c0.r1, s.c3.r2, s.c2.r3⟩
    c2 := ⟨s.c2.r0, s.c1.r1, s.c0.r2, s.c3.r3⟩
    c3 := ⟨s.c3.r0, s.c2.r1, s.c1.r2, s.c0.r3⟩ }

/-- A column times the circulant matrix with first row (k0, k1, k2, k3) over GF(2^8). -/
def Column.times (k0 k1 k2 k3 : Byte) (c : Column) : Column :=
  { r0 := gmul c.r0 k0 ^^^ gmul c.r1 k1 ^^^ gmul c.r2 k2 ^^^ gmul c.r3 k3
    r1 := gmul c.r0 k3 ^^^ gmul c.r1 k0 ^^^ gmul c.r2 k1 ^^^ gmul c.r3 k2
    r2 := gmul c.r0 k2 ^^^ gmul c.r1 k3 ^^^ gmul c.r2 k0 ^^^ gmul c.r3 k1
    r3 := gmul c.r0 k1 ^^^ gmul c.r1 k2 ^^^ gmul c.r2 k3 ^^^ gmul c.r3 k0 }

/-- MixColumns (42_aes.md R162). -/
def mixColumns (s : Block) : Block := s.mapColumns (Column.times 2 3 1 1)

/-- InvMixColumns (42_aes.md R162). -/
def invMixColumns (s : Block) : Block := s.mapColumns (Column.times 0xe 0xb 0xd 0x9)

/-- The round key of round `rnd`: words w[4·rnd] … w[4·rnd + 3] as columns (42_aes.md R152, R163). -/
def roundKey (w : List Word) (rnd : Nat) : Block :=
  { c0 := Column.ofWord (w.getD (4 * rnd) 0), c1 := Column.ofWord (w.getD (4 * rnd + 1) 0)
    c2 := Column.ofWord (w.getD (4 * rnd + 2) 0), c3 := Column.ofWord (w.getD (4 * rnd + 3) 0) }

/-- AddRoundKey(rnd) (42_aes.md R163). -/
def addRoundKey (w : List Word) (rnd : Nat) (s : Block) : Block :=
  let k := roundKey w rnd
  { c0 := s.c0.xor k.c0, c1 := s.c1.xor k.c1, c2 := s.c2.xor k.c2, c3 := s.c3.xor k.c3 }

/-! ### The block transform (42_aes.md R164, R165) -/

/-- Rounds 1 to `n` of encryption, each SubBytes, ShiftRows, MixColumns, AddRoundKey (42_aes.md R164). -/
def encRounds (w : List Word) : Nat → Block → Block
  | 0, s => s
  | n + 1, s => addRoundKey w (n + 1) (mixColumns (shiftRows (subBytes (encRounds w n s))))

/-- E on states (42_aes.md R164). -/
def encryptState (w : List Word) (nr : Nat) (s : Block) : Block :=
  addRoundKey w nr (shiftRows (subBytes (encRounds w (nr - 1) (addRoundKey w 0 s))))

/-- Rounds `n` down to 1 of decryption, each InvShiftRows, InvSubBytes, AddRoundKey, InvMixColumns (42_aes.md R165). -/
def decRounds (w : List Word) : Nat → Block → Block
  | 0, s => s
  | n + 1, s => decRounds w n (invMixColumns (addRoundKey w (n + 1) (invSubBytes (invShiftRows s))))

/-- D on states (42_aes.md R165). -/
def decryptState (w : List Word) (nr : Nat) (s : Block) : Block :=
  addRoundKey w 0 (invSubBytes (invShiftRows (decRounds w (nr - 1) (addRoundKey w nr s))))

/-- E(block): single-block encryption of 16 bytes (42_aes.md R164). -/
def encryptBlock (w : List Word) (nr : Nat) (bs : List Byte) : List Byte :=
  (encryptState w nr (Block.ofBytes bs)).toBytes

/-- D(block): single-block decryption of 16 bytes (42_aes.md R165). -/
def decryptBlock (w : List Word) (nr : Nat) (bs : List Byte) : List Byte :=
  (decryptState w nr (Block.ofBytes bs)).toBytes

/-! ### Modes (42_aes.md R166–R168) -/

/-- ECB: the transform `f` on each of the `n` 16-byte blocks (42_aes.md R166). -/
def ecb (f : List Byte → List Byte) : Nat → List Byte → List Byte
  | 0, _ => []
  | n + 1, xs => f (xs.take 16) ++ ecb f n (xs.drop 16)

/-- The bytewise XOR of two strings. -/
def xorBytes (xs ys : List Byte) : List Byte := List.zipWith (· ^^^ ·) xs ys

/-- CBC encryption of `n` blocks after the block `prev`: C_i = E(P_i XOR C_{i−1}) (42_aes.md R167). -/
def cbcEncrypt (e : List Byte → List Byte) : Nat → List Byte → List Byte → List Byte
  | 0, _, _ => []
  | n + 1, prev, xs =>
    let c := e (xorBytes (xs.take 16) prev)
    c ++ cbcEncrypt e n c (xs.drop 16)

/-- CBC decryption of `n` blocks after the block `prev`: P_i = D(C_i) XOR C_{i−1} (42_aes.md R168). -/
def cbcDecrypt (d : List Byte → List Byte) : Nat → List Byte → List Byte → List Byte
  | 0, _, _ => []
  | n + 1, prev, xs =>
    xorBytes (d (xs.take 16)) prev ++ cbcDecrypt d n (xs.take 16) (xs.drop 16)

/-! ### PKCS#7 (42_aes.md R169, R170) -/

/-- pad(P): p = 16 − (len mod 16) bytes of value p appended (42_aes.md R169). -/
def pkcs7Pad (xs : List Byte) : List Byte :=
  xs ++ List.replicate (16 - xs.length % 16) (BitVec.ofNat 8 (16 - xs.length % 16))

/-- p: the value of the last byte (42_aes.md R170). -/
def padByte (xs : List Byte) : Byte := xs.getD (xs.length - 1) 0

/-- The validity of PKCS#7 padding (42_aes.md R170). -/
def pkcs7Valid (xs : List Byte) : Bool :=
  let p := (padByte xs).toNat
  decide (1 ≤ xs.length ∧ 1 ≤ p ∧ p ≤ 16 ∧ p ≤ xs.length ∧
    xs.drop (xs.length - p) = List.replicate p (padByte xs))

/-- unpad(X) with FN.STRICT: the data and PADBAD, or none for INVALID_PADDING (42_aes.md R170). -/
def pkcs7Unpad (strict : Bool) (xs : List Byte) : Option (List Byte × Bool) :=
  if pkcs7Valid xs then some (xs.take (xs.length - (padByte xs).toNat), false)
  else if strict then none
  else some (xs, true)

end Sys2Proof.Machine
end

