-- ==== Sys2Proof/Machine/Flags.lean ====
section
/-! DEFINITION. The flags: CMP's LT, EQ, GT, MODINV's NOINV, AESCRYPT's PADBAD (10_state.md R28, R38), the STATUS
word the host reads (R28), and the interrupt output (60_exceptions.md R236). -/

namespace Sys2Proof.Machine

/-- LT, EQ and GT as CMP of `x` and `y` writes them (40_bigint.md R109, R126). -/
def State.setCmpFlags (s : State) (x y : Int) : State :=
  { s with status := { s.status with lt := decide (x < y), eq := decide (x = y), gt := decide (y < x) } }

/-- RESULT of CMP: −1, 0 or 1 as a 32-bit word (40_bigint.md R126). -/
def cmpResult (x y : Int) : Nat := if x < y then 0xFFFFFFFF else if x = y then 0 else 1

/-- STATUS.NOINV <- v (40_bigint.md R124). -/
def State.setNoinv (s : State) (v : Bool) : State := { s with status := { s.status with noinv := v } }

/-- STATUS.PADBAD <- v (42_aes.md R178). -/
def State.setPadbad (s : State) (v : Bool) : State := { s with status := { s.status with padbad := v } }

/-- The STATUS word, bit 31 first (10_state.md R28): reserved bits 0, then IVVALID, KEYVALID, PADBAD, NOINV, GT,
EQ, LT, CMDOVR, ERR, DONE, BUSY. -/
def State.statusWord (s : State) : Word :=
  (0#21 ++ BitVec.ofBool s.aes.ivValid ++ BitVec.ofBool s.aes.keyValid ++ BitVec.ofBool s.status.padbad ++
    BitVec.ofBool s.status.noinv ++ BitVec.ofBool s.status.gt ++ BitVec.ofBool s.status.eq ++
    BitVec.ofBool s.status.lt ++ BitVec.ofBool s.status.cmdovr ++ BitVec.ofBool s.status.err ++
    BitVec.ofBool s.status.done ++ BitVec.ofBool s.status.busy :
    BitVec (21 + 1 + 1 + 1 + 1 + 1 + 1 + 1 + 1 + 1 + 1 + 1))

/-- The interrupt output: irq = CTRL.IE ∧ STATUS.DONE (60_exceptions.md R236). -/
def State.irq (s : State) : Bool := s.ie && s.status.done

end Sys2Proof.Machine
end

