-- ==== Sys2Proof/Machine/AesCommands.lean ====
section
/-! DEFINITION. The AES commands AESKEY, AESIV and AESCRYPT (42_aes.md R176–R178). -/

namespace Sys2Proof.Machine

/-- The expanded key and round count of `key` loaded: KEYW's words beyond the schedule are 0 (42_aes.md R176). -/
def State.loadKey (s : State) (key : List Byte) : State :=
  { s with aes := { s.aes with
      keyw := vectorOf 60 0 (keyExpand key)
      nr := BitVec.ofNat 4 (roundsOf key.length)
      keyValid := true } }

/-- AESKEY (42_aes.md R176). -/
def execAeskey (s : State) : Host.Outcome State Fault Refusal :=
  finish s do
    let len := s.larg.arg1.toNat
    require (len = 16 ∨ len = 24 ∨ len = 32) .invalidKeyLength
    require (inRange s.larg.arg0 len) .range
    let key ← memRead s s.larg.arg0 len
    return s.loadKey key

/-- IV <- the 16 bytes `iv`; IVVALID <- 1 (42_aes.md R177). -/
def State.loadIv (s : State) (iv : List Byte) : State :=
  { s with aes := { s.aes with iv := vectorOf 16 0 iv, ivValid := true } }

/-- AESIV (42_aes.md R177). -/
def execAesiv (s : State) : Host.Outcome State Fault Refusal :=
  finish s do
    require (inRange s.larg.arg0 16) .range
    let iv ← memRead s s.larg.arg0 16
    return s.loadIv iv

/-- omax: the longest output of AESCRYPT for `len` input bytes (42_aes.md R178). -/
def aesOutMax (dec pad : Bool) (len : Nat) : Nat :=
  if dec = false ∧ pad = true then len + 16 - len % 16 else len

/-- Encryption of whole blocks in the mode CBC or ECB, under the loaded key and IV (42_aes.md R166, R167). -/
def Aes.encrypt (a : Aes) (cbc : Bool) (xs : List Byte) : List Byte :=
  let e := encryptBlock a.keyw.toList a.nr.toNat
  if cbc then cbcEncrypt e (xs.length / 16) a.iv.toList xs else ecb e (xs.length / 16) xs

/-- Decryption of whole blocks in the mode CBC or ECB, under the loaded key and IV (42_aes.md R166, R168). -/
def Aes.decrypt (a : Aes) (cbc : Bool) (xs : List Byte) : List Byte :=
  let d := decryptBlock a.keyw.toList a.nr.toNat
  if cbc then cbcDecrypt d (xs.length / 16) a.iv.toList xs else ecb d (xs.length / 16) xs

/-- The output Y and PADBAD of AESCRYPT on the input bytes, or none for INVALID_PADDING (42_aes.md R178). -/
def Aes.crypt (a : Aes) (dec cbc pad strict : Bool) (xs : List Byte) : Option (List Byte × Bool) :=
  if dec then
    if pad then pkcs7Unpad strict (a.decrypt cbc xs) else some (a.decrypt cbc xs, false)
  else some (a.encrypt cbc (if pad then pkcs7Pad xs else xs), false)

/-- AESCRYPT (42_aes.md R178). STRICT without DEC = PAD = 1 is ILLEGAL_COMMAND (30_encoding.md R85; the decoder
stops such a word before this, log entry 16). -/
def execAescrypt (dec cbc pad strict : Bool) (s : State) : Host.Outcome State Fault Refusal :=
  finish s do
    let len := s.larg.arg1.toNat
    require (strict = true → dec = true ∧ pad = true) .illegalCommand
    require (s.aes.keyValid = true) .noKey
    require (cbc = true → s.aes.ivValid = true) .noIv
    require (inRange s.larg.arg0 len) .range
    require ((dec = true ∨ pad = false) → len % 16 = 0) .invalidCiphertextLength
    require (inRange s.larg.arg2 (aesOutMax dec pad len)) .range
    let xs ← memRead s s.larg.arg0 len
    match s.aes.crypt dec cbc pad strict xs with
    | none => .error (.raise .invalidPadding)
    | some y => return ((s.memWrite s.larg.arg2 y.1).setPadbad y.2).setResult y.1.length

end Sys2Proof.Machine
end

