-- ==== Sys2Proof/Machine/BigInt.lean ====
section
/-! DEFINITION. The BigInt modular-arithmetic engine: data movement, arithmetic, modular operations, inspection
(40_bigint.md). -/

namespace Sys2Proof.Machine

/-! ### Arithmetic laws -/

/-- The truncating quotient sign(a)·sign(b)·(|a| div |b|) (40_bigint.md R104). -/
def tdivQuot (a b : Int) : Int := a.sign * b.sign * ((a.natAbs / b.natAbs : Nat) : Int)

/-- The truncating remainder a − q·b (40_bigint.md R104). -/
def tdivRem (a b : Int) : Int := a - tdivQuot a b * b

/-- The mod operation: the truncating remainder, plus `b` when it is negative (40_bigint.md R106). -/
def modop (a b : Int) : Int := if tdivRem a b < 0 then tdivRem a b + b else tdivRem a b

/-- The square-and-multiply loop over the `k` low exponent bits, least significant first (40_bigint.md R123). -/
def modPowLoop (m : Nat) : Nat → Nat → Nat → Nat → Nat
  | 0, _, _, result => result
  | k + 1, e, base, result =>
    modPowLoop m k (e / 2) (base * base % m) (if e % 2 = 1 then result * base % m else result)

/-- (a^e) mod+ m for m > 0, by the reference sequence of 40_bigint.md R123 (log entry 14). -/
def modPow (a : Int) (e : Nat) (m : Int) : Int :=
  (modPowLoop m.toNat (bitlen e) e (a % m).toNat (1 % m.toNat) : Nat)

/-- The extended Euclidean loop of 40_bigint.md R125 on (r0, r1, s0, s1): r0 and s0 at its end. The remainder r1
falls at every turn, so `r1` turns are enough. -/
def euclidLoop : Nat → Nat → Nat → Int → Int → Nat × Int
  | 0, r0, _, s0, _ => (r0, s0)
  | fuel + 1, r0, r1, s0, s1 =>
    if r1 = 0 then (r0, s0) else euclidLoop fuel r1 (r0 % r1) s1 (s0 - (r0 / r1 : Nat) * s1)

/-- The inverse of `a` modulo m > 0 in [0, m), or none when gcd(a mod+ m, m) ≠ 1 (40_bigint.md R124, R125;
log entry 14). -/
def modInverse (a m : Int) : Option Int :=
  let r := euclidLoop ((a % m).toNat + 1) m.toNat (a % m).toNat 0 1
  if r.1 = 1 then some (r.2 % m) else none

/-! ### Data movement -/

/-- NOP (40_bigint.md R96). -/
def execNop (s : State) : Host.Outcome State Fault Refusal := finish s (.ok s)

/-- LDI (40_bigint.md R97). -/
def execLdi (rd : RegIdx) (s : State) : Host.Outcome State Fault Refusal :=
  finish s (.ok (s.setB rd (sext32 s.larg.arg0)))

/-- MOV (40_bigint.md R98). -/
def execMov (rd ra : RegIdx) (s : State) : Host.Outcome State Fault Refusal :=
  finish s (.ok (s.setB rd (s.getB ra)))

/-- LDB (40_bigint.md R99). -/
def execLdb (rd : RegIdx) (s : State) : Host.Outcome State Fault Refusal :=
  finish s do
    require (inRange s.larg.arg0 s.larg.arg1.toNat) .range
    let bs ← memRead s s.larg.arg0 s.larg.arg1.toNat
    require (fits (tcDecode bs)) .capacity
    return s.setB rd (tcDecode bs)

/-- LDU (40_bigint.md R100). -/
def execLdu (rd : RegIdx) (s : State) : Host.Outcome State Fault Refusal :=
  finish s do
    require (inRange s.larg.arg0 s.larg.arg1.toNat) .range
    let bs ← memRead s s.larg.arg0 s.larg.arg1.toNat
    require (fits (os2ip bs)) .capacity
    return s.setB rd (os2ip bs)

/-- STB (40_bigint.md R101). -/
def execStb (ra : RegIdx) (s : State) : Host.Outcome State Fault Refusal :=
  finish s do
    let n := tcLength (s.getB ra)
    require (inRange s.larg.arg2 n) .range
    return (s.memWrite s.larg.arg2 (tcEncode (s.getB ra))).setResult n

/-- STU (40_bigint.md R102). -/
def execStu (ra : RegIdx) (s : State) : Host.Outcome State Fault Refusal :=
  finish s do
    let v := s.getB ra
    let n := s.larg.arg1.toNat
    require (inRange s.larg.arg2 n) .range
    require (0 ≤ v ∧ v < 256 ^ n) .range
    return (s.memWrite s.larg.arg2 (i2osp v.toNat n)).setResult n

/-! ### Arithmetic -/

/-- B[RD] <- v when it fits, CAPACITY when it does not (40_bigint.md R113). -/
def writeFitting (rd : RegIdx) (v : Int) (s : State) : Except Stop State := do
  require (fits v) .capacity
  return s.setB rd v

/-- ADD (40_bigint.md R110). -/
def execAdd (rd ra rb : RegIdx) (s : State) : Host.Outcome State Fault Refusal :=
  finish s (writeFitting rd (s.getB ra + s.getB rb) s)

/-- SUB (40_bigint.md R111). -/
def execSub (rd ra rb : RegIdx) (s : State) : Host.Outcome State Fault Refusal :=
  finish s (writeFitting rd (s.getB ra - s.getB rb) s)

/-- MUL (40_bigint.md R112). -/
def execMul (rd ra rb : RegIdx) (s : State) : Host.Outcome State Fault Refusal :=
  finish s (writeFitting rd (s.getB ra * s.getB rb) s)

/-- DIV (40_bigint.md R116). -/
def execDiv (rd ra rb : RegIdx) (s : State) : Host.Outcome State Fault Refusal :=
  finish s do
    require (s.getB rb ≠ 0) .divisionByZero
    return s.setB rd (tdivQuot (s.getB ra) (s.getB rb))

/-- REM (40_bigint.md R117). -/
def execRem (rd ra rb : RegIdx) (s : State) : Host.Outcome State Fault Refusal :=
  finish s do
    require (s.getB rb ≠ 0) .divisionByZero
    return s.setB rd (tdivRem (s.getB ra) (s.getB rb))

/-- DIVREM (40_bigint.md R120): the quotient to RD, the remainder to RC; RD = RC is ILLEGAL_COMMAND
(30_encoding.md R90; the decoder stops such a word before this, log entry 16). -/
def execDivrem (rd ra rb rc : RegIdx) (s : State) : Host.Outcome State Fault Refusal :=
  finish s do
    require (rd ≠ rc) .illegalCommand
    require (s.getB rb ≠ 0) .divisionByZero
    return (s.setB rd (tdivQuot (s.getB ra) (s.getB rb))).setB rc (tdivRem (s.getB ra) (s.getB rb))

/-- MOD (40_bigint.md R121), with the capacity check of R113, which a negative modulus can fail (log entry 15). -/
def execMod (rd ra rb : RegIdx) (s : State) : Host.Outcome State Fault Refusal :=
  finish s do
    require (s.getB rb ≠ 0) .divisionByZero
    writeFitting rd (modop (s.getB ra) (s.getB rb)) s

/-! ### Modular operations -/

/-- MODPOW (40_bigint.md R122). -/
def execModpow (rd ra rb rc : RegIdx) (s : State) : Host.Outcome State Fault Refusal :=
  finish s do
    require (0 < s.getB rc) .arithmetic
    require (0 ≤ s.getB rb) .arithmetic
    return s.setB rd (modPow (s.getB ra) (s.getB rb).toNat (s.getB rc))

/-- MODINV (40_bigint.md R124): with no inverse only NOINV is written. -/
def execModinv (rd ra rb : RegIdx) (s : State) : Host.Outcome State Fault Refusal :=
  finish s do
    require (0 < s.getB rb) .arithmetic
    match modInverse (s.getB ra) (s.getB rb) with
    | none => return s.setNoinv true
    | some x => return (s.setB rd x).setNoinv false

/-! ### Inspection -/

/-- CMP (40_bigint.md R126). -/
def execCmp (ra rb : RegIdx) (s : State) : Host.Outcome State Fault Refusal :=
  finish s (.ok ((s.setCmpFlags (s.getB ra) (s.getB rb)).setResult (cmpResult (s.getB ra) (s.getB rb))))

/-- BITLEN (40_bigint.md R127, R108). -/
def execBitlen (ra : RegIdx) (s : State) : Host.Outcome State Fault Refusal :=
  finish s (.ok (s.setResult (bitlen (s.getB ra).natAbs)))

end Sys2Proof.Machine
end

