-- ==== Sys2Proof/Machine/Md5.lean ====
section
/-! DEFINITION. The MD5 hash-state pipeline: compression and output (43_md5.md). -/

namespace Sys2Proof.Machine

/-- X[j]: the j-th 32-bit word of a block, little-endian (43_md5.md R180). -/
def wordLe (bs : List Byte) (j : Nat) : Word :=
  (bs.getD (4 * j + 3) 0 ++ bs.getD (4 * j + 2) 0 ++ bs.getD (4 * j + 1) 0 ++ bs.getD (4 * j) 0 :
    BitVec (8 + 8 + 8 + 8))

/-- The sixteen little-endian words of a block (43_md5.md R180). -/
def wordsLe (bs : List Byte) : List Word := (List.range 16).map (wordLe bs)

/-- F, G, H or I, as step `i` uses it (43_md5.md R181, R185). -/
def md5Round (i : Nat) (x y z : Word) : Word :=
  if i < 16 then (x &&& y) ||| (~~~x &&& z)
  else if i < 32 then (x &&& z) ||| (y &&& ~~~z)
  else if i < 48 then x ^^^ y ^^^ z
  else y ^^^ (x ||| ~~~z)

/-- g(i): the message word of step `i` (43_md5.md R182). -/
def md5Index (i : Nat) : Nat :=
  if i < 16 then i
  else if i < 32 then (5 * i + 1) % 16
  else if i < 48 then (3 * i + 5) % 16
  else 7 * i % 16

/-- The working words a, b', c, d (43_md5.md R185). -/
structure Md5Work where
  a : Word
  b : Word
  c : Word
  d : Word
  deriving DecidableEq, Repr

/-- Step `i` of the compression on the message words `x` (43_md5.md R185). -/
def md5Step (x : List Word) (v : Md5Work) (i : Nat) : Md5Work :=
  let t := v.a + md5Round i v.b v.c v.d + md5T.getD i 0 + x.getD (md5Index i) 0
  { a := v.d, b := v.b + t.rotateLeft (md5Shift i), c := v.b, d := v.c }

/-- md5_compress on the running words and a 64-byte block (43_md5.md R185). -/
def md5Compress (h : Vector Word 4) (block : List Byte) : Vector Word 4 :=
  let v := (List.range 64).foldl (md5Step (wordsLe block)) { a := h[0], b := h[1], c := h[2], d := h[3] }
  #v[h[0] + v.a, h[1] + v.b, h[2] + v.c, h[3] + v.d]

/-- The MD5 output: A, B, C, D, each little-endian (43_md5.md R189). -/
def md5Output (h : Vector Word 4) : List Byte := h.toList.flatMap fun w => leBytes w.toNat 4

end Sys2Proof.Machine
end

