-- ==== Sys2Proof/Machine/Sha256.lean ====
section
/-! DEFINITION. The SHA-256 hash-state pipeline: schedule, compression and output (44_sha256.md). -/

namespace Sys2Proof.Machine

/-- M[j]: the j-th 32-bit word of a block, big-endian (44_sha256.md R192). -/
def wordBe (bs : List Byte) (j : Nat) : Word :=
  (bs.getD (4 * j) 0 ++ bs.getD (4 * j + 1) 0 ++ bs.getD (4 * j + 2) 0 ++ bs.getD (4 * j + 3) 0 :
    BitVec (8 + 8 + 8 + 8))

/-- Ch (44_sha256.md R193). -/
def shaCh (x y z : Word) : Word := (x &&& y) ^^^ (~~~x &&& z)

/-- Maj (44_sha256.md R193). -/
def shaMaj (x y z : Word) : Word := (x &&& y) ^^^ (x &&& z) ^^^ (y &&& z)

/-- Σ0 (44_sha256.md R193). -/
def shaBigSigma0 (x : Word) : Word := x.rotateRight 2 ^^^ x.rotateRight 13 ^^^ x.rotateRight 22

/-- Σ1 (44_sha256.md R193). -/
def shaBigSigma1 (x : Word) : Word := x.rotateRight 6 ^^^ x.rotateRight 11 ^^^ x.rotateRight 25

/-- σ0 (44_sha256.md R193). -/
def shaSigma0 (x : Word) : Word := x.rotateRight 7 ^^^ x.rotateRight 18 ^^^ (x >>> 3)

/-- σ1 (44_sha256.md R193). -/
def shaSigma1 (x : Word) : Word := x.rotateRight 17 ^^^ x.rotateRight 19 ^^^ (x >>> 10)

/-- W[t] from the words W[0..t) before it, for t ≥ 16 (44_sha256.md R195). -/
def nextScheduleWord (w : List Word) : Word :=
  let t := w.length
  shaSigma1 (w.getD (t - 2) 0) + w.getD (t - 7) 0 + shaSigma0 (w.getD (t - 15) 0) + w.getD (t - 16) 0

/-- `k` more words of the message schedule. -/
def extendSchedule : Nat → List Word → List Word
  | 0, w => w
  | k + 1, w => extendSchedule k (w ++ [nextScheduleWord w])

/-- W[0..64): the message schedule of a block (44_sha256.md R195). -/
def shaSchedule (block : List Byte) : List Word := extendSchedule 48 ((List.range 16).map (wordBe block))

/-- The working words a, b', c, d, e, f, g, h (44_sha256.md R196). -/
structure ShaWork where
  a : Word
  b : Word
  c : Word
  d : Word
  e : Word
  f : Word
  g : Word
  h : Word
  deriving DecidableEq, Repr

/-- Step `t` of the compression on the schedule `w` (44_sha256.md R196). -/
def shaStep (w : List Word) (v : ShaWork) (t : Nat) : ShaWork :=
  let t1 := v.h + shaBigSigma1 v.e + shaCh v.e v.f v.g + sha256K.getD t 0 + w.getD t 0
  let t2 := shaBigSigma0 v.a + shaMaj v.a v.b v.c
  { a := t1 + t2, b := v.a, c := v.b, d := v.c, e := v.d + t1, f := v.e, g := v.f, h := v.g }

/-- sha256_compress on the running words and a 64-byte block (44_sha256.md R196). -/
def sha256Compress (h : Vector Word 8) (block : List Byte) : Vector Word 8 :=
  let v := (List.range 64).foldl (shaStep (shaSchedule block))
    { a := h[0], b := h[1], c := h[2], d := h[3], e := h[4], f := h[5], g := h[6], h := h[7] }
  #v[h[0] + v.a, h[1] + v.b, h[2] + v.c, h[3] + v.d, h[4] + v.e, h[5] + v.f, h[6] + v.g, h[7] + v.h]

/-- The SHA-256 output: H0 … H7, each big-endian (44_sha256.md R200). -/
def sha256Output (h : Vector Word 8) : List Byte := h.toList.flatMap fun w => i2osp w.toNat 4

end Sys2Proof.Machine
end

