-- ==== Sys2Proof/Machine/Hash.lean ====
section
/-! DEFINITION. The hash contexts and the commands HINIT, HUPDATE and HFINAL (45_hash_commands.md). -/

namespace Sys2Proof.Machine

/-! ### Contexts -/

/-- One byte absorbed: BUF and CNT grow, and the 64th byte of a block compresses it (45_hash_commands.md R212). -/
def absorbByte {n : Nat} (compress : Vector Word n → List Byte → Vector Word n) (x : HashCtx n) (y : Byte) :
    HashCtx n :=
  if (x.buf ++ [y]).length = 64 then { h := compress x.h (x.buf ++ [y]), buf := [], cnt := x.cnt + 1 }
  else { h := x.h, buf := x.buf ++ [y], cnt := x.cnt + 1 }

/-- absorb(x, s): every byte of s in order (45_hash_commands.md R212). -/
def absorb {n : Nat} (compress : Vector Word n → List Byte → Vector Word n) (x : HashCtx n) (s : List Byte) :
    HashCtx n :=
  s.foldl (absorbByte compress) x

/-- The number of zero bytes in the padding: (55 − len(BUF)) mod 64 (45_hash_commands.md R211). -/
def padZeros (buflen : Nat) : Nat := ((55 - buflen : Int) % 64).toNat

/-- hpad(x): 0x80, the zero bytes and the encoded bit count 8·CNT mod 2^64 (45_hash_commands.md R211). -/
def hashPad {n : Nat} (len8 : BitVec 64 → List Byte) (x : HashCtx n) : List Byte :=
  0x80 :: List.replicate (padZeros x.buf.length) 0x00 ++ len8 (8 * x.cnt)

/-- MD5's length field: 8 bytes, little-endian (43_md5.md R188). -/
def md5Len8 (c : BitVec 64) : List Byte := leBytes c.toNat 8

/-- SHA-256's length field: 8 bytes, big-endian (44_sha256.md R199). -/
def sha256Len8 (c : BitVec 64) : List Byte := i2osp c.toNat 8

/-- The running words after the padding is absorbed (45_hash_commands.md R213). -/
def paddedWords {n : Nat} (compress : Vector Word n → List Byte → Vector Word n) (len8 : BitVec 64 → List Byte)
    (x : HashCtx n) : Vector Word n :=
  (absorb compress x (hashPad len8 x)).h

/-- The digest of the MD5 context (45_hash_commands.md R213, 43_md5.md R189). -/
def md5Digest (x : HashCtx 4) : List Byte := md5Output (paddedWords md5Compress md5Len8 x)

/-- The digest of the SHA-256 context (45_hash_commands.md R213, 44_sha256.md R200). -/
def sha256Digest (x : HashCtx 8) : List Byte := sha256Output (paddedWords sha256Compress sha256Len8 x)

/-! ### Commands -/

/-- The number of bytes a digest has (45_hash_commands.md R213). -/
def digestLen (alg : BitVec 2) : Nat := if alg = 0#2 then 16 else 32

/-- ALG ∈ {2, 3} raises UNSUPPORTED_ALGORITHM (45_hash_commands.md R205; the decoder stops such a word before
this, log entry 16). -/
def requireAlg (alg : BitVec 2) : Except Stop Unit := require (alg = 0#2 ∨ alg = 1#2) .unsupportedAlgorithm

/-- CTX[ALG] at its initial value (45_hash_commands.md R206). -/
def State.ctxInit (s : State) (alg : BitVec 2) : State :=
  if alg = 0#2 then { s with md5 := HashCtx.initial md5Init } else { s with sha := HashCtx.initial sha256Init }

/-- absorb(ALG, bs) (45_hash_commands.md R205, R212). -/
def State.ctxAbsorb (s : State) (alg : BitVec 2) (bs : List Byte) : State :=
  if alg = 0#2 then { s with md5 := absorb md5Compress s.md5 bs }
  else { s with sha := absorb sha256Compress s.sha bs }

/-- The digest of CTX[ALG] (45_hash_commands.md R205, R213). -/
def State.ctxDigest (s : State) (alg : BitVec 2) : List Byte :=
  if alg = 0#2 then md5Digest s.md5 else sha256Digest s.sha

/-- HINIT (45_hash_commands.md R214). -/
def execHinit (alg : BitVec 2) (s : State) : Host.Outcome State Fault Refusal :=
  finish s do
    requireAlg alg
    return s.ctxInit alg

/-- HUPDATE (45_hash_commands.md R215). -/
def execHupdate (alg : BitVec 2) (s : State) : Host.Outcome State Fault Refusal :=
  finish s do
    requireAlg alg
    require (inRange s.larg.arg0 s.larg.arg1.toNat) .range
    let bs ← memRead s s.larg.arg0 s.larg.arg1.toNat
    return s.ctxAbsorb alg bs

/-- HFINAL (45_hash_commands.md R213). -/
def execHfinal (alg : BitVec 2) (s : State) : Host.Outcome State Fault Refusal :=
  finish s do
    requireAlg alg
    require (inRange s.larg.arg2 (digestLen alg)) .range
    return ((s.memWrite s.larg.arg2 (s.ctxDigest alg)).ctxInit alg).setResult (digestLen alg)

end Sys2Proof.Machine
end

