-- ==== Sys2Proof/Machine/Rsa.lean ====
section
/-! DEFINITION. The RSA modular-exponentiation datapath with PKCS#1 v1.5 padding (41_rsa.md). -/

namespace Sys2Proof.Machine

/-- The key length k = (bitlen(n) + 7) div 8 in bytes (41_rsa.md R137). -/
def keyLen (n : Int) : Nat := (bitlen n.natAbs + 7) / 8

/-- EM = 0x00 ‖ 0x02 ‖ PS ‖ 0x00 ‖ M (41_rsa.md R138). -/
def pkcs1Block (ps m : List Byte) : List Byte := [0x00, 0x02] ++ ps ++ [0x00] ++ m

/-- PKCS#1 unpadding: the message after the first zero byte at index ≥ 2, which must be at index ≥ 10; none is
INVALID_PADDING (41_rsa.md R143). -/
def pkcs1Unpad (em : List Byte) : Option (List Byte) :=
  if em.length < 2 then none
  else if em.getD 0 0 ≠ 0x00 then none
  else if ¬ (em.getD 1 0 = 0x01 ∨ em.getD 1 0 = 0x02) then none
  else
    match (em.drop 2).findIdx? (fun x => decide (x = 0x00)) with
    | none => none
    | some i => if i + 2 < 10 then none else some (em.drop (i + 3))

/-- PS read from DMEM at ARG3: RANGE, then PS_ZERO for a zero byte in it (41_rsa.md R139, R140). -/
def hostPadding (s : State) (n : Nat) : Except Stop (List Byte) := do
  require (inRange s.larg.arg3 n) .range
  let ps ← memRead s s.larg.arg3 n
  require (∀ x ∈ ps, x ≠ 0x00) .psZero
  return ps

/-- The padding string of `n` bytes and the RNG counter after it: read from DMEM when PSSRC = 1, else `n`
independent nonzero draws (41_rsa.md R139, R140). -/
def paddingString (pssrc : Bool) (s : State) (n : Nat) : Except Stop (List Byte × Nat) :=
  if pssrc then do
    let ps ← hostPadding s n
    return (ps, s.rng)
  else .ok (drawBytes s.rng n, s.rng + n)

/-- RSAENC (41_rsa.md R140). -/
def execRsaenc (ra rb : RegIdx) (pssrc : Bool) (s : State) : Host.Outcome State Fault Refusal :=
  finish s do
    let n := s.getB ra
    let e := s.getB rb
    require (0 < n ∧ 0 ≤ e) .arithmetic
    let k := keyLen n
    let mlen := s.larg.arg1.toNat
    require (inRange s.larg.arg0 mlen ∧ inRange s.larg.arg2 k) .range
    require (mlen + 11 ≤ k) .dataTooLong
    let ps ← paddingString pssrc s (k - mlen - 3)
    let m ← memRead s s.larg.arg0 mlen
    let c := modPow (os2ip (pkcs1Block ps.1 m)) e.toNat n
    return ((s.memWrite s.larg.arg2 (i2osp c.toNat k)).setResult k).setRng ps.2

/-- RSADEC (41_rsa.md R142). -/
def execRsadec (ra rb : RegIdx) (s : State) : Host.Outcome State Fault Refusal :=
  finish s do
    let n := s.getB ra
    let d := s.getB rb
    require (0 < n ∧ 0 ≤ d) .arithmetic
    let k := keyLen n
    let clen := s.larg.arg1.toNat
    require (inRange s.larg.arg0 clen ∧ inRange s.larg.arg2 (k - 11)) .range
    let bs ← memRead s s.larg.arg0 clen
    match pkcs1Unpad (i2osp (modPow (os2ip bs) d.toNat n).toNat k) with
    | none => .error (.raise .invalidPadding)
    | some m => return (s.memWrite s.larg.arg2 m).setResult m.length

end Sys2Proof.Machine
end

