-- ==== Sys2Proof/Machine/Dispatch.lean ====
section
/-! DEFINITION. The meaning of every command (60_exceptions.md R233): one arm per constructor of Instr. -/

namespace Sys2Proof.Machine

/-- Runs a command's pseudocode on the latched arguments and completes it (60_exceptions.md R229, R233). -/
def exec (i : Instr) (s : State) : Host.Outcome State Fault Refusal :=
  match i with
  | .nop => Sys2Proof.Machine.execNop s
  | .ldi rd => Sys2Proof.Machine.execLdi rd s
  | .mov rd ra => Sys2Proof.Machine.execMov rd ra s
  | .ldb rd => Sys2Proof.Machine.execLdb rd s
  | .ldu rd => Sys2Proof.Machine.execLdu rd s
  | .stb ra => Sys2Proof.Machine.execStb ra s
  | .stu ra => Sys2Proof.Machine.execStu ra s
  | .add rd ra rb => Sys2Proof.Machine.execAdd rd ra rb s
  | .sub rd ra rb => Sys2Proof.Machine.execSub rd ra rb s
  | .mul rd ra rb => Sys2Proof.Machine.execMul rd ra rb s
  | .div rd ra rb => Sys2Proof.Machine.execDiv rd ra rb s
  | .rem rd ra rb => Sys2Proof.Machine.execRem rd ra rb s
  | .divrem rd ra rb rc => Sys2Proof.Machine.execDivrem rd ra rb rc s
  | .mod rd ra rb => Sys2Proof.Machine.execMod rd ra rb s
  | .modpow rd ra rb rc => Sys2Proof.Machine.execModpow rd ra rb rc s
  | .modinv rd ra rb => Sys2Proof.Machine.execModinv rd ra rb s
  | .cmp ra rb => Sys2Proof.Machine.execCmp ra rb s
  | .bitlen ra => Sys2Proof.Machine.execBitlen ra s
  | .rsaenc ra rb pssrc => Sys2Proof.Machine.execRsaenc ra rb pssrc s
  | .rsadec ra rb => Sys2Proof.Machine.execRsadec ra rb s
  | .aeskey => Sys2Proof.Machine.execAeskey s
  | .aesiv => Sys2Proof.Machine.execAesiv s
  | .aescrypt dec cbc pad strict => Sys2Proof.Machine.execAescrypt dec cbc pad strict s
  | .hinit alg => Sys2Proof.Machine.execHinit alg s
  | .hupdate alg => Sys2Proof.Machine.execHupdate alg s
  | .hfinal alg => Sys2Proof.Machine.execHfinal alg s

end Sys2Proof.Machine
end

