-- ==== Sys2Proof/WellFormed.lean ====
section
/-! DEFINITION. Which commands are legal terms: what 30_encoding.md R84, R85 and R90 ask of the operands beyond
their widths. -/

namespace Sys2Proof

/-- DIVREM has two different destinations (30_encoding.md R90), AESCRYPT's STRICT stands only with DEC = PAD = 1
(R85), and a hash command names MD5 (0) or SHA-256 (1) (R84). -/
def Instr.wellFormed : Instr → Bool
  | .nop | .ldi _ | .mov _ _ | .ldb _ | .ldu _ | .stb _ | .stu _ => true
  | .add _ _ _ | .sub _ _ _ | .mul _ _ _ | .div _ _ _ | .rem _ _ _ => true
  | .divrem rd _ _ rc => rd != rc
  | .mod _ _ _ | .modpow _ _ _ _ | .modinv _ _ _ | .cmp _ _ | .bitlen _ => true
  | .rsaenc _ _ _ | .rsadec _ _ => true
  | .aeskey | .aesiv => true
  | .aescrypt dec _ pad strict => !strict || (dec && pad)
  | .hinit alg | .hupdate alg | .hfinal alg => alg == 0#2 || alg == 1#2

end Sys2Proof
end

