-- ==== Sys2Proof/Decode.lean ====
section
/-! DEFINITION. The command word's fields (30_encoding.md R81), the total decoder (R91), the encoder from the same
tables (R81, R84–R86, R88) and the host's view of the decoder. -/

namespace Sys2Proof

/-- OP = w[7:0] (30_encoding.md R81). -/
def fieldOp (w : Word) : BitVec 8 := w.extractLsb' 0 8
/-- RD = w[11:8] (30_encoding.md R81). -/
def fieldRd (w : Word) : RegIdx := (w.extractLsb' 8 4).toFin
/-- RA = w[15:12] (30_encoding.md R81). -/
def fieldRa (w : Word) : RegIdx := (w.extractLsb' 12 4).toFin
/-- RB = w[19:16] (30_encoding.md R81). -/
def fieldRb (w : Word) : RegIdx := (w.extractLsb' 16 4).toFin
/-- RC = w[23:20] (30_encoding.md R81). -/
def fieldRc (w : Word) : RegIdx := (w.extractLsb' 20 4).toFin
/-- FN = w[31:24] (30_encoding.md R81). -/
def fieldFn (w : Word) : BitVec 8 := w.extractLsb' 24 8

/-- A command whose zero-marked fields and reserved FN bits are as R88 and R84–R86 ask (`legal`), or
ILLEGAL_COMMAND (30_encoding.md R90). -/
def legalOr (legal : Prop) [Decidable legal] (i : Instr) : Except ErrKind Instr :=
  if legal then .ok i else .error .illegalCommand

/-- A hash command: ILLEGAL_COMMAND for a nonzero register field or FN[7:2], then UNSUPPORTED_ALGORITHM for
ALG 2 and 3 (30_encoding.md R84, R91). -/
def decodeHash (mk : BitVec 2 → Instr) (rd ra rb rc : RegIdx) (fn : BitVec 8) : Except ErrKind Instr :=
  if ¬ (rd = 0 ∧ ra = 0 ∧ rb = 0 ∧ rc = 0 ∧ fn.extractLsb' 2 6 = 0) then .error .illegalCommand
  else if fn.extractLsb' 0 2 = 0#2 ∨ fn.extractLsb' 0 2 = 1#2 then .ok (mk (fn.extractLsb' 0 2))
  else .error .unsupportedAlgorithm

/-- AESCRYPT: FN[7:4] = 0, and STRICT only with DEC = PAD = 1 (30_encoding.md R85, R91). -/
def decodeAescrypt (rd ra rb rc : RegIdx) (fn : BitVec 8) : Except ErrKind Instr :=
  legalOr (rd = 0 ∧ ra = 0 ∧ rb = 0 ∧ rc = 0 ∧ fn.extractLsb' 4 4 = 0 ∧
      (fn.getLsbD 3 = true → fn.getLsbD 0 = true ∧ fn.getLsbD 2 = true))
    (.aescrypt (fn.getLsbD 0) (fn.getLsbD 1) (fn.getLsbD 2) (fn.getLsbD 3))

/-- The opcode map of 30_encoding.md R88 on the fields of a word; every opcode not listed is reserved (R89). -/
def decodeFields (op : BitVec 8) (rd ra rb rc : RegIdx) (fn : BitVec 8) : Except ErrKind Instr :=
  if op = 0x00#8 then legalOr (rd = 0 ∧ ra = 0 ∧ rb = 0 ∧ rc = 0 ∧ fn = 0) .nop
  else if op = 0x01#8 then legalOr (ra = 0 ∧ rb = 0 ∧ rc = 0 ∧ fn = 0) (.ldi rd)
  else if op = 0x02#8 then legalOr (rb = 0 ∧ rc = 0 ∧ fn = 0) (.mov rd ra)
  else if op = 0x03#8 then legalOr (ra = 0 ∧ rb = 0 ∧ rc = 0 ∧ fn = 0) (.ldb rd)
  else if op = 0x04#8 then legalOr (ra = 0 ∧ rb = 0 ∧ rc = 0 ∧ fn = 0) (.ldu rd)
  else if op = 0x05#8 then legalOr (rd = 0 ∧ rb = 0 ∧ rc = 0 ∧ fn = 0) (.stb ra)
  else if op = 0x06#8 then legalOr (rd = 0 ∧ rb = 0 ∧ rc = 0 ∧ fn = 0) (.stu ra)
  else if op = 0x10#8 then legalOr (rc = 0 ∧ fn = 0) (.add rd ra rb)
  else if op = 0x11#8 then legalOr (rc = 0 ∧ fn = 0) (.sub rd ra rb)
  else if op = 0x12#8 then legalOr (rc = 0 ∧ fn = 0) (.mul rd ra rb)
  else if op = 0x13#8 then legalOr (rc = 0 ∧ fn = 0) (.div rd ra rb)
  else if op = 0x14#8 then legalOr (rc = 0 ∧ fn = 0) (.rem rd ra rb)
  else if op = 0x15#8 then legalOr (rd ≠ rc ∧ fn = 0) (.divrem rd ra rb rc)
  else if op = 0x16#8 then legalOr (rc = 0 ∧ fn = 0) (.mod rd ra rb)
  else if op = 0x17#8 then legalOr (fn = 0) (.modpow rd ra rb rc)
  else if op = 0x18#8 then legalOr (rc = 0 ∧ fn = 0) (.modinv rd ra rb)
  else if op = 0x19#8 then legalOr (rd = 0 ∧ rc = 0 ∧ fn = 0) (.cmp ra rb)
  else if op = 0x1A#8 then legalOr (rd = 0 ∧ rb = 0 ∧ rc = 0 ∧ fn = 0) (.bitlen ra)
  else if op = 0x20#8 then
    legalOr (rd = 0 ∧ rc = 0 ∧ fn.extractLsb' 1 7 = 0) (.rsaenc ra rb (fn.getLsbD 0))
  else if op = 0x21#8 then legalOr (rd = 0 ∧ rc = 0 ∧ fn = 0) (.rsadec ra rb)
  else if op = 0x30#8 then legalOr (rd = 0 ∧ ra = 0 ∧ rb = 0 ∧ rc = 0 ∧ fn = 0) .aeskey
  else if op = 0x31#8 then legalOr (rd = 0 ∧ ra = 0 ∧ rb = 0 ∧ rc = 0 ∧ fn = 0) .aesiv
  else if op = 0x32#8 then decodeAescrypt rd ra rb rc fn
  else if op = 0x40#8 then decodeHash .hinit rd ra rb rc fn
  else if op = 0x41#8 then decodeHash .hupdate rd ra rb rc fn
  else if op = 0x42#8 then decodeHash .hfinal rd ra rb rc fn
  else .error .illegalCommand

/-- Decoding, total on every 32-bit word (30_encoding.md R91): a command, or the error it completes with. -/
def decode (w : Word) : Except ErrKind Instr :=
  decodeFields (fieldOp w) (fieldRd w) (fieldRa w) (fieldRb w) (fieldRc w) (fieldFn w)

/-- The word of 30_encoding.md R81, most significant field first: FN RC RB RA RD OP. -/
def packWord (fn : BitVec 8) (rc rb ra rd : RegIdx) (op : BitVec 8) : Word :=
  (fn ++ BitVec.ofFin (w := 4) rc ++ BitVec.ofFin (w := 4) rb ++ BitVec.ofFin (w := 4) ra ++
    BitVec.ofFin (w := 4) rd ++ op : BitVec (8 + 4 + 4 + 4 + 4 + 8))

/-- FN of AESCRYPT, most significant bit first: four zero bits, STRICT, PAD, CBC, DEC (30_encoding.md R85). -/
def aescryptFn (dec cbc pad strict : Bool) : BitVec 8 :=
  (0#4 ++ BitVec.ofBool strict ++ BitVec.ofBool pad ++ BitVec.ofBool cbc ++ BitVec.ofBool dec :
    BitVec (4 + 1 + 1 + 1 + 1))

/-- FN of a hash command: six zero bits, then ALG (30_encoding.md R84). -/
def hashFn (alg : BitVec 2) : BitVec 8 := (0#6 ++ alg : BitVec (6 + 2))

/-- FN of RSAENC: seven zero bits, then PSSRC (30_encoding.md R86). -/
def rsaencFn (pssrc : Bool) : BitVec 8 := (0#7 ++ BitVec.ofBool pssrc : BitVec (7 + 1))

/-- The command word of a command (30_encoding.md R81, R88), its unused fields zero. -/
def encode : Instr → Word
  | .nop => packWord 0 0 0 0 0 0x00
  | .ldi rd => packWord 0 0 0 0 rd 0x01
  | .mov rd ra => packWord 0 0 0 ra rd 0x02
  | .ldb rd => packWord 0 0 0 0 rd 0x03
  | .ldu rd => packWord 0 0 0 0 rd 0x04
  | .stb ra => packWord 0 0 0 ra 0 0x05
  | .stu ra => packWord 0 0 0 ra 0 0x06
  | .add rd ra rb => packWord 0 0 rb ra rd 0x10
  | .sub rd ra rb => packWord 0 0 rb ra rd 0x11
  | .mul rd ra rb => packWord 0 0 rb ra rd 0x12
  | .div rd ra rb => packWord 0 0 rb ra rd 0x13
  | .rem rd ra rb => packWord 0 0 rb ra rd 0x14
  | .divrem rd ra rb rc => packWord 0 rc rb ra rd 0x15
  | .mod rd ra rb => packWord 0 0 rb ra rd 0x16
  | .modpow rd ra rb rc => packWord 0 rc rb ra rd 0x17
  | .modinv rd ra rb => packWord 0 0 rb ra rd 0x18
  | .cmp ra rb => packWord 0 0 rb ra 0 0x19
  | .bitlen ra => packWord 0 0 0 ra 0 0x1A
  | .rsaenc ra rb pssrc => packWord (rsaencFn pssrc) 0 rb ra 0 0x20
  | .rsadec ra rb => packWord 0 0 rb ra 0 0x21
  | .aeskey => packWord 0 0 0 0 0 0x30
  | .aesiv => packWord 0 0 0 0 0 0x31
  | .aescrypt dec cbc pad strict => packWord (aescryptFn dec cbc pad strict) 0 0 0 0 0x32
  | .hinit alg => packWord (hashFn alg) 0 0 0 0 0x40
  | .hupdate alg => packWord (hashFn alg) 0 0 0 0 0x41
  | .hfinal alg => packWord (hashFn alg) 0 0 0 0 0x42

/-- The command word whose low `nbits` bits are those of `w`, every bit above them 0. -/
def tableWord (nbits w : Nat) : Word := BitVec.ofNat 32 (w % 2 ^ nbits)

/-- What the decoder reads from the opcode table's word (every command is one 32-bit word, 30_encoding.md R92). -/
def decodeTableWord (nbits w : Nat) : Option Instr :=
  match decode (tableWord nbits w) with
  | .ok i => some i
  | .error _ => none

end Sys2Proof
end

