-- ==== Sys2Proof/Machine/HostPort.lean ====
section
/-! DEFINITION. The host interface: the register block and the DMEM window (10_state.md R17–R32, 20_memory.md
R62, R70, R74), command issue (10_state.md R30), and the two resets (70_reset_and_hazards.md R251, R254, R255). -/

namespace Sys2Proof.Machine

/-! ### Where accesses go -/

/-- The bytes of an access. -/
def Width.bytes : Width → Nat
  | .byte => 1
  | .half => 2
  | .word => 4

/-- The offset in the register block of a host physical address, none outside the engine's block
(20_memory.md R68; log entry 7). -/
def portOffset (addr : Nat) : Option (BitVec 13) :=
  if Config.engineBase ≤ addr ∧ addr < Config.engineBase + Config.hostAddrSpan then
    some (BitVec.ofNat 13 (addr - Config.engineBase))
  else none

/-- Which accesses are legal: 32-bit aligned below 0x1000, naturally aligned in the DMEM window (20_memory.md R70). -/
def accessLegal (w : Width) (off : Nat) : Bool :=
  if off < 0x1000 then decide (w = .word) && decide (off % 4 = 0) else decide (off % w.bytes = 0)

/-! ### Resets -/

/-- The engine's reset state with the given DMEM, the environment (host accesses, turns, read data, reset
level, RNG) as it was (10_state.md R48; log entries 8, 19). -/
def State.resetEngine (s : State) (dmem : Memory) : State :=
  { State.reset with
    dmem := dmem, rst := s.rst, host := s.host, sched := s.sched, rdata := s.rdata, rng := s.rng }

/-- The length of the pending command's DMEM destination range, which starts at LARG2: the output length its
RANGE check uses, 0 for a command without one (70_reset_and_hazards.md R255). DESIGN CHOICE: 0 also for a word that
does not decode, an illegal one or a hash word with ALG 2 or 3, an HFINAL word among them (log entry 12). -/
def State.destLength (s : State) : Nat :=
  match decode s.lcmd with
  | .ok (.stb ra) => tcLength (s.getB ra)
  | .ok (.stu _) => s.larg.arg1.toNat
  | .ok (.rsaenc ra _ _) => keyLen (s.getB ra)
  | .ok (.rsadec ra _) => keyLen (s.getB ra) - 11
  | .ok (.aescrypt dec _ pad _) => aesOutMax dec pad s.larg.arg1.toNat
  | .ok (.hfinal alg) => digestLen alg
  | _ => 0

/-- DMEM after a soft reset: unchanged when idle, the abandoned command's destination range unmarked when busy
(70_reset_and_hazards.md R254, R255). -/
def State.abandonedDmem (s : State) : Memory :=
  if s.pending then s.dmem.unmark s.larg.arg2.toNat s.destLength else s.dmem

/-- Soft reset (70_reset_and_hazards.md R254, R255). -/
def softReset (s : State) : State := s.resetEngine s.abandonedDmem

/-- Hardware reset: every DMEM mark cleared (70_reset_and_hazards.md R251). -/
def hardReset (s : State) : State := s.resetEngine []

/-! ### Registers -/

/-- ID (10_state.md R26). -/
def idValue : Word := 0x544A5307

/-- CAPS0: DMEM_SIZE (10_state.md R19). -/
def caps0Value : Word := BitVec.ofNat 32 Config.dmemSize

/-- CAPS1: NUM_BREGS in [23:16], BIGINT_MAX_LIMBS in [15:0] (10_state.md R19). -/
def caps1Value : Word :=
  (0#8 ++ BitVec.ofNat 8 Config.numBregs ++ BitVec.ofNat 16 Config.bigintMaxLimbs : BitVec (8 + 8 + 16))

/-- CTRL as the host reads it: IE in bit 0, SRST and the reserved bits 0 (10_state.md R27). -/
def State.ctrlWord (s : State) : Word := (0#31 ++ BitVec.ofBool s.ie : BitVec (31 + 1))

/-- The register at an offset below 0x1000, as the host reads it (10_state.md R17); reserved offsets read 0 (R18). -/
def State.readReg (s : State) (off : Nat) : Word :=
  if off = 0x000 then idValue
  else if off = 0x004 then s.ctrlWord
  else if off = 0x008 then s.statusWord
  else if off = 0x00C then s.errcode.setWidth 32
  else if off = 0x010 then s.cmdreg
  else if off = 0x014 then s.result
  else if off = 0x020 then s.arg.arg0
  else if off = 0x024 then s.arg.arg1
  else if off = 0x028 then s.arg.arg2
  else if off = 0x02C then s.arg.arg3
  else if off = 0x030 then caps0Value
  else if off = 0x034 then caps1Value
  else 0

/-- A command word accepted: latched with its arguments, the completion state cleared (10_state.md R30). -/
def acceptCommand (s : State) (w : Word) : State :=
  { s with
    lcmd := w, larg := s.arg, cmdreg := w
    status := { s.status with busy := true, done := false, err := false }
    errcode := 0
    pending := true }

/-- A host write of CMD: issue, or CMDOVR while busy (10_state.md R30). -/
def writeCmd (s : State) (w : Word) : State :=
  if s.status.busy then { s with status := { s.status with cmdovr := true } } else acceptCommand s w

/-- A host write of STATUS: each 1 in bits 3:1 clears that bit, every other bit is ignored (10_state.md R28). -/
def writeStatus (s : State) (w : Word) : State :=
  { s with status := { s.status with
      done := s.status.done && !w.getLsbD 1
      err := s.status.err && !w.getLsbD 2
      cmdovr := s.status.cmdovr && !w.getLsbD 3 } }

/-- A host write of CTRL: a soft reset when bit 1 is 1, else IE from bit 0 (10_state.md R27). -/
def writeCtrl (s : State) (w : Word) : State :=
  if w.getLsbD 1 then softReset s else { s with ie := w.getLsbD 0 }

/-- A host write of a register below 0x1000; read-only and reserved offsets ignore it (10_state.md R17, R18). -/
def State.writeReg (s : State) (off : Nat) (w : Word) : State :=
  if off = 0x004 then writeCtrl s w
  else if off = 0x008 then writeStatus s w
  else if off = 0x010 then writeCmd s w
  else if off = 0x020 then { s with arg := { s.arg with arg0 := w } }
  else if off = 0x024 then { s with arg := { s.arg with arg1 := w } }
  else if off = 0x028 then { s with arg := { s.arg with arg2 := w } }
  else if off = 0x02C then { s with arg := { s.arg with arg3 := w } }
  else s

/-! ### The DMEM window (20_memory.md R62, R74) -/

/-- The `n` bytes of the window at `a`: 0 at and above DMEM_SIZE (20_memory.md R62), none when one is unmarked. -/
def windowRead? (m : Memory) : Nat → Nat → Option (List Byte)
  | _, 0 => some []
  | a, n + 1 =>
    match if a < Config.dmemSize then m.read? a else some 0 with
    | none => none
    | some v =>
      match windowRead? m (a + 1) n with
      | none => none
      | some vs => some (v :: vs)

/-- The bytes of a window write at `a`: ignored at and above DMEM_SIZE (20_memory.md R62). -/
def windowWrite (m : Memory) : Nat → List Byte → Memory
  | _, [] => m
  | a, v :: vs => windowWrite (if a < Config.dmemSize then m.write a v else m) (a + 1) vs

/-! ### Accesses -/

/-- The host reads (20_memory.md R70, R74): the data goes to `rdata`, the engine's state stays (10_state.md R20).
DESIGN CHOICE: where an access meets two of them, HOST_BUS_ERROR comes before HOST_HAZARD and HOST_HAZARD before UNINIT_READ
(R63, R70 and 70_reset_and_hazards.md R260 give no order; log entry 11). -/
def hostRead (w : Width) (off : Nat) (s : State) : Host.Outcome State Fault Refusal :=
  if accessLegal w off = false then .fault .hostBusError
  else if off < 0x1000 then .next { s with rdata := s.readReg off }
  else if s.status.busy then .fault .hostHazard
  else
    match windowRead? s.dmem (off - 0x1000) w.bytes with
    | none => .fault .uninitRead
    | some bs => .next { s with rdata := BitVec.ofNat 32 (leToNat bs) }

/-- The host writes (20_memory.md R70, R72, R74). DESIGN CHOICE: HOST_BUS_ERROR comes before HOST_HAZARD (log entry 11). -/
def hostWrite (w : Width) (off : Nat) (v : Word) (s : State) : Host.Outcome State Fault Refusal :=
  if accessLegal w off = false then .fault .hostBusError
  else if off < 0x1000 then .next (s.writeReg off v)
  else if s.status.busy then .fault .hostHazard
  else .next { s with dmem := windowWrite s.dmem (off - 0x1000) (leBytes v.toNat w.bytes) }

/-- One host access (20_memory.md R70). -/
def hostAccess (a : HostAccess) (s : State) : Host.Outcome State Fault Refusal :=
  match a with
  | .read w off => hostRead w off.toNat s
  | .write w off v => hostWrite w off.toNat v s

/-- The host makes its oldest access; with none it does nothing (20_memory.md R75(1)). -/
def hostTurn (s : State) : Host.Outcome State Fault Refusal :=
  match s.host with
  | [] => .next s
  | a :: rest => hostAccess a { s with host := rest }

/-- The platform drives rst: while it is high and when it is released the engine is in its reset state; a level
it already has changes nothing (70_reset_and_hazards.md R251; log entry 8). -/
def driveRst (level : Bool) (s : State) : State :=
  if level = s.rst then s else { hardReset s with rst := level }

end Sys2Proof.Machine
end

