-- ==== Sys2Proof/Machine/Step.lean ====
section
/-! DEFINITION. One step of the host–engine system: the engine step (60_exceptions.md R233), a host access, or
the reset input, as the schedule says (70_reset_and_hazards.md R265; log entry 4). -/

namespace Sys2Proof.Machine

/-- The engine step: enabled iff PENDING = 1; a word that decodes to an error completes with it, any other runs
(60_exceptions.md R233). When it is not enabled nothing happens (R243). -/
def engineStep (s : State) : Host.Outcome State Fault Refusal :=
  if s.pending then
    match decode s.lcmd with
    | .error e => .next (complete (some e) s)
    | .ok i => exec i s
  else .next s

/-- One turn. While rst is asserted no host access completes and no engine step is taken
(70_reset_and_hazards.md R251; log entry 9). -/
def takeTurn (t : Turn) (s : State) : Host.Outcome State Fault Refusal :=
  match t with
  | .rst level => .next (driveRst level s)
  | .host => if s.rst then .next s else hostTurn s
  | .engine => if s.rst then .next s else engineStep s

/-- Who moves when the schedule is empty: the engine while a command is pending (so that it is taken eventually,
70_reset_and_hazards.md R265), else the host. -/
def defaultTurn (s : State) : Turn := if s.pending then .engine else .host

/-- One step: the next turn of the schedule, or the default turn when the schedule is empty. -/
def step (s : State) : Host.Outcome State Fault Refusal :=
  match s.sched with
  | t :: ts => takeTurn t { s with sched := ts }
  | [] => takeTurn (defaultTurn s) s

/-- The state in which the host has just issued the command word and the engine moves next: the very next step
runs that command (the engine fetches nothing: 10_state.md R21, R30; log entry 13). -/
def State.withFetchWord (s : State) (nbits w : Nat) : State :=
  { acceptCommand s (tableWord nbits w) with rst := false, sched := .engine :: s.sched }

end Sys2Proof.Machine
end

