-- ==== Sys2Proof/Safety.lean ====
section
/-! DEFINITION. What the claims are stated in terms of: the invariant every step keeps, what each command may
write, and the specification-level meaning of key expansion and of a whole digest. -/

namespace Sys2Proof.Machine

/-! ### The invariant -/

/-- What holds at reset and after every step. -/
structure State.Inv (s : State) : Prop where
  /-- DMEM keeps its canonical form (20_memory.md R61). -/
  dmem_wf : s.dmem.wf = true
  /-- Every BigInt register is within the capacity (10_state.md R36). -/
  regs_fit : ∀ r, fits (s.getB r)
  /-- PENDING = STATUS.BUSY at every instant (10_state.md R33). -/
  pending_eq_busy : s.pending = s.status.busy
  /-- While a command is pending the completion state is clear (10_state.md R30). -/
  pending_clear : s.pending = true → s.status.done = false ∧ s.status.err = false ∧ s.errcode = 0
  /-- CMD reads back the latched command word (10_state.md R30). -/
  cmdreg_eq_lcmd : s.cmdreg = s.lcmd
  /-- ERRCODE is a code that some command can complete with (60_exceptions.md R226). -/
  errcode_legal : s.errcode.toNat ≤ 14 ∧ s.errcode ≠ 4
  /-- STATUS.ERR comes with an error code (60_exceptions.md R229). -/
  err_code : s.status.err = true → s.errcode ≠ 0
  /-- At most one of LT, EQ and GT is 1 (10_state.md R38). -/
  flags_exclusive : ¬ (s.status.lt = true ∧ s.status.eq = true) ∧ ¬ (s.status.lt = true ∧ s.status.gt = true) ∧
    ¬ (s.status.eq = true ∧ s.status.gt = true)
  /-- A loaded key has 10, 12 or 14 rounds, and KEYW is 0 beyond its schedule (10_state.md R40). -/
  key_shape : s.aes.keyValid = true →
    (s.aes.nr = 10 ∨ s.aes.nr = 12 ∨ s.aes.nr = 14) ∧
    ∀ i (_ : i < 60), 4 * (s.aes.nr.toNat + 1) ≤ i → s.aes.keyw[i] = 0
  /-- len(BUF) = CNT mod 64 in the MD5 context (10_state.md R45). -/
  md5_buf : s.md5.buf.length = s.md5.cnt.toNat % 64
  /-- len(BUF) = CNT mod 64 in the SHA-256 context (10_state.md R45). -/
  sha_buf : s.sha.buf.length = s.sha.cnt.toNat % 64
  /-- While rst is asserted the engine is in its reset state (70_reset_and_hazards.md R251; log entry 8). -/
  rst_held : s.rst = true → hardReset s = s

/-! ### What a state shows -/

/-- DMEM bytes that all have a value: `bs` stands at `[addr, addr + bs.length)`. -/
def State.holds (s : State) (addr : Nat) (bs : List Byte) : Prop :=
  ∀ i (h : i < bs.length), s.dmem.read? (addr + i) = some bs[i]

/-- `m'` is `m` with the bytes `bs` written at `addr` and every other byte as it was. -/
def Memory.Stores (m m' : Memory) (addr : Nat) (bs : List Byte) : Prop :=
  (∀ i (h : i < bs.length), m'.read? (addr + i) = some bs[i]) ∧
  ∀ x, (x < addr ∨ addr + bs.length ≤ x) → m'.read? x = m.read? x

/-- A range of `n` bytes at `addr` inside DMEM. -/
abbrev inDmem (addr n : Nat) : Prop := addr + n ≤ 4096

/-- The engine's registers, flags, AES state, hash contexts and latched command are as after a reset; KEYW, NR and
IV, which a reset leaves unspecified, are not named (10_state.md R48). -/
structure State.IsReset (s : State) : Prop where
  ctrl : s.ie = false
  status : s.statusWord = 0
  errcode : s.errcode = 0
  cmdreg : s.cmdreg = 0
  result : s.result = 0
  args : s.arg.arg0 = 0 ∧ s.arg.arg1 = 0 ∧ s.arg.arg2 = 0 ∧ s.arg.arg3 = 0
  latched : s.lcmd = 0 ∧ s.larg.arg0 = 0 ∧ s.larg.arg1 = 0 ∧ s.larg.arg2 = 0 ∧ s.larg.arg3 = 0
  pending : s.pending = false
  regs : ∀ r, s.getB r = 0
  valid : s.aes.keyValid = false ∧ s.aes.ivValid = false
  md5 : s.md5.h = #v[0x67452301, 0xefcdab89, 0x98badcfe, 0x10325476] ∧ s.md5.buf = [] ∧ s.md5.cnt = 0
  sha : s.sha.h = #v[0x6a09e667, 0xbb67ae85, 0x3c6ef372, 0xa54ff53a, 0x510e527f, 0x9b05688c, 0x1f83d9ab,
    0x5be0cd19] ∧ s.sha.buf = [] ∧ s.sha.cnt = 0
  irq : s.irq = false

/-- The engine moves next: its turn is first in the schedule, or the schedule is empty and a command is pending
(log entry 4). -/
def State.engineNext (s : State) : Prop :=
  s.rst = false ∧ (s.sched.head? = some .engine ∨ (s.sched = [] ∧ s.pending = true))

/-- The host moves next: its turn is first in the schedule, or the schedule is empty and the engine idle. -/
def State.hostNext (s : State) : Prop :=
  s.rst = false ∧ (s.sched.head? = some .host ∨ (s.sched = [] ∧ s.pending = false))

/-- The state with its first turn taken from the schedule. -/
def State.turnTaken (s : State) : State := { s with sched := s.sched.tail }

end Sys2Proof.Machine

namespace Sys2Proof

/-! ### What each command writes -/

/-- The BigInt registers a command writes (40_bigint.md). -/
def Instr.destRegs : Instr → List RegIdx
  | .ldi rd | .mov rd _ | .ldb rd | .ldu rd => [rd]
  | .add rd _ _ | .sub rd _ _ | .mul rd _ _ | .div rd _ _ | .rem rd _ _ | .mod rd _ _ => [rd]
  | .divrem rd _ _ rc => [rd, rc]
  | .modpow rd _ _ _ | .modinv rd _ _ => [rd]
  | .nop | .stb _ | .stu _ | .cmp _ _ | .bitlen _ | .rsaenc _ _ _ | .rsadec _ _ => []
  | .aeskey | .aesiv | .aescrypt _ _ _ _ | .hinit _ | .hupdate _ | .hfinal _ => []

/-- The commands that write DMEM, at [ARG2, ARG2 + RESULT) (20_memory.md R64). -/
def Instr.stores : Instr → Bool
  | .stb _ | .stu _ | .rsaenc _ _ _ | .rsadec _ _ | .aescrypt _ _ _ _ | .hfinal _ => true
  | .nop | .ldi _ | .mov _ _ | .ldb _ | .ldu _ | .add _ _ _ | .sub _ _ _ | .mul _ _ _ | .div _ _ _ | .rem _ _ _ => false
  | .divrem _ _ _ _ | .mod _ _ _ | .modpow _ _ _ _ | .modinv _ _ _ | .cmp _ _ | .bitlen _ => false
  | .aeskey | .aesiv | .hinit _ | .hupdate _ => false

/-- The commands that write RESULT (10_state.md R31). -/
def Instr.writesResult : Instr → Bool
  | .cmp _ _ | .bitlen _ | .stb _ | .stu _ | .rsaenc _ _ _ | .rsadec _ _ | .aescrypt _ _ _ _ | .hfinal _ => true
  | .nop | .ldi _ | .mov _ _ | .ldb _ | .ldu _ | .add _ _ _ | .sub _ _ _ | .mul _ _ _ | .div _ _ _ | .rem _ _ _ => false
  | .divrem _ _ _ _ | .mod _ _ _ | .modpow _ _ _ _ | .modinv _ _ _ => false
  | .aeskey | .aesiv | .hinit _ | .hupdate _ => false

/-- The errors a legal command can complete with (60_exceptions.md R227); MOD's CAPACITY is log entry 15's. -/
def Instr.errors : Instr → List ErrKind
  | .nop | .ldi _ | .mov _ _ | .cmp _ _ | .bitlen _ => []
  | .ldb _ | .ldu _ => [.range, .capacity]
  | .stb _ | .stu _ => [.range]
  | .add _ _ _ | .sub _ _ _ | .mul _ _ _ => [.capacity]
  | .div _ _ _ | .rem _ _ _ | .divrem _ _ _ _ => [.divisionByZero]
  | .mod _ _ _ => [.divisionByZero, .capacity]
  | .modpow _ _ _ _ | .modinv _ _ _ => [.arithmetic]
  | .rsaenc _ _ _ => [.arithmetic, .range, .dataTooLong, .psZero]
  | .rsadec _ _ => [.arithmetic, .range, .invalidPadding]
  | .aeskey => [.invalidKeyLength, .range]
  | .aesiv => [.range]
  | .aescrypt _ _ _ _ => [.noKey, .noIv, .range, .invalidCiphertextLength, .invalidPadding]
  | .hinit _ => [.unsupportedAlgorithm]
  | .hupdate _ | .hfinal _ => [.unsupportedAlgorithm, .range]

/-! ### The opcode map as data (30_encoding.md R81, R88) -/

/-- The command word with the given fields, as a number (30_encoding.md R81). -/
def commandWord (op rd ra rb rc fn : Nat) : Word :=
  BitVec.ofNat 32 (op + 2 ^ 8 * rd + 2 ^ 12 * ra + 2 ^ 16 * rb + 2 ^ 20 * rc + 2 ^ 24 * fn)

/-- A row of the opcode map: the opcode, and which bits of the word the command uses (the fields marked x, and the
FN bits of R84–R86). Every other bit must be zero. -/
structure OpcodeRow where
  op : BitVec 8
  used : Word
  deriving DecidableEq, Repr

/-- Field masks: OP with RD, RA, RB, RC. -/
def opcodeMap : List OpcodeRow :=
  [ ⟨0x00, 0x000000FF⟩, ⟨0x01, 0x00000FFF⟩, ⟨0x02, 0x0000FFFF⟩, ⟨0x03, 0x00000FFF⟩, ⟨0x04, 0x00000FFF⟩,
    ⟨0x05, 0x0000F0FF⟩, ⟨0x06, 0x0000F0FF⟩, ⟨0x10, 0x000FFFFF⟩, ⟨0x11, 0x000FFFFF⟩, ⟨0x12, 0x000FFFFF⟩,
    ⟨0x13, 0x000FFFFF⟩, ⟨0x14, 0x000FFFFF⟩, ⟨0x15, 0x00FFFFFF⟩, ⟨0x16, 0x000FFFFF⟩, ⟨0x17, 0x00FFFFFF⟩,
    ⟨0x18, 0x000FFFFF⟩, ⟨0x19, 0x000FF0FF⟩, ⟨0x1A, 0x0000F0FF⟩, ⟨0x20, 0x010FF0FF⟩, ⟨0x21, 0x000FF0FF⟩,
    ⟨0x30, 0x000000FF⟩, ⟨0x31, 0x000000FF⟩, ⟨0x32, 0x0F0000FF⟩, ⟨0x40, 0x030000FF⟩, ⟨0x41, 0x030000FF⟩,
    ⟨0x42, 0x030000FF⟩ ]

/-- The reserved opcodes (30_encoding.md R89). -/
def reservedOpcode (op : BitVec 8) : Prop :=
  (0x07 ≤ op.toNat ∧ op.toNat ≤ 0x0F) ∨ (0x1B ≤ op.toNat ∧ op.toNat ≤ 0x1F) ∨ (0x22 ≤ op.toNat ∧ op.toNat ≤ 0x2F) ∨
    (0x33 ≤ op.toNat ∧ op.toNat ≤ 0x3F) ∨ 0x43 ≤ op.toNat

end Sys2Proof

namespace Sys2Proof.Machine

/-! ### A whole digest (45_hash_commands.md R211, R216) -/

/-- A message padded on its own: 0x80, zero bytes to 56 modulo 64, and the bit count modulo 2^64 (R211). -/
def padMessage (len8 : Nat → List Byte) (m : List Byte) : List Byte :=
  m ++ [0x80] ++ List.replicate ((119 - m.length % 64) % 64) 0x00 ++ len8 (8 * m.length % 2 ^ 64)

/-- The running words after `k` 64-byte blocks of a message. -/
def hashBlocks {n : Nat} (compress : Vector Word n → List Byte → Vector Word n) : Nat → Vector Word n → List Byte →
    Vector Word n
  | 0, h, _ => h
  | k + 1, h, m => hashBlocks compress k (compress h (m.take 64)) (m.drop 64)

/-- MD5 of a whole message (43_md5.md R185–R189). -/
def md5Hash (m : List Byte) : List Byte :=
  let p := padMessage (fun x => leBytes x 8) m
  md5Output (hashBlocks md5Compress (p.length / 64) md5Init p)

/-- SHA-256 of a whole message (44_sha256.md R196–R200). -/
def sha256Hash (m : List Byte) : List Byte :=
  let p := padMessage (fun x => i2osp x 8) m
  sha256Output (hashBlocks sha256Compress (p.length / 64) sha256Init p)

/-- HASH of a whole message: MD5 for ALG = 0, SHA-256 for ALG = 1. -/
def wholeHash (alg : BitVec 2) (m : List Byte) : List Byte := if alg = 0#2 then md5Hash m else sha256Hash m

/-- The context of ALG is the same in both states. -/
def State.sameCtx (alg : BitVec 2) (s t : State) : Prop := if alg = 0#2 then s.md5 = t.md5 else s.sha = t.sha

/-- In `s` the context of ALG has absorbed the message `m` since an initialisation, by HUPDATEs between which
anything may happen that leaves the context alone (45_hash_commands.md R216). -/
inductive Absorbed (alg : BitVec 2) : State → List Byte → Prop where
  | start (s : State) (h : State.sameCtx alg s State.reset) : Absorbed alg s []
  | update (s u t : State) (m bs : List Byte) (hs : Absorbed alg s m) (hu : State.sameCtx alg s u)
      (hin : inDmem u.larg.arg0.toNat bs.length) (hlen : u.larg.arg1.toNat = bs.length)
      (hbs : u.holds u.larg.arg0.toNat bs) (ht : exec (.hupdate alg) u = .next t) : Absorbed alg t (m ++ bs)

/-! ### AES (42_aes.md R155, R159, R166) -/

/-- The affine map of the S-box (42_aes.md R155). -/
def sboxAffine (b : Byte) : Byte :=
  b ^^^ b.rotateLeft 1 ^^^ b.rotateLeft 2 ^^^ b.rotateLeft 3 ^^^ b.rotateLeft 4 ^^^ 0x63

/-- Block i of a byte string (42_aes.md R166). -/
def blockAt (xs : List Byte) (i : Nat) : List Byte := (xs.drop (16 * i)).take 16

/-- `w` is the key schedule of `key`: the key's bytes, big-endian, then the recurrence. -/
def IsKeySchedule (key : List Byte) (w : Nat → Word) : Prop :=
  let nk := key.length / 4
  (∀ i, i < nk → (w i).toNat = os2ip ((key.drop (4 * i)).take 4)) ∧
  ∀ i, nk ≤ i → i < 4 * (nk + 7) →
    w i = w (i - nk) ^^^
      (if i % nk = 0 then subWord (rotWord (w (i - 1))) ^^^ rcon (i / nk)
       else if 6 < nk ∧ i % nk = 4 then subWord (w (i - 1))
       else w (i - 1))

end Sys2Proof.Machine
end

