-- ==== Sys2Proof/Certificates/Slice0/Obligations.lean ====
section
/-! DEFINITION. The statements for the provers: what the rules of the spec say of the host port, the engine step and
every command. A result is stated as the next state `exec` answers; everything not named in it is unchanged. -/

open Sys2Proof Sys2Proof.Machine

/-! ### Reset and the invariant -/

/-- 10_state.md R48: the state after a hardware reset or a soft reset. -/
def Obligations.ResetValues : Prop :=
  State.reset.IsReset ∧ (∀ s : State, (hardReset s).IsReset ∧ (softReset s).IsReset) ∧
  (∀ a, State.reset.dmem.read? a = none) ∧ (∀ (s : State) a, (hardReset s).dmem.read? a = none) ∧
  (∀ s : State, s.pending = false → (softReset s).dmem = s.dmem) ∧
  (∀ s : State, s.readReg 0x000 = 0x544A5307 ∧ s.readReg 0x030 = 0x00001000 ∧ s.readReg 0x034 = 0x00100080)

/-- The invariant of Safety.lean holds in the reset state. -/
def Obligations.InvariantAtReset : Prop := State.reset.Inv

/-- Every step from a state that meets the invariant gives a state that meets it. -/
def Obligations.StepKeepsInvariant : Prop := ∀ s t : State, s.Inv → step s = .next t → t.Inv

/-- 70_reset_and_hazards.md R255: a soft reset while busy unmarks the abandoned command's destination range and no
other byte. Two points of the range are the model's choice (log entry 12): for RSAENC and RSADEC it follows the length
their RANGE check computes, from |B[RA]|, also where the command would have completed with ARITHMETIC; and a pending word
that does not decode unmarks nothing, an HFINAL word with ALG 2 or 3 among them, for which R255 lists 16 or 32 bytes. -/
def Obligations.SoftResetWhileBusy : Prop :=
  ∀ (s : State) (v : Word) (n : Nat), v.getLsbD 1 = true → s.pending = true →
    (n = match decode s.lcmd with
      | .ok (.stb ra) => (tcEncode (s.getB ra)).length
      | .ok (.stu _) => s.larg.arg1.toNat
      | .ok (.rsaenc ra _ _) => (bitlen (s.getB ra).natAbs + 7) / 8
      | .ok (.rsadec ra _) => (bitlen (s.getB ra).natAbs + 7) / 8 - 11
      | .ok (.aescrypt dec _ pad _) =>
        if dec = false ∧ pad = true then s.larg.arg1.toNat + 16 - s.larg.arg1.toNat % 16 else s.larg.arg1.toNat
      | .ok (.hfinal alg) => if alg = 0#2 then 16 else 32
      | _ => 0) →
    ∃ t, hostWrite .word 0x004 v s = .next t ∧ t.IsReset ∧
      ∀ a, t.dmem.read? a =
        if s.larg.arg2.toNat ≤ a ∧ a < s.larg.arg2.toNat + n then none else s.dmem.read? a

/-- 70_reset_and_hazards.md R251: while rst is asserted nothing completes, and its release leaves the reset state. That an
access attempted meanwhile stays in the host's queue, the turn being used up, is the model's choice (log entry 9), and so
is what the reset keeps of the environment (log entry 8). -/
def Obligations.HardwareReset : Prop :=
  ∀ s : State, s.rst = true →
    takeTurn .host s = .next s ∧ takeTurn .engine s = .next s ∧
    ∃ t, takeTurn (.rst false) s = .next t ∧ t.rst = false ∧ t.IsReset ∧ ∀ a, t.dmem.read? a = none

/-! ### The host port -/

/-- 10_state.md R18, R19, R26: ID, CAPS0 and CAPS1 read as their constants in every state, reserved offsets and bits
read as zero, and writes to any of these and to the other read-only registers are ignored. -/
def Obligations.ReservedAndReadOnly : Prop :=
  (∀ s : State,
    hostRead .word 0x000 s = .next { s with rdata := 0x544A5307 } ∧
    hostRead .word 0x030 s = .next { s with rdata := BitVec.ofNat 32 Config.dmemSize } ∧
    hostRead .word 0x034 s =
      .next { s with rdata := BitVec.ofNat 32 (2 ^ 16 * Config.numBregs + Config.bigintMaxLimbs) }) ∧
  (∀ (s : State) (off : Nat) (v : Word), off % 4 = 0 → (off = 0x018 ∨ off = 0x01C ∨ (0x038 ≤ off ∧ off ≤ 0xFFC)) →
    hostRead .word off s = .next { s with rdata := 0 } ∧ hostWrite .word off v s = .next s) ∧
  (∀ (s : State) (off : Nat) (v : Word), (off = 0x000 ∨ off = 0x00C ∨ off = 0x014 ∨ off = 0x030 ∨ off = 0x034) →
    hostWrite .word off v s = .next s) ∧
  (∀ s : State, s.readReg 0x004 &&& 0xFFFFFFFC = 0 ∧ s.readReg 0x008 &&& 0xFFFFF800 = 0 ∧
    s.readReg 0x00C &&& 0xFFFFFF00 = 0 ∧ s.readReg 0x034 &&& 0xFF000000 = 0) ∧
  (∀ (s : State) (v : Word), hostWrite .word 0x004 v s = hostWrite .word 0x004 (v &&& 0x00000003) s ∧
    hostWrite .word 0x008 v s = hostWrite .word 0x008 (v &&& 0x0000000E) s)

/-- 10_state.md R27: CTRL, in every state, busy or not. -/
def Obligations.CtrlRegister : Prop :=
  ∀ (s : State) (v : Word),
    hostRead .word 0x004 s = .next { s with rdata := if s.ie then 1 else 0 } ∧
    (v.getLsbD 1 = true → hostWrite .word 0x004 v s = .next (softReset s) ∧ (softReset s).ie = false) ∧
    (v.getLsbD 1 = false → hostWrite .word 0x004 v s = .next { s with ie := v.getLsbD 0 })

/-- 10_state.md R28: the bits of STATUS as read, and write-1-to-clear of DONE, ERR and CMDOVR. -/
def Obligations.StatusRegister : Prop :=
  ∀ (s : State) (v : Word),
    (∃ w : Word, hostRead .word 0x008 s = .next { s with rdata := w } ∧
      w.getLsbD 0 = s.status.busy ∧ w.getLsbD 1 = s.status.done ∧ w.getLsbD 2 = s.status.err ∧
      w.getLsbD 3 = s.status.cmdovr ∧ w.getLsbD 4 = s.status.lt ∧ w.getLsbD 5 = s.status.eq ∧
      w.getLsbD 6 = s.status.gt ∧ w.getLsbD 7 = s.status.noinv ∧ w.getLsbD 8 = s.status.padbad ∧
      w.getLsbD 9 = s.aes.keyValid ∧ w.getLsbD 10 = s.aes.ivValid ∧ ∀ i, 11 ≤ i → w.getLsbD i = false) ∧
    hostWrite .word 0x008 v s = .next { s with status := { s.status with
      done := if v.getLsbD 1 then false else s.status.done
      err := if v.getLsbD 2 then false else s.status.err
      cmdovr := if v.getLsbD 3 then false else s.status.cmdovr } }

/-- 10_state.md R30: issue. While busy a CMD write only sets CMDOVR; else it latches, whatever the word is. -/
def Obligations.CommandIssue : Prop :=
  ∀ (s : State) (w : Word),
    hostRead .word 0x010 s = .next { s with rdata := s.cmdreg } ∧
    (s.status.busy = true →
      hostWrite .word 0x010 w s = .next { s with status := { s.status with cmdovr := true } }) ∧
    (s.status.busy = false →
      hostWrite .word 0x010 w s = .next { s with
        lcmd := w, larg := s.arg, cmdreg := w
        status := { s.status with busy := true, done := false, err := false }
        errcode := 0, pending := true })

/-- 10_state.md R32: ARG0–ARG3 are written and read at any time, issue copies them, the engine never writes them, and a
command uses their latched copies only. -/
def Obligations.ArgRegisters : Prop :=
  (∀ (s : State) (v : Word),
    hostWrite .word 0x020 v s = .next { s with arg := { s.arg with arg0 := v } } ∧
    hostWrite .word 0x024 v s = .next { s with arg := { s.arg with arg1 := v } } ∧
    hostWrite .word 0x028 v s = .next { s with arg := { s.arg with arg2 := v } } ∧
    hostWrite .word 0x02C v s = .next { s with arg := { s.arg with arg3 := v } } ∧
    hostRead .word 0x020 s = .next { s with rdata := s.arg.arg0 } ∧
    hostRead .word 0x024 s = .next { s with rdata := s.arg.arg1 } ∧
    hostRead .word 0x028 s = .next { s with rdata := s.arg.arg2 } ∧
    hostRead .word 0x02C s = .next { s with rdata := s.arg.arg3 }) ∧
  (∀ (s t : State) (w : Word), s.status.busy = false → hostWrite .word 0x010 w s = .next t → t.larg = s.arg) ∧
  (∀ (s t : State), engineStep s = .next t → t.arg = s.arg) ∧
  (∀ (i : Instr) (s t : State) (a : Args), exec i s = .next t → exec i { s with arg := a } = .next { t with arg := a })

/-- 10_state.md R20, 20_memory.md R72: a host read that completes changes nothing but the data it returns. -/
def Obligations.HostReadsHaveNoSideEffect : Prop :=
  ∀ (s t : State) (w : Width) (off : BitVec 13), hostAccess (.read w off) s = .next t →
    t = { s with rdata := t.rdata }

/-- 20_memory.md R70, 70_reset_and_hazards.md R260: the legal widths and alignments, every other access being
HOST_BUS_ERROR; a legal DMEM-window access while busy is HOST_HAZARD; a legal register access always completes; until
completion RESULT shows its last value and ERRCODE reads 0. The spec gives no order of its faults: that an illegal window
access is HOST_BUS_ERROR also while busy, and that a legal read of an unmarked byte while busy is HOST_HAZARD, is the
model's choice (log entry 11). -/
def Obligations.HostBusRules : Prop :=
  (∀ (s : State) (w : Width) (off : Nat) (v : Word), off < 0x2000 →
    let register := off < 0x1000 ∧ w = .word ∧ off % 4 = 0
    let window := 0x1000 ≤ off ∧ (w = .byte ∨ (w = .half ∧ off % 2 = 0) ∨ (w = .word ∧ off % 4 = 0))
    (¬ (register ∨ window) →
      hostRead w off s = .fault .hostBusError ∧ hostWrite w off v s = .fault .hostBusError) ∧
    (register → (∃ t, hostRead w off s = .next t) ∧ ∃ t, hostWrite w off v s = .next t) ∧
    (window → s.status.busy = true →
      hostRead w off s = .fault .hostHazard ∧ hostWrite w off v s = .fault .hostHazard) ∧
    (window → s.status.busy = false →
      ((∃ t, hostRead w off s = .next t) ∨ hostRead w off s = .fault .uninitRead) ∧ ∃ t, hostWrite w off v s = .next t)) ∧
  (∀ s : State, hostRead .word 0x014 s = .next { s with rdata := s.result } ∧
    (∃ w : Word, hostRead .word 0x00C s = .next { s with rdata := w } ∧ w.toNat = s.errcode.toNat) ∧
    (s.Inv → s.status.busy = true → hostRead .word 0x00C s = .next { s with rdata := 0 }))

/-- 20_memory.md R63: which bytes have a value, and UNINIT_READ. A command faults where its pseudocode reads its source
range, after the checks above that line and before those below it; RSAENC with PSSRC = 1 reads PS, checks it and then
reads the message (log entry 20). -/
def Obligations.InitialisedMarks : Prop :=
  (∀ (s : State) a, (hardReset s).dmem.read? a = none) ∧
  (∀ s : State, s.pending = false → (softReset s).dmem = s.dmem) ∧
  (∀ (s t : State) (w : Width) (off : Nat) (v : Word), 0x1000 ≤ off → off < 0x2000 → hostWrite w off v s = .next t →
    ∀ i, i < w.bytes → (t.dmem.read? (off - 0x1000 + i)).isSome = true) ∧
  (∀ (s : State) (addr : Word) (bs : List Byte) i, i < bs.length →
    ((s.memWrite addr bs).dmem.read? (addr.toNat + i)).isSome = true) ∧
  (∀ (s : State) (w : Width) (off i : Nat), s.status.busy = false → 0x1000 ≤ off → off < 0x2000 → off % w.bytes = 0 →
    i < w.bytes → s.dmem.read? (off - 0x1000 + i) = none → hostRead w off s = .fault .uninitRead) ∧
  (∀ (s : State) (addr : Word) (n i : Nat), i < n → s.dmem.read? (addr.toNat + i) = none →
    memRead s addr n = .error (.fault .uninitRead)) ∧
  (∀ (s : State) (j : Nat), s.dmem.read? (s.larg.arg0.toNat + j) = none →
      (j < 16 → inDmem s.larg.arg0.toNat 16 → exec .aesiv s = .fault .uninitRead) ∧
      (j < s.larg.arg1.toNat → inDmem s.larg.arg0.toNat s.larg.arg1.toNat →
        (∀ rd, exec (.ldb rd) s = .fault .uninitRead ∧ exec (.ldu rd) s = .fault .uninitRead) ∧
        (∀ alg : BitVec 2, alg.toNat < 2 → exec (.hupdate alg) s = .fault .uninitRead) ∧
        (s.larg.arg1.toNat = 16 ∨ s.larg.arg1.toNat = 24 ∨ s.larg.arg1.toNat = 32 →
          exec .aeskey s = .fault .uninitRead) ∧
        (∀ dec cbc pad strict, (strict = true → dec = true ∧ pad = true) → s.aes.keyValid = true →
          (cbc = true → s.aes.ivValid = true) → (dec = true ∨ pad = false → s.larg.arg1.toNat % 16 = 0) →
          inDmem s.larg.arg2.toNat (if dec = false ∧ pad = true then
            s.larg.arg1.toNat + 16 - s.larg.arg1.toNat % 16 else s.larg.arg1.toNat) →
          exec (.aescrypt dec cbc pad strict) s = .fault .uninitRead) ∧
        (∀ (ra rb : RegIdx) (k : Nat), 256 ^ (k - 1) ≤ s.getB ra → s.getB ra < 256 ^ k → 0 ≤ s.getB rb → 0 < k →
          (inDmem s.larg.arg2.toNat k → s.larg.arg1.toNat + 11 ≤ k →
            exec (.rsaenc ra rb false) s = .fault .uninitRead ∧
            ∀ ps : List Byte, ps.length = k - s.larg.arg1.toNat - 3 → (∀ x ∈ ps, x ≠ 0x00) →
              inDmem s.larg.arg3.toNat ps.length → s.holds s.larg.arg3.toNat ps →
              exec (.rsaenc ra rb true) s = .fault .uninitRead) ∧
          (inDmem s.larg.arg2.toNat (k - 11) → exec (.rsadec ra rb) s = .fault .uninitRead)))) ∧
  (∀ (ra rb : RegIdx) (s : State) (k j : Nat), 256 ^ (k - 1) ≤ s.getB ra → s.getB ra < 256 ^ k → 0 ≤ s.getB rb →
    inDmem s.larg.arg0.toNat s.larg.arg1.toNat → inDmem s.larg.arg2.toNat k → s.larg.arg1.toNat + 11 ≤ k →
    inDmem s.larg.arg3.toNat (k - s.larg.arg1.toNat - 3) → j < k - s.larg.arg1.toNat - 3 →
    s.dmem.read? (s.larg.arg3.toNat + j) = none → exec (.rsaenc ra rb true) s = .fault .uninitRead)

/-- 20_memory.md R74: the little-endian lanes of the DMEM window. -/
def Obligations.WindowByteLanes : Prop :=
  ∀ (s : State) (w : Width) (a : Nat) (v : Word), a < 0x1000 → a % w.bytes = 0 → s.status.busy = false →
    (∃ m, hostWrite w (0x1000 + a) v s = .next { s with dmem := m } ∧
      Memory.Stores s.dmem m a ((List.range w.bytes).map fun i => v.extractLsb' (8 * i) 8)) ∧
    (∀ bs, bs.length = w.bytes → s.holds a bs → ∃ d : Word, hostRead w (0x1000 + a) s = .next { s with rdata := d } ∧
      d.toNat % 256 ^ w.bytes = ∑ i ∈ Finset.range w.bytes, (bs.getD i 0).toNat * 256 ^ i)

/-- 60_exceptions.md R236: irq = IE ∧ DONE; where it rises and where it falls. -/
def Obligations.InterruptOutput : Prop :=
  (∀ s : State, s.irq = (s.ie && s.status.done)) ∧
  (∀ (s : State) (e : Option ErrKind), (complete e s).irq = s.ie) ∧
  (∀ (s t : State) (v : Word), hostWrite .word 0x004 v s = .next t →
    t.irq = (!v.getLsbD 1 && v.getLsbD 0 && s.status.done)) ∧
  (∀ (s t : State) (v : Word), hostWrite .word 0x008 v s = .next t → t.irq = (s.irq && !v.getLsbD 1)) ∧
  (∀ (s t : State) (w : Word), s.status.busy = false → hostWrite .word 0x010 w s = .next t → t.irq = false) ∧
  (∀ s : State, (hardReset s).irq = false ∧ (softReset s).irq = false)

/-! ### Encoding -/

/-- 30_encoding.md R81, R88: every opcode's word, with every register field at every value, decodes to its command. -/
def Obligations.OpcodeMap : Prop :=
  (decode (commandWord 0x00 0 0 0 0 0) = .ok .nop) ∧
  (∀ rd : RegIdx, decode (commandWord 0x01 rd 0 0 0 0) = .ok (.ldi rd)) ∧
  (∀ rd ra : RegIdx, decode (commandWord 0x02 rd ra 0 0 0) = .ok (.mov rd ra)) ∧
  (∀ rd : RegIdx, decode (commandWord 0x03 rd 0 0 0 0) = .ok (.ldb rd)) ∧
  (∀ rd : RegIdx, decode (commandWord 0x04 rd 0 0 0 0) = .ok (.ldu rd)) ∧
  (∀ ra : RegIdx, decode (commandWord 0x05 0 ra 0 0 0) = .ok (.stb ra)) ∧
  (∀ ra : RegIdx, decode (commandWord 0x06 0 ra 0 0 0) = .ok (.stu ra)) ∧
  (∀ rd ra rb : RegIdx,
    decode (commandWord 0x10 rd ra rb 0 0) = .ok (.add rd ra rb) ∧
    decode (commandWord 0x11 rd ra rb 0 0) = .ok (.sub rd ra rb) ∧
    decode (commandWord 0x12 rd ra rb 0 0) = .ok (.mul rd ra rb) ∧
    decode (commandWord 0x13 rd ra rb 0 0) = .ok (.div rd ra rb) ∧
    decode (commandWord 0x14 rd ra rb 0 0) = .ok (.rem rd ra rb) ∧
    decode (commandWord 0x16 rd ra rb 0 0) = .ok (.mod rd ra rb) ∧
    decode (commandWord 0x18 rd ra rb 0 0) = .ok (.modinv rd ra rb)) ∧
  (∀ rd ra rb rc : RegIdx,
    (rd ≠ rc → decode (commandWord 0x15 rd ra rb rc 0) = .ok (.divrem rd ra rb rc)) ∧
    decode (commandWord 0x17 rd ra rb rc 0) = .ok (.modpow rd ra rb rc)) ∧
  (∀ ra rb : RegIdx,
    decode (commandWord 0x19 0 ra rb 0 0) = .ok (.cmp ra rb) ∧
    decode (commandWord 0x20 0 ra rb 0 0) = .ok (.rsaenc ra rb false) ∧
    decode (commandWord 0x20 0 ra rb 0 1) = .ok (.rsaenc ra rb true) ∧
    decode (commandWord 0x21 0 ra rb 0 0) = .ok (.rsadec ra rb)) ∧
  (∀ ra : RegIdx, decode (commandWord 0x1A 0 ra 0 0 0) = .ok (.bitlen ra)) ∧
  (decode (commandWord 0x30 0 0 0 0 0) = .ok .aeskey) ∧ (decode (commandWord 0x31 0 0 0 0 0) = .ok .aesiv) ∧
  (∀ dec cbc pad strict : Bool, (strict = true → dec = true ∧ pad = true) →
    decode (commandWord 0x32 0 0 0 0 (dec.toNat + 2 * cbc.toNat + 4 * pad.toNat + 8 * strict.toNat)) =
      .ok (.aescrypt dec cbc pad strict)) ∧
  (∀ alg : BitVec 2, alg.toNat < 2 →
    decode (commandWord 0x40 0 0 0 0 alg.toNat) = .ok (.hinit alg) ∧
    decode (commandWord 0x41 0 0 0 0 alg.toNat) = .ok (.hupdate alg) ∧
    decode (commandWord 0x42 0 0 0 0 alg.toNat) = .ok (.hfinal alg))

/-- The words of a few commands, written out from 30_encoding.md R81, R88 and 95_test_vectors.md. -/
def Obligations.DecodedWords : Prop :=
  decode 0x00000000 = .ok .nop ∧ decode 0x00021310 = .ok (.add 3 1 2) ∧ decode 0x00421315 = .ok (.divrem 3 1 2 4) ∧
  decode 0x00321417 = .ok (.modpow 4 1 2 3) ∧ decode 0x01021020 = .ok (.rsaenc 1 2 true) ∧
  decode 0x07000032 = .ok (.aescrypt true true true false) ∧ decode 0x01000042 = .ok (.hfinal 1)

/-- Decoding the word a well-formed command is encoded as gives the command back. -/
def Obligations.DecodeAfterEncode : Prop := ∀ i : Instr, i.wellFormed = true → decode (encode i) = .ok i

/-- A word that decodes to a command is that command's word, and the command is well-formed: no bit of a legal word
is dropped. -/
def Obligations.EncodeAfterDecode : Prop :=
  ∀ (w : Word) (i : Instr), decode w = .ok i → i.wellFormed = true ∧ encode i = w

/-- 30_encoding.md R89–R91: a reserved opcode, or an illegal word of a legal opcode, completes with ILLEGAL_COMMAND and
changes nothing else, an unsupported algorithm with UNSUPPORTED_ALGORITHM, and every other word with a legal opcode is
the command it encodes. -/
def Obligations.IllegalWords : Prop :=
  let fails (w : Word) (e : ErrKind) (code : BitVec 8) : Prop := decode w = .error e ∧
    ∀ s : State, s.pending = true → s.lcmd = w → engineStep s = .next { s with
      status := { s.status with busy := false, done := true, err := true }
      pending := false, errcode := code }
  (∀ w : Word, reservedOpcode (w.extractLsb' 0 8) → fails w .illegalCommand 8) ∧
  (∀ (w : Word) (row : OpcodeRow), row ∈ opcodeMap → w.extractLsb' 0 8 = row.op →
      let illegal := w &&& ~~~row.used ≠ 0 ∨
        (row.op = 0x32#8 ∧ w.getLsbD 27 = true ∧ ¬ (w.getLsbD 24 = true ∧ w.getLsbD 26 = true)) ∨
        (row.op = 0x15#8 ∧ w.extractLsb' 8 4 = w.extractLsb' 20 4)
      let unsupported := (row.op = 0x40#8 ∨ row.op = 0x41#8 ∨ row.op = 0x42#8) ∧ w.getLsbD 25 = true
      (illegal → fails w .illegalCommand 8) ∧ (¬ illegal → unsupported → fails w .unsupportedAlgorithm 3) ∧
      (¬ illegal → ¬ unsupported → ∃ i, decode w = .ok i ∧ encode i = w))

/-! ### The engine step and completion -/

/-- 60_exceptions.md R233: the engine step decodes LCMD and runs it; it is enabled exactly when PENDING = 1. -/
def Obligations.EngineStep : Prop :=
  ∀ s : State,
    (s.pending = true →
      (∀ i, decode s.lcmd = .ok i → engineStep s = exec i s) ∧
      (∀ e, decode s.lcmd = .error e → engineStep s = .next (complete (some e) s))) ∧
    (s.pending = false → engineStep s = .next s)

/-- A step in which the engine moves runs the decoded command on the state whose turn has been taken, and one in which
the host moves makes its oldest access; which agent moves is the schedule of log entry 4. -/
def Obligations.StepRunsTheDecodedCommand : Prop :=
  (∀ s : State, s.engineNext → s.pending = true →
    (∀ i, decode s.lcmd = .ok i → step s = exec i s.turnTaken) ∧
    (∀ e, decode s.lcmd = .error e → step s = .next (complete (some e) s.turnTaken))) ∧
  (∀ s : State, s.hostNext →
    (∀ a rest, s.host = a :: rest → step s = hostAccess a { s.turnTaken with host := rest }) ∧
    (s.host = [] → step s = .next s.turnTaken))

/-- 60_exceptions.md R229, R230: every command ends with exactly one completion, with success or with its first error,
and one that completes with an error has changed nothing but the completion state. -/
def Obligations.Completion : Prop :=
  let completed (t : State) : Prop :=
    t.status.busy = false ∧ t.pending = false ∧ t.status.done = true ∧
    ((t.status.err = false ∧ t.errcode = 0) ∨
     (t.status.err = true ∧ 1 ≤ t.errcode.toNat ∧ t.errcode.toNat ≤ 14 ∧ t.errcode ≠ 4))
  (∀ (i : Instr) (s t : State), exec i s = .next t → completed t) ∧
  (∀ s t : State, s.pending = true → engineStep s = .next t → completed t) ∧
  ∀ (i : Instr) (s t : State), exec i s = .next t → t.status.err = true →
    t = { s with
      status := { s.status with busy := false, done := true, err := true }
      pending := false, errcode := t.errcode }

/-- 60_exceptions.md R226, R227: the code an error leaves in ERRCODE, and the errors each command can complete with.
INVALID_KEY_SPEC (4) is raised by no command. MOD's CAPACITY, for a negative modulus, follows 40_bigint.md R113 and is no
entry of R227 (log entry 15). -/
def Obligations.ErrorsOfEachCommand : Prop :=
  (∀ (s : State) (e : ErrKind),
    complete (some e) s = { s with
      status := { s.status with busy := false, done := true, err := true }, pending := false
      errcode := match e with
        | .divisionByZero => 1 | .arithmetic => 2 | .unsupportedAlgorithm => 3 | .invalidKeySpec => 4
        | .dataTooLong => 5 | .invalidPadding => 6 | .invalidCiphertextLength => 7 | .illegalCommand => 8
        | .range => 9 | .capacity => 10 | .invalidKeyLength => 11 | .noKey => 12 | .noIv => 13 | .psZero => 14 } ∧
    (complete none s).errcode = 0) ∧
  (∀ (i : Instr) (s t : State), i.wellFormed = true → exec i s = .next t → t.status.err = true →
    ∃ e ∈ i.errors, t.errcode = ErrKind.code e) ∧
  (∀ (rd ra rb : RegIdx) (s t : State), (∀ r, (s.getB r).natAbs < 2 ^ 4096) → exec (.mod rd ra rb) s = .next t →
    t.errcode = 10 → s.getB rb < 0)

/-- 70_reset_and_hazards.md R265, 20_memory.md R63: no command blocks or is refused; the only fault is UNINIT_READ,
and where every DMEM byte has a value each command answers a next state. -/
def Obligations.CommandsAlwaysAnswer : Prop :=
  (∀ (i : Instr) (s : State), (∀ a, a < 4096 → (s.dmem.read? a).isSome = true) → ∃ t, exec i s = .next t) ∧
  (∀ (i : Instr) (s : State) r, exec i s ≠ .refused r) ∧
  (∀ (i : Instr) (s : State) f, exec i s = .fault f → f = .uninitRead)

/-! ### Frames -/

/-- The engine leaves the host's side alone: CTRL, CMD, the latched command, CMDOVR, and the environment
(10_state.md R27, R30, R33; 60_exceptions.md R235). LT, EQ and GT are written by CMP only, exactly one being 1 after it,
NOINV by MODINV only and PADBAD by AESCRYPT only (10_state.md R38). -/
def Obligations.EngineFrame : Prop :=
  ∀ (i : Instr) (s t : State), exec i s = .next t →
    (t.ie = s.ie ∧ t.cmdreg = s.cmdreg ∧ t.lcmd = s.lcmd ∧ t.larg = s.larg ∧ t.arg = s.arg ∧
      t.status.cmdovr = s.status.cmdovr ∧ t.rst = s.rst ∧ t.host = s.host ∧ t.sched = s.sched ∧ t.rdata = s.rdata) ∧
    ((∀ ra rb, i ≠ .cmp ra rb) → t.status.lt = s.status.lt ∧ t.status.eq = s.status.eq ∧ t.status.gt = s.status.gt) ∧
    (∀ ra rb, i = .cmp ra rb →
      t.status.lt.toNat + t.status.eq.toNat + t.status.gt.toNat = 1) ∧
    ((∀ rd ra rb, i ≠ .modinv rd ra rb) → t.status.noinv = s.status.noinv) ∧
    ((∀ dec cbc pad strict, i ≠ .aescrypt dec cbc pad strict) → t.status.padbad = s.status.padbad)

/-- 70_reset_and_hazards.md R262, 10_state.md R38: no command reads ARG0–ARG3, whose latched copies it uses, nor a flag. Two
states that differ only in ARG0–ARG3, LT, EQ, GT, NOINV and PADBAD go to states that differ only in these. -/
def Obligations.CommandsReadNeitherArgsNorFlags : Prop :=
  ∀ (i : Instr) (s t : State) (a : Args) (lt eq gt noinv padbad : Bool), exec i s = .next t →
    ∃ t', exec i { s with
        arg := a, status := { s.status with lt := lt, eq := eq, gt := gt, noinv := noinv, padbad := padbad } } =
        .next t' ∧ t'.arg = a ∧
      { t' with
        arg := t.arg
        status := { t'.status with lt := false, eq := false, gt := false, noinv := false, padbad := false } } =
        { t with status := { t.status with
          lt := false, eq := false, gt := false, noinv := false, padbad := false } }

/-- 10_state.md R31, R34: RESULT changes only by a successful CMP, BITLEN, STB, STU, RSAENC, RSADEC, AESCRYPT or HFINAL,
and a command changes no BigInt register but its destinations. -/
def Obligations.ResultAndRegisterFrame : Prop :=
  ∀ (i : Instr) (s t : State), exec i s = .next t →
    ((i.writesResult = false ∨ t.status.err = true) → t.result = s.result) ∧
    ∀ r, r ∉ i.destRegs → t.getB r = s.getB r

/-- 10_state.md R36: every value written to a BigInt register is within the capacity; a command whose result is not
completes with CAPACITY and writes nothing. That MOD does so is the model's reading: R121, R226 and R227 list no CAPACITY
for MOD (log entry 15). The other commands' results always are (40_bigint.md R97, R98, R116–R124). -/
def Obligations.CapacityOfRegisters : Prop :=
  (∀ (i : Instr) (s t : State), (∀ r, (s.getB r).natAbs < 2 ^ 4096) → exec i s = .next t →
    ∀ r, (t.getB r).natAbs < 2 ^ 4096) ∧
  (∀ (rd ra rb : RegIdx) (s : State), s.getB rb ≠ 0 →
    2 ^ 4096 ≤ (if (s.getB ra).tmod (s.getB rb) < 0 then (s.getB ra).tmod (s.getB rb) + s.getB rb
      else (s.getB ra).tmod (s.getB rb)).natAbs →
    exec (.mod rd ra rb) s = .next (complete (some .capacity) s)) ∧
  (∀ (rd ra rb : RegIdx) (s : State),
    (2 ^ 4096 ≤ (s.getB ra + s.getB rb).natAbs → exec (.add rd ra rb) s = .next (complete (some .capacity) s)) ∧
    (2 ^ 4096 ≤ (s.getB ra - s.getB rb).natAbs → exec (.sub rd ra rb) s = .next (complete (some .capacity) s)) ∧
    (2 ^ 4096 ≤ (s.getB ra * s.getB rb).natAbs → exec (.mul rd ra rb) s = .next (complete (some .capacity) s))) ∧
  (∀ (rd : RegIdx) (s : State) (bs : List Byte), inDmem s.larg.arg0.toNat bs.length → s.larg.arg1.toNat = bs.length →
    s.holds s.larg.arg0.toNat bs →
    (2 ^ 4096 ≤ (tcDecode bs).natAbs → exec (.ldb rd) s = .next (complete (some .capacity) s)) ∧
    (2 ^ 4096 ≤ os2ip bs → exec (.ldu rd) s = .next (complete (some .capacity) s)))

/-- 20_memory.md R64, R66: a command that stores writes exactly the RESULT bytes at ARG2 and only on success; every
other command leaves DMEM as it is. -/
def Obligations.MemoryFrame : Prop :=
  ∀ (i : Instr) (s t : State), exec i s = .next t →
    ((i.stores = false ∨ t.status.err = true) → ∀ a, t.dmem.read? a = s.dmem.read? a) ∧
    (i.stores = true → t.status.err = false → s.larg.arg2.toNat + t.result.toNat ≤ 4096 ∧
      ∀ a, (a < s.larg.arg2.toNat ∨ s.larg.arg2.toNat + t.result.toNat ≤ a) → t.dmem.read? a = s.dmem.read? a)

/-- 10_state.md R40–R43, 45_hash_commands.md R205: only AESKEY changes the key and KEYVALID, only AESIV the IV and
IVVALID, neither bit is ever cleared, a hash command changes its own context only, and only RSAENC with PSSRC = 0
draws from the RNG. -/
def Obligations.CryptoStateFrame : Prop :=
  ∀ (i : Instr) (s t : State), exec i s = .next t →
    (i ≠ .aeskey → t.aes.keyw = s.aes.keyw ∧ t.aes.nr = s.aes.nr ∧ t.aes.keyValid = s.aes.keyValid) ∧
    (i ≠ .aesiv → t.aes.iv = s.aes.iv ∧ t.aes.ivValid = s.aes.ivValid) ∧
    (s.aes.keyValid = true → t.aes.keyValid = true) ∧ (s.aes.ivValid = true → t.aes.ivValid = true) ∧
    ((∀ alg, i ≠ .hinit alg ∧ i ≠ .hupdate alg ∧ i ≠ .hfinal alg) → t.md5 = s.md5 ∧ t.sha = s.sha) ∧
    (∀ alg : BitVec 2, (i = .hinit alg ∨ i = .hupdate alg ∨ i = .hfinal alg) →
      (alg = 0#2 → t.sha = s.sha) ∧ (alg ≠ 0#2 → t.md5 = s.md5)) ∧
    ((∀ ra rb, i ≠ .rsaenc ra rb false) → t.rng = s.rng)

/-! ### BigInt commands -/

/-- 40_bigint.md R96–R98: NOP, LDI and MOV. -/
def Obligations.NopLdiMov : Prop :=
  decode (commandWord 0x00 0 0 0 0 0) = .ok .nop ∧ (∀ s : State, exec .nop s = .next (complete none s)) ∧
  (∀ (rd : RegIdx) (s : State), decode (commandWord 0x01 rd 0 0 0 0) = .ok (.ldi rd) ∧
    exec (.ldi rd) s = .next (complete none (s.setB rd
      (if s.larg.arg0.toNat < 2 ^ 31 then (s.larg.arg0.toNat : Int) else s.larg.arg0.toNat - 2 ^ 32)))) ∧
  (∀ (rd ra : RegIdx) (s : State), decode (commandWord 0x02 rd ra 0 0 0) = .ok (.mov rd ra) ∧
    exec (.mov rd ra) s = .next (complete none (s.setB rd (s.getB ra)))) ∧
  (∀ (s : State) (r r' : RegIdx) (v : Int), (s.setB r v).getB r' = if r' = r then v else s.getB r')

/-- 40_bigint.md R99, R100: LDB and LDU on `bs`, the ARG1 bytes at ARG0; strings of at most 512 bytes fit. -/
def Obligations.LoadFromBytes : Prop :=
  ∀ (rd : RegIdx) (s : State),
    decode (commandWord 0x03 rd 0 0 0 0) = .ok (.ldb rd) ∧ decode (commandWord 0x04 rd 0 0 0 0) = .ok (.ldu rd) ∧
    (¬ inDmem s.larg.arg0.toNat s.larg.arg1.toNat →
      exec (.ldb rd) s = .next (complete (some .range) s) ∧ exec (.ldu rd) s = .next (complete (some .range) s)) ∧
    ∀ bs : List Byte, inDmem s.larg.arg0.toNat bs.length → s.larg.arg1.toNat = bs.length →
      s.holds s.larg.arg0.toNat bs →
      let n := bs.length
      let u : Int := ∑ i ∈ Finset.range n, ((bs.getD i 0).toNat : Int) * 256 ^ (n - 1 - i)
      let v : Int := if 128 ≤ (bs.getD 0 0).toNat then u - 256 ^ n else u
      exec (.ldb rd) s =
        .next (if v.natAbs < 2 ^ 4096 then complete none (s.setB rd v) else complete (some .capacity) s) ∧
      exec (.ldu rd) s =
        .next (if u.natAbs < 2 ^ 4096 then complete none (s.setB rd u) else complete (some .capacity) s) ∧
      (n ≤ 512 → v.natAbs < 2 ^ 4096 ∧ u.natAbs < 2 ^ 4096)

/-- 40_bigint.md R101: STB stores the shortest big-endian two's-complement string of the register. -/
def Obligations.StoreTwosComplement : Prop :=
  ∀ (ra : RegIdx) (s : State), decode (commandWord 0x05 0 ra 0 0 0) = .ok (.stb ra) ∧
    ∃ n, 1 ≤ n ∧ -(2 : Int) ^ (8 * n - 1) ≤ s.getB ra ∧ s.getB ra < (2 : Int) ^ (8 * n - 1) ∧
      (∀ k, 1 ≤ k → k < n → ¬ (-(2 : Int) ^ (8 * k - 1) ≤ s.getB ra ∧ s.getB ra < (2 : Int) ^ (8 * k - 1))) ∧
      ((s.getB ra).natAbs < 2 ^ 4096 → n ≤ 513) ∧
      (inDmem s.larg.arg2.toNat n →
        ∃ m, exec (.stb ra) s = .next (complete none { s with dmem := m, result := BitVec.ofNat 32 n }) ∧
          Memory.Stores s.dmem m s.larg.arg2.toNat
            ((List.range n).map fun i => BitVec.ofInt 8 (s.getB ra / 256 ^ (n - 1 - i)))) ∧
      (¬ inDmem s.larg.arg2.toNat n → exec (.stb ra) s = .next (complete (some .range) s))

/-- 40_bigint.md R102: STU stores exactly ARG1 bytes, big-endian. -/
def Obligations.StoreUnsigned : Prop :=
  ∀ (ra : RegIdx) (s : State), decode (commandWord 0x06 0 ra 0 0 0) = .ok (.stu ra) ∧
    let n := s.larg.arg1.toNat
    (inDmem s.larg.arg2.toNat n → 0 ≤ s.getB ra → s.getB ra < 256 ^ n →
      ∃ m, exec (.stu ra) s = .next (complete none { s with dmem := m, result := s.larg.arg1 }) ∧
        Memory.Stores s.dmem m s.larg.arg2.toNat
          ((List.range n).map fun i => BitVec.ofInt 8 (s.getB ra / 256 ^ (n - 1 - i)))) ∧
    (¬ inDmem s.larg.arg2.toNat n ∨ s.getB ra < 0 ∨ 256 ^ n ≤ s.getB ra →
      exec (.stu ra) s = .next (complete (some .range) s))

/-- 40_bigint.md R107: what STB stores LDB loads back, for every value. -/
def Obligations.TwosComplementRoundTrip : Prop :=
  ∀ (ra rd : RegIdx) (s : State), (s.getB ra).natAbs < 2 ^ 4096 → inDmem s.larg.arg2.toNat 513 →
    ∃ t, exec (.stb ra) s = .next t ∧ t.status.err = false ∧
      ∀ args : Args, args.arg0 = s.larg.arg2 → args.arg1 = t.result →
        ∃ u, exec (.ldb rd) { t with larg := args } = .next u ∧ u.status.err = false ∧ u.getB rd = s.getB ra

/-- 40_bigint.md R110–R112: ADD, SUB and MUL are exact, or CAPACITY. -/
def Obligations.AddSubMul : Prop :=
  ∀ (rd ra rb : RegIdx) (s : State),
    decode (commandWord 0x10 rd ra rb 0 0) = .ok (.add rd ra rb) ∧
    decode (commandWord 0x11 rd ra rb 0 0) = .ok (.sub rd ra rb) ∧
    decode (commandWord 0x12 rd ra rb 0 0) = .ok (.mul rd ra rb) ∧
    let out (v : Int) : State :=
      if v.natAbs < 2 ^ 4096 then complete none (s.setB rd v) else complete (some .capacity) s
    exec (.add rd ra rb) s = .next (out (s.getB ra + s.getB rb)) ∧
    exec (.sub rd ra rb) s = .next (out (s.getB ra - s.getB rb)) ∧
    exec (.mul rd ra rb) s = .next (out (s.getB ra * s.getB rb))

/-- 40_bigint.md R116, R117, R120: the quotient rounded toward zero and the remainder with the dividend's sign. -/
def Obligations.DivRemDivrem : Prop :=
  ∀ (rd ra rb rc : RegIdx) (s : State),
    decode (commandWord 0x13 rd ra rb 0 0) = .ok (.div rd ra rb) ∧
    decode (commandWord 0x14 rd ra rb 0 0) = .ok (.rem rd ra rb) ∧
    (rd ≠ rc → decode (commandWord 0x15 rd ra rb rc 0) = .ok (.divrem rd ra rb rc)) ∧
    (rd = rc → decode (commandWord 0x15 rd ra rb rc 0) = .error .illegalCommand) ∧
    let q := (s.getB ra).tdiv (s.getB rb)
    let r := (s.getB ra).tmod (s.getB rb)
    (s.getB rb ≠ 0 →
      exec (.div rd ra rb) s = .next (complete none (s.setB rd q)) ∧
      exec (.rem rd ra rb) s = .next (complete none (s.setB rd r)) ∧
      (rd ≠ rc → exec (.divrem rd ra rb rc) s = .next (complete none ((s.setB rd q).setB rc r)))) ∧
    (s.getB rb = 0 →
      exec (.div rd ra rb) s = .next (complete (some .divisionByZero) s) ∧
      exec (.rem rd ra rb) s = .next (complete (some .divisionByZero) s) ∧
      (rd ≠ rc → exec (.divrem rd ra rb rc) s = .next (complete (some .divisionByZero) s)))

/-- 40_bigint.md R121, R106: MOD. For a positive modulus the result is the residue in [0, b). -/
def Obligations.ModOperation : Prop :=
  ∀ (rd ra rb : RegIdx) (s : State), decode (commandWord 0x16 rd ra rb 0 0) = .ok (.mod rd ra rb) ∧
    let a := s.getB ra
    let b := s.getB rb
    let v := if a.tmod b < 0 then a.tmod b + b else a.tmod b
    (b ≠ 0 → v.natAbs < 2 ^ 4096 → exec (.mod rd ra rb) s = .next (complete none (s.setB rd v))) ∧
    (0 < b → b < 2 ^ 4096 → exec (.mod rd ra rb) s = .next (complete none (s.setB rd (a % b)))) ∧
    (b = 0 → exec (.mod rd ra rb) s = .next (complete (some .divisionByZero) s))

/-- 40_bigint.md R122: MODPOW. -/
def Obligations.ModularExponentiation : Prop :=
  ∀ (rd ra rb rc : RegIdx) (s : State), decode (commandWord 0x17 rd ra rb rc 0) = .ok (.modpow rd ra rb rc) ∧
    (0 < s.getB rc → 0 ≤ s.getB rb → exec (.modpow rd ra rb rc) s =
      .next (complete none (s.setB rd (s.getB ra ^ (s.getB rb).toNat % s.getB rc)))) ∧
    (s.getB rc ≤ 0 ∨ s.getB rb < 0 → exec (.modpow rd ra rb rc) s = .next (complete (some .arithmetic) s))

/-- 40_bigint.md R124: MODINV. -/
def Obligations.ModularInverse : Prop :=
  ∀ (rd ra rb : RegIdx) (s : State), decode (commandWord 0x18 rd ra rb 0 0) = .ok (.modinv rd ra rb) ∧
    let a := s.getB ra
    let m := s.getB rb
    (m ≤ 0 → exec (.modinv rd ra rb) s = .next (complete (some .arithmetic) s)) ∧
    (0 < m → Int.gcd (a % m) m ≠ 1 →
      exec (.modinv rd ra rb) s = .next (complete none { s with status := { s.status with noinv := true } })) ∧
    (0 < m → Int.gcd (a % m) m = 1 → ∃ x : Int, 0 ≤ x ∧ x < m ∧ a * x % m = 1 % m ∧
      exec (.modinv rd ra rb) s =
        .next (complete none (State.setB { s with status := { s.status with noinv := false } } rd x))) ∧
    (0 < m → ∀ x y : Int, 0 ≤ x → x < m → a * x % m = 1 % m → 0 ≤ y → y < m → a * y % m = 1 % m → x = y)

/-- 40_bigint.md R126, R127, R108: CMP, and BITLEN, the least n with |B[RA]| < 2^n. -/
def Obligations.CompareAndBitLength : Prop :=
  (∀ (ra rb : RegIdx) (s : State), decode (commandWord 0x19 0 ra rb 0 0) = .ok (.cmp ra rb) ∧
      exec (.cmp ra rb) s = .next (complete none { s with
        status := { s.status with
          lt := decide (s.getB ra < s.getB rb), eq := decide (s.getB ra = s.getB rb)
          gt := decide (s.getB ra > s.getB rb) }
        result := if s.getB ra < s.getB rb then 0xFFFFFFFF else if s.getB ra = s.getB rb then 0 else 1 })) ∧
  (∀ (ra : RegIdx) (s : State), decode (commandWord 0x1A 0 ra 0 0 0) = .ok (.bitlen ra) ∧
      ∃ n : Nat, (s.getB ra).natAbs < 2 ^ n ∧ (∀ k, (s.getB ra).natAbs < 2 ^ k → n ≤ k) ∧
        exec (.bitlen ra) s = .next (complete none { s with result := BitVec.ofNat 32 n }))

/-! ### RSA commands -/

/-- 41_rsa.md R140: RSAENC on the message `msg`, with the padding string from DMEM (PSSRC = 1) or from the RNG
(PSSRC = 0, for some nonzero bytes; the model's counter of draws is log entry 6). k is the key length of R137. -/
def Obligations.RsaEncrypt : Prop :=
  ∀ (ra rb : RegIdx) (s : State) (k : Nat) (msg : List Byte),
    256 ^ (k - 1) ≤ s.getB ra → s.getB ra < 256 ^ k → 0 ≤ s.getB rb →
    s.larg.arg1.toNat = msg.length → msg.length + 11 ≤ k → inDmem s.larg.arg0.toNat msg.length →
    inDmem s.larg.arg2.toNat k → s.holds s.larg.arg0.toNat msg →
    let result (ps : List Byte) (draws : Nat) (pssrc : Bool) : Prop :=
      ∃ (c : List Byte) (m : Memory), c.length = k ∧
        (os2ip c : Int) = (os2ip ([0x00, 0x02] ++ ps ++ [0x00] ++ msg) : Int) ^ (s.getB rb).toNat % s.getB ra ∧
        Memory.Stores s.dmem m s.larg.arg2.toNat c ∧
        exec (.rsaenc ra rb pssrc) s =
          .next (complete none { s with dmem := m, result := BitVec.ofNat 32 k, rng := s.rng + draws })
    (∀ ps : List Byte, ps.length = k - msg.length - 3 → (∀ x ∈ ps, x ≠ 0x00) → inDmem s.larg.arg3.toNat ps.length →
      s.holds s.larg.arg3.toNat ps → result ps 0 true) ∧
    (∃ ps : List Byte, ps.length = k - msg.length - 3 ∧ (∀ x ∈ ps, x ≠ 0x00) ∧ result ps ps.length false)

/-- 41_rsa.md R142, R143: RSADEC on the ciphertext `c`. The block is k bytes of value c^d mod n; its message follows
the first zero byte at or after index 2, which must be at index 10 or later. -/
def Obligations.RsaDecrypt : Prop :=
  ∀ (ra rb : RegIdx) (s : State) (k : Nat) (c em : List Byte),
    0 < k → 256 ^ (k - 1) ≤ s.getB ra → s.getB ra < 256 ^ k → 0 ≤ s.getB rb →
    s.larg.arg1.toNat = c.length → inDmem s.larg.arg0.toNat c.length → inDmem s.larg.arg2.toNat (k - 11) →
    s.holds s.larg.arg0.toNat c → em.length = k → (os2ip em : Int) = (os2ip c : Int) ^ (s.getB rb).toNat % s.getB ra →
    (∀ (ty : Byte) (xs msg : List Byte), em = [0x00, ty] ++ xs ++ [0x00] ++ msg → (ty = 0x01 ∨ ty = 0x02) →
      (∀ x ∈ xs, x ≠ 0x00) → 8 ≤ xs.length →
      ∃ m, Memory.Stores s.dmem m s.larg.arg2.toNat msg ∧ exec (.rsadec ra rb) s =
        .next (complete none { s with dmem := m, result := BitVec.ofNat 32 msg.length })) ∧
    ((¬ ∃ (ty : Byte) (xs msg : List Byte), em = [0x00, ty] ++ xs ++ [0x00] ++ msg ∧ (ty = 0x01 ∨ ty = 0x02) ∧
        (∀ x ∈ xs, x ≠ 0x00) ∧ 8 ≤ xs.length) →
      exec (.rsadec ra rb) s = .next (complete (some .invalidPadding) s))

/-- 41_rsa.md R146: the error RSAENC or RSADEC reports is the first in the order of its pseudocode. -/
def Obligations.RsaErrorPriority : Prop :=
  ∀ (ra rb : RegIdx) (pssrc : Bool) (s : State),
    (s.getB ra ≤ 0 ∨ s.getB rb < 0 →
      exec (.rsaenc ra rb pssrc) s = .next (complete (some .arithmetic) s) ∧
      exec (.rsadec ra rb) s = .next (complete (some .arithmetic) s)) ∧
    ∀ k : Nat, 0 < k → 256 ^ (k - 1) ≤ s.getB ra → s.getB ra < 256 ^ k → 0 ≤ s.getB rb →
      let len := s.larg.arg1.toNat
      (¬ inDmem s.larg.arg0.toNat len ∨ ¬ inDmem s.larg.arg2.toNat k →
        exec (.rsaenc ra rb pssrc) s = .next (complete (some .range) s)) ∧
      (¬ inDmem s.larg.arg0.toNat len ∨ ¬ inDmem s.larg.arg2.toNat (k - 11) →
        exec (.rsadec ra rb) s = .next (complete (some .range) s)) ∧
      (inDmem s.larg.arg0.toNat len → inDmem s.larg.arg2.toNat k →
        (k < len + 11 → exec (.rsaenc ra rb pssrc) s = .next (complete (some .dataTooLong) s)) ∧
        (len + 11 ≤ k →
          (¬ inDmem s.larg.arg3.toNat (k - len - 3) →
            exec (.rsaenc ra rb true) s = .next (complete (some .range) s)) ∧
          (∀ ps : List Byte, ps.length = k - len - 3 → inDmem s.larg.arg3.toNat ps.length →
            s.holds s.larg.arg3.toNat ps → 0x00 ∈ ps →
            exec (.rsaenc ra rb true) s = .next (complete (some .psZero) s))))

/-- 41_rsa.md R145: with a key pair of two distinct primes RSADEC of RSAENC gives the message back, for every draw
of the padding string and for one from DMEM. -/
def Obligations.RsaRoundTrip : Prop :=
  ∀ (ra rb rc : RegIdx) (pssrc : Bool) (s : State) (p q k : Nat) (msg ps : List Byte),
    p.Prime → q.Prime → p ≠ q → s.getB ra = p * q → 0 ≤ s.getB rb → 0 ≤ s.getB rc →
    s.getB rb * s.getB rc % ((p - 1) * (q - 1) : Nat) = 1 →
    256 ^ (k - 1) ≤ s.getB ra → s.getB ra < 256 ^ k →
    s.larg.arg1.toNat = msg.length → msg.length + 11 ≤ k → inDmem s.larg.arg0.toNat msg.length →
    inDmem s.larg.arg2.toNat k → s.holds s.larg.arg0.toNat msg →
    (pssrc = true → ps.length = k - msg.length - 3 ∧ (∀ x ∈ ps, x ≠ 0x00) ∧
      inDmem s.larg.arg3.toNat ps.length ∧ s.holds s.larg.arg3.toNat ps) →
    ∃ t, exec (.rsaenc ra rb pssrc) s = .next t ∧ t.status.err = false ∧
      ∀ args : Args, args.arg0 = s.larg.arg2 → args.arg1 = t.result → inDmem args.arg2.toNat (k - 11) →
        ∃ u, exec (.rsadec ra rc) { t with larg := args } = .next u ∧ u.status.err = false ∧
          u.result.toNat = msg.length ∧ u.holds args.arg2.toNat msg

/-! ### AES commands -/

/-- 42_aes.md R154, R155, R156: multiplication in GF(2^8) by repeated xtime, the S-box as the inverse in it followed by the
affine map, and ISBOX, which undoes it. -/
def Obligations.SboxTables : Prop :=
  (∀ a b : Byte, ∃ p : Nat → Byte, p 0 = a ∧
    (∀ i, p (i + 1) = (p i <<< 1) ^^^ (if (p i).getLsbD 7 then 0x1B else 0x00)) ∧
    gmul a b = (List.range 8).foldl (fun x i => x ^^^ if b.getLsbD i then p i else 0) 0) ∧
  sbox 0 = sboxAffine 0 ∧ (∀ x : Byte, x ≠ 0 → ∃ y : Byte, gmul x y = 1 ∧ sbox x = sboxAffine y) ∧
  ∀ x : Byte, isbox (sbox x) = x

/-- 42_aes.md R157, R158, R159, R176, R177: the round constants and word operations of the key schedule, AESKEY on the
key bytes, and AESIV. -/
def Obligations.AesKeyAndIvLoad : Prop :=
  (∃ rc : Nat → Byte, rc 1 = 0x01 ∧
    (∀ j, 2 ≤ j → j ≤ 10 → rc j = (rc (j - 1) <<< 1) ^^^ (if (rc (j - 1)).getLsbD 7 then 0x1B else 0x00)) ∧
    ∀ j, 1 ≤ j → j ≤ 10 → (rcon j).toNat = (rc j).toNat * 2 ^ 24) ∧
  (∀ a0 a1 a2 a3 : Byte,
    let word (x0 x1 x2 x3 : Byte) : Word := (x0 ++ x1 ++ x2 ++ x3 : BitVec (8 + 8 + 8 + 8))
    rotWord (word a0 a1 a2 a3) = word a1 a2 a3 a0 ∧
    subWord (word a0 a1 a2 a3) = word (sbox a0) (sbox a1) (sbox a2) (sbox a3)) ∧
  (∀ s : State, decode (commandWord 0x30 0 0 0 0 0) = .ok .aeskey ∧
      let len := s.larg.arg1.toNat
      (¬ (len = 16 ∨ len = 24 ∨ len = 32) → exec .aeskey s = .next (complete (some .invalidKeyLength) s)) ∧
      ((len = 16 ∨ len = 24 ∨ len = 32) → ¬ inDmem s.larg.arg0.toNat len →
        exec .aeskey s = .next (complete (some .range) s)) ∧
      (∀ key : List Byte, key.length = len → (len = 16 ∨ len = 24 ∨ len = 32) → inDmem s.larg.arg0.toNat len →
        s.holds s.larg.arg0.toNat key →
        ∃ w : Vector Word 60, IsKeySchedule key (fun i => w.toList.getD i 0) ∧
          (∀ i (_ : i < 60), 4 * (len / 4 + 7) ≤ i → w[i] = 0) ∧
          exec .aeskey s = .next (complete none { s with aes := { s.aes with
            keyw := w, nr := BitVec.ofNat 4 (len / 4 + 6), keyValid := true } }))) ∧
  (∀ s : State, decode (commandWord 0x31 0 0 0 0 0) = .ok .aesiv ∧
      (¬ inDmem s.larg.arg0.toNat 16 → exec .aesiv s = .next (complete (some .range) s)) ∧
      (∀ iv : Vector Byte 16, inDmem s.larg.arg0.toNat 16 → s.holds s.larg.arg0.toNat iv.toList →
        exec .aesiv s = .next (complete none { s with aes := { s.aes with iv := iv, ivValid := true } })))

/-- 42_aes.md R151, R152, R160–R163: the round steps on the sixteen bytes of a block, byte r + 4c being row r of
column c. -/
def Obligations.AesRoundSteps : Prop :=
  ∀ (x : List Byte) (w : List Word) (rnd r c : Nat), x.length = 16 → r < 4 → c < 4 →
    let s := Block.ofBytes x
    let at' (b : Block) : Byte := b.toBytes.getD (r + 4 * c) 0
    let mul (k : Byte) (row : Nat) : Byte := gmul (x.getD (row % 4 + 4 * c) 0) k
    at' s = x.getD (r + 4 * c) 0 ∧
    at' (subBytes s) = sbox (x.getD (r + 4 * c) 0) ∧ at' (invSubBytes s) = isbox (x.getD (r + 4 * c) 0) ∧
    at' (shiftRows s) = x.getD (r + 4 * ((c + r) % 4)) 0 ∧
    (invShiftRows s).toBytes.getD (r + 4 * ((c + r) % 4)) 0 = x.getD (r + 4 * c) 0 ∧
    at' (mixColumns s) = mul 2 r ^^^ mul 3 (r + 1) ^^^ mul 1 (r + 2) ^^^ mul 1 (r + 3) ∧
    at' (invMixColumns s) = mul 0xe r ^^^ mul 0xb (r + 1) ^^^ mul 0xd (r + 2) ^^^ mul 0x9 (r + 3) ∧
    at' (addRoundKey w rnd s) = x.getD (r + 4 * c) 0 ^^^ (w.getD (4 * rnd + c) 0).extractLsb' (24 - 8 * r) 8

/-- 42_aes.md R164, R165: the order of the round steps in E and D, and that D undoes E, and E undoes D, under every key
schedule and round count. -/
def Obligations.AesBlockTransform : Prop :=
  ∀ (w : List Word) (nr : Nat) (x : List Byte),
    encryptBlock w nr x = Block.toBytes (addRoundKey w nr (shiftRows (subBytes
      ((List.range (nr - 1)).foldl (fun s i => addRoundKey w (i + 1) (mixColumns (shiftRows (subBytes s))))
        (addRoundKey w 0 (Block.ofBytes x)))))) ∧
    decryptBlock w nr x = Block.toBytes (addRoundKey w 0 (invSubBytes (invShiftRows
      ((List.range (nr - 1)).reverse.foldl
        (fun s i => invMixColumns (addRoundKey w (i + 1) (invSubBytes (invShiftRows s))))
        (addRoundKey w nr (Block.ofBytes x)))))) ∧
    (x.length = 16 → decryptBlock w nr (encryptBlock w nr x) = x ∧ encryptBlock w nr (decryptBlock w nr x) = x)

/-- 42_aes.md R178, R166, R167, R169: AESCRYPT encrypting `x`, in ECB or CBC mode, with or without padding. -/
def Obligations.AesEncrypt : Prop :=
  ∀ (cbc pad : Bool) (s : State) (x : List Byte),
    s.aes.keyValid = true → (cbc = true → s.aes.ivValid = true) → s.larg.arg1.toNat = x.length →
    inDmem s.larg.arg0.toNat x.length → s.holds s.larg.arg0.toNat x → (pad = false → x.length % 16 = 0) →
    let p := 16 - x.length % 16
    let padded := if pad then x ++ List.replicate p (BitVec.ofNat 8 p) else x
    let e := encryptBlock s.aes.keyw.toList s.aes.nr.toNat
    inDmem s.larg.arg2.toNat padded.length →
    ∃ (y : List Byte) (m : Memory), y.length = padded.length ∧
      (∀ i, i < padded.length / 16 → blockAt y i =
        if cbc = false then e (blockAt padded i)
        else e (List.zipWith (· ^^^ ·) (blockAt padded i) (if i = 0 then s.aes.iv.toList else blockAt y (i - 1)))) ∧
      Memory.Stores s.dmem m s.larg.arg2.toNat y ∧
      exec (.aescrypt false cbc pad false) s = .next (complete none { s with
        dmem := m, status := { s.status with padbad := false }, result := BitVec.ofNat 32 y.length })

/-- 42_aes.md R178, R166, R168, R170: AESCRYPT decrypting `x`, in ECB or CBC mode, with or without unpadding, strict
or permissive. -/
def Obligations.AesDecrypt : Prop :=
  ∀ (cbc : Bool) (s : State) (x : List Byte),
    s.aes.keyValid = true → (cbc = true → s.aes.ivValid = true) → s.larg.arg1.toNat = x.length →
    inDmem s.larg.arg0.toNat x.length → s.holds s.larg.arg0.toNat x → x.length % 16 = 0 →
    inDmem s.larg.arg2.toNat x.length →
    let d := decryptBlock s.aes.keyw.toList s.aes.nr.toNat
    let writes (pad strict padbad : Bool) (y : List Byte) : Prop :=
      ∃ m, Memory.Stores s.dmem m s.larg.arg2.toNat y ∧ exec (.aescrypt true cbc pad strict) s =
        .next (complete none { s with
          dmem := m, status := { s.status with padbad := padbad }, result := BitVec.ofNat 32 y.length })
    ∃ z : List Byte, z.length = x.length ∧
      (∀ i, i < x.length / 16 → blockAt z i =
        if cbc = false then d (blockAt x i)
        else List.zipWith (· ^^^ ·) (d (blockAt x i)) (if i = 0 then s.aes.iv.toList else blockAt x (i - 1))) ∧
      writes false false false z ∧
      (∀ (y : List Byte) (p : Nat), 1 ≤ p → p ≤ 16 → z = y ++ List.replicate p (BitVec.ofNat 8 p) →
        writes true false false y ∧ writes true true false y) ∧
      ((¬ ∃ (y : List Byte) (p : Nat), 1 ≤ p ∧ p ≤ 16 ∧ z = y ++ List.replicate p (BitVec.ofNat 8 p)) →
        writes true false true z ∧
        exec (.aescrypt true cbc true true) s = .next (complete (some .invalidPadding) s))

/-- 42_aes.md R178, R171: AESCRYPT's checks in the order of its pseudocode, for every legal form. -/
def Obligations.AesErrorPriority : Prop :=
  ∀ (dec cbc pad strict : Bool) (s : State), (strict = true → dec = true ∧ pad = true) →
    let len := s.larg.arg1.toNat
    let omax := if dec = false ∧ pad = true then len + 16 - len % 16 else len
    let out := exec (.aescrypt dec cbc pad strict) s
    (s.aes.keyValid = false → out = .next (complete (some .noKey) s)) ∧
    (s.aes.keyValid = true →
      (cbc = true → s.aes.ivValid = false → out = .next (complete (some .noIv) s)) ∧
      ((cbc = true → s.aes.ivValid = true) →
        (¬ inDmem s.larg.arg0.toNat len → out = .next (complete (some .range) s)) ∧
        (inDmem s.larg.arg0.toNat len →
          ((dec = true ∨ pad = false) → len % 16 ≠ 0 → out = .next (complete (some .invalidCiphertextLength) s)) ∧
          ((dec = true ∨ pad = false → len % 16 = 0) → ¬ inDmem s.larg.arg2.toNat omax →
            out = .next (complete (some .range) s)))))

/-- 42_aes.md R179: decrypting with DEC = PAD = 1, in either STRICT mode, what was encrypted with PAD = 1 in the same
mode gives the data back with PADBAD = 0. -/
def Obligations.AesRoundTrip : Prop :=
  ∀ (cbc strict : Bool) (s : State) (x : List Byte),
    s.aes.keyValid = true → (cbc = true → s.aes.ivValid = true) → s.larg.arg1.toNat = x.length →
    inDmem s.larg.arg0.toNat x.length → s.holds s.larg.arg0.toNat x →
    inDmem s.larg.arg2.toNat (x.length + 16 - x.length % 16) →
    ∃ t, exec (.aescrypt false cbc true false) s = .next t ∧ t.status.err = false ∧
      ∀ args : Args, args.arg0 = s.larg.arg2 → args.arg1 = t.result →
        inDmem args.arg2.toNat (x.length + 16 - x.length % 16) →
        ∃ u, exec (.aescrypt true cbc true strict) { t with larg := args } = .next u ∧ u.status.err = false ∧
          u.status.padbad = false ∧ u.result.toNat = x.length ∧ u.holds args.arg2.toNat x

/-! ### Hash commands -/

/-- 43_md5.md R180–R183, R185: the words of the ROM T, as R184's normative table has them, and the sixty-four steps of the
MD5 compression on the working words a, b', c, d. -/
def Obligations.Md5Compression : Prop :=
  (md5T =
   ([0xd76aa478, 0xe8c7b756, 0x242070db, 0xc1bdceee] ++
    [0xf57c0faf, 0x4787c62a, 0xa8304613, 0xfd469501] ++
    [0x698098d8, 0x8b44f7af, 0xffff5bb1, 0x895cd7be] ++
    [0x6b901122, 0xfd987193, 0xa679438e, 0x49b40821] ++
    [0xf61e2562, 0xc040b340, 0x265e5a51, 0xe9b6c7aa] ++
    [0xd62f105d, 0x02441453, 0xd8a1e681, 0xe7d3fbc8] ++
    [0x21e1cde6, 0xc33707d6, 0xf4d50d87, 0x455a14ed] ++
    [0xa9e3e905, 0xfcefa3f8, 0x676f02d9, 0x8d2a4c8a] ++
    [0xfffa3942, 0x8771f681, 0x6d9d6122, 0xfde5380c] ++
    [0xa4beea44, 0x4bdecfa9, 0xf6bb4b60, 0xbebfbc70] ++
    [0x289b7ec6, 0xeaa127fa, 0xd4ef3085, 0x04881d05] ++
    [0xd9d4d039, 0xe6db99e5, 0x1fa27cf8, 0xc4ac5665] ++
    [0xf4292244, 0x432aff97, 0xab9423a7, 0xfc93a039] ++
    [0x655b59c3, 0x8f0ccc92, 0xffeff47d, 0x85845dd1] ++
    [0x6fa87e4f, 0xfe2ce6e0, 0xa3014314, 0x4e0811a1] ++
    [0xf7537e82, 0xbd3af235, 0x2ad7d2bb, 0xeb86d391])) ∧
  ∀ (h : Vector Word 4) (x : List Byte), ∃ a b c d : Nat → Word,
    let byte (j : Nat) : Nat := (x.getD j 0).toNat
    let X (j : Nat) : Word := BitVec.ofNat 32
      (byte (4 * j) + byte (4 * j + 1) * 2 ^ 8 + byte (4 * j + 2) * 2 ^ 16 + byte (4 * j + 3) * 2 ^ 24)
    (a 0 = h[0] ∧ b 0 = h[1] ∧ c 0 = h[2] ∧ d 0 = h[3]) ∧
    (∀ i, i < 64 →
      let f := if i < 16 then (b i &&& c i) ||| (~~~b i &&& d i)
        else if i < 32 then (b i &&& d i) ||| (c i &&& ~~~d i)
        else if i < 48 then b i ^^^ c i ^^^ d i
        else c i ^^^ (b i ||| ~~~d i)
      let g := if i < 16 then i else if i < 32 then (5 * i + 1) % 16 else if i < 48 then (3 * i + 5) % 16 else 7 * i % 16
      let S := (if i < 16 then [7, 12, 17, 22] else if i < 32 then [5, 9, 14, 20]
        else if i < 48 then [4, 11, 16, 23] else [6, 10, 15, 21]).getD (i % 4) 0
      a (i + 1) = d i ∧ b (i + 1) = b i + (a i + f + md5T.getD i 0 + X g).rotateLeft S ∧
        c (i + 1) = b i ∧ d (i + 1) = c i) ∧
    md5Compress h x = #v[h[0] + a 64, h[1] + b 64, h[2] + c 64, h[3] + d 64]

/-- 44_sha256.md R192–R196: the words of the ROM K, each the first 32 bits of the fractional part of the cube root of its
prime, the message schedule, and the sixty-four steps of the SHA-256 compression. -/
def Obligations.Sha256Compression : Prop :=
  (sha256K =
   ([0x428a2f98, 0x71374491, 0xb5c0fbcf, 0xe9b5dba5] ++
    [0x3956c25b, 0x59f111f1, 0x923f82a4, 0xab1c5ed5] ++
    [0xd807aa98, 0x12835b01, 0x243185be, 0x550c7dc3] ++
    [0x72be5d74, 0x80deb1fe, 0x9bdc06a7, 0xc19bf174] ++
    [0xe49b69c1, 0xefbe4786, 0x0fc19dc6, 0x240ca1cc] ++
    [0x2de92c6f, 0x4a7484aa, 0x5cb0a9dc, 0x76f988da] ++
    [0x983e5152, 0xa831c66d, 0xb00327c8, 0xbf597fc7] ++
    [0xc6e00bf3, 0xd5a79147, 0x06ca6351, 0x14292967] ++
    [0x27b70a85, 0x2e1b2138, 0x4d2c6dfc, 0x53380d13] ++
    [0x650a7354, 0x766a0abb, 0x81c2c92e, 0x92722c85] ++
    [0xa2bfe8a1, 0xa81a664b, 0xc24b8b70, 0xc76c51a3] ++
    [0xd192e819, 0xd6990624, 0xf40e3585, 0x106aa070] ++
    [0x19a4c116, 0x1e376c08, 0x2748774c, 0x34b0bcb5] ++
    [0x391c0cb3, 0x4ed8aa4a, 0x5b9cca4f, 0x682e6ff3] ++
    [0x748f82ee, 0x78a5636f, 0x84c87814, 0x8cc70208] ++
    [0x90befffa, 0xa4506ceb, 0xbef9a3f7, 0xc67178f2])) ∧
  (∀ p : Nat, p.Prime → p ≤ 311 → ∃ x : Nat, x ^ 3 ≤ p * 2 ^ 96 ∧ p * 2 ^ 96 < (x + 1) ^ 3 ∧
    (sha256K.getD (Nat.count Nat.Prime p) 0).toNat = x % 2 ^ 32) ∧
  ∀ (H : Vector Word 8) (x : List Byte), ∃ W a b c d e f g h : Nat → Word,
    let byte (j : Nat) : Nat := (x.getD j 0).toNat
    (∀ t, t < 16 → W t = BitVec.ofNat 32
      (byte (4 * t) * 2 ^ 24 + byte (4 * t + 1) * 2 ^ 16 + byte (4 * t + 2) * 2 ^ 8 + byte (4 * t + 3))) ∧
    (∀ t, 16 ≤ t → t < 64 → W t =
      ((W (t - 2)).rotateRight 17 ^^^ (W (t - 2)).rotateRight 19 ^^^ (W (t - 2) >>> 10)) + W (t - 7) +
      ((W (t - 15)).rotateRight 7 ^^^ (W (t - 15)).rotateRight 18 ^^^ (W (t - 15) >>> 3)) + W (t - 16)) ∧
    (a 0 = H[0] ∧ b 0 = H[1] ∧ c 0 = H[2] ∧ d 0 = H[3] ∧ e 0 = H[4] ∧ f 0 = H[5] ∧ g 0 = H[6] ∧ h 0 = H[7]) ∧
    (∀ t, t < 64 →
      let T1 := h t + ((e t).rotateRight 6 ^^^ (e t).rotateRight 11 ^^^ (e t).rotateRight 25) +
        ((e t &&& f t) ^^^ (~~~e t &&& g t)) + sha256K.getD t 0 + W t
      let T2 := ((a t).rotateRight 2 ^^^ (a t).rotateRight 13 ^^^ (a t).rotateRight 22) +
        ((a t &&& b t) ^^^ (a t &&& c t) ^^^ (b t &&& c t))
      a (t + 1) = T1 + T2 ∧ b (t + 1) = a t ∧ c (t + 1) = b t ∧ d (t + 1) = c t ∧
        e (t + 1) = d t + T1 ∧ f (t + 1) = e t ∧ g (t + 1) = f t ∧ h (t + 1) = g t) ∧
    sha256Compress H x = #v[H[0] + a 64, H[1] + b 64, H[2] + c 64, H[3] + d 64, H[4] + e 64, H[5] + f 64,
      H[6] + g 64, H[7] + h 64]

/-- 45_hash_commands.md R214: HINIT. -/
def Obligations.HashInit : Prop :=
  (∀ s : State,
    exec (.hinit 0) s = .next (complete none { s with md5 := {
      h := #v[0x67452301, 0xefcdab89, 0x98badcfe, 0x10325476], buf := [], cnt := 0 } }) ∧
    exec (.hinit 1) s = .next (complete none { s with sha := {
      h := #v[0x6a09e667, 0xbb67ae85, 0x3c6ef372, 0xa54ff53a, 0x510e527f, 0x9b05688c, 0x1f83d9ab, 0x5be0cd19]
      buf := [], cnt := 0 } })) ∧
  (∀ alg : BitVec 2, alg.toNat < 2 → decode (commandWord 0x40 0 0 0 0 alg.toNat) = .ok (.hinit alg)) ∧
  (∀ alg : BitVec 2, 2 ≤ alg.toNat → decode (commandWord 0x40 0 0 0 0 alg.toNat) = .error .unsupportedAlgorithm)

/-- 45_hash_commands.md R215, R212: HUPDATE on the string `bs`: the buffered bytes and `bs` are compressed block by
block, the rest stays buffered; and splitting a string over two HUPDATEs gives the same context as one of the whole. -/
def Obligations.HashUpdate : Prop :=
  (∀ s : State, ¬ inDmem s.larg.arg0.toNat s.larg.arg1.toNat →
    exec (.hupdate 0) s = .next (complete (some .range) s) ∧ exec (.hupdate 1) s = .next (complete (some .range) s)) ∧
  (∀ alg : BitVec 2, alg.toNat < 2 → decode (commandWord 0x41 0 0 0 0 alg.toNat) = .ok (.hupdate alg)) ∧
  (∀ alg : BitVec 2, 2 ≤ alg.toNat → decode (commandWord 0x41 0 0 0 0 alg.toNat) = .error .unsupportedAlgorithm) ∧
  (∀ (s : State) (bs : List Byte), s.Inv → s.larg.arg1.toNat = bs.length → inDmem s.larg.arg0.toNat bs.length →
    s.holds s.larg.arg0.toNat bs →
    exec (.hupdate 0) s = .next (complete none { s with md5 := {
      h := hashBlocks md5Compress ((s.md5.buf ++ bs).length / 64) s.md5.h (s.md5.buf ++ bs)
      buf := (s.md5.buf ++ bs).drop (64 * ((s.md5.buf ++ bs).length / 64))
      cnt := s.md5.cnt + BitVec.ofNat 64 bs.length } }) ∧
    exec (.hupdate 1) s = .next (complete none { s with sha := {
      h := hashBlocks sha256Compress ((s.sha.buf ++ bs).length / 64) s.sha.h (s.sha.buf ++ bs)
      buf := (s.sha.buf ++ bs).drop (64 * ((s.sha.buf ++ bs).length / 64))
      cnt := s.sha.cnt + BitVec.ofNat 64 bs.length } })) ∧
  (let source (s : State) (bs : List Byte) : Prop := s.larg.arg1.toNat = bs.length ∧
      inDmem s.larg.arg0.toNat bs.length ∧ s.holds s.larg.arg0.toNat bs
    ∀ (alg : BitVec 2) (s t u v w x : State) (bs cs : List Byte), alg.toNat < 2 →
      source s (bs ++ cs) → exec (.hupdate alg) s = .next t →
      State.sameCtx alg s u → source u bs → exec (.hupdate alg) u = .next v →
      State.sameCtx alg v w → source w cs → exec (.hupdate alg) w = .next x → State.sameCtx alg t x)

/-- 45_hash_commands.md R213, R211, 43_md5.md R189, 44_sha256.md R200: HFINAL pads, stores the digest, its words little-
endian for MD5 and big-endian for SHA-256, and reinitialises the context. -/
def Obligations.HashFinal : Prop :=
  (∀ (h : Vector Word 4) (i j : Nat) (_ : j < 4), (md5Output h).length = 16 ∧
    (i < 4 → (md5Output h).getD (4 * j + i) 0 = h[j].extractLsb' (8 * i) 8)) ∧
  (∀ (h : Vector Word 8) (i j : Nat) (_ : j < 8), (sha256Output h).length = 32 ∧
    (i < 4 → (sha256Output h).getD (4 * j + i) 0 = h[j].extractLsb' (24 - 8 * i) 8)) ∧
  (∀ s : State, (¬ inDmem s.larg.arg2.toNat 16 → exec (.hfinal 0) s = .next (complete (some .range) s)) ∧
    (¬ inDmem s.larg.arg2.toNat 32 → exec (.hfinal 1) s = .next (complete (some .range) s))) ∧
  (∀ alg : BitVec 2, alg.toNat < 2 → decode (commandWord 0x42 0 0 0 0 alg.toNat) = .ok (.hfinal alg)) ∧
  (∀ alg : BitVec 2, 2 ≤ alg.toNat → decode (commandWord 0x42 0 0 0 0 alg.toNat) = .error .unsupportedAlgorithm) ∧
  (∀ s : State, s.Inv → inDmem s.larg.arg2.toNat 16 →
    let all := s.md5.buf ++ [0x80] ++ List.replicate ((119 - s.md5.buf.length) % 64) 0x00 ++
      leBytes (8 * s.md5.cnt.toNat % 2 ^ 64) 8
    ∃ m, Memory.Stores s.dmem m s.larg.arg2.toNat
        (md5Output (hashBlocks md5Compress (all.length / 64) s.md5.h all)) ∧
      exec (.hfinal 0) s = .next (complete none { s with
        dmem := m, result := 16
        md5 := { h := #v[0x67452301, 0xefcdab89, 0x98badcfe, 0x10325476], buf := [], cnt := 0 } })) ∧
  (∀ s : State, s.Inv → inDmem s.larg.arg2.toNat 32 →
    let all := s.sha.buf ++ [0x80] ++ List.replicate ((119 - s.sha.buf.length) % 64) 0x00 ++
      i2osp (8 * s.sha.cnt.toNat % 2 ^ 64) 8
    ∃ m, Memory.Stores s.dmem m s.larg.arg2.toNat
        (sha256Output (hashBlocks sha256Compress (all.length / 64) s.sha.h all)) ∧
      exec (.hfinal 1) s = .next (complete none { s with
        dmem := m, result := 32
        sha := {
          h := #v[0x6a09e667, 0xbb67ae85, 0x3c6ef372, 0xa54ff53a, 0x510e527f, 0x9b05688c, 0x1f83d9ab, 0x5be0cd19]
          buf := [], cnt := 0 } }))

/-- 45_hash_commands.md R216: HFINAL after any HUPDATEs writes the hash of the whole message. -/
def Obligations.DigestOfWholeMessage : Prop :=
  ∀ (alg : BitVec 2) (s u : State) (msg : List Byte), alg.toNat < 2 → Absorbed alg s msg → State.sameCtx alg s u →
    inDmem u.larg.arg2.toNat (if alg = 0#2 then 16 else 32) →
    ∃ t, exec (.hfinal alg) u = .next t ∧ t.status.err = false ∧
      Memory.Stores u.dmem t.dmem u.larg.arg2.toNat (wholeHash alg msg)
end

