-- ==== Sys2Proof/Laws/Bytes.lean ====
section
/-! SUPPORT. Byte strings and integers: OS2IP, I2OSP, little-endian strings, bit lengths and two's complement
(00_scope.md R10, R11; 40_bigint.md R107). -/

namespace Sys2Proof.Machine

/-! ### Little-endian strings -/

@[simp] theorem leBytes_length (x n : Nat) : (leBytes x n).length = n := by
  induction n generalizing x with
  | zero => rfl
  | succ n ih => simp [leBytes, ih]

theorem leToNat_leBytes (x n : Nat) : leToNat (leBytes x n) = x % 256 ^ n := by
  induction n generalizing x with
  | zero => simp [leBytes, leToNat, Nat.mod_one]
  | succ n ih =>
    have h := Nat.mod_mul (x := x) (a := 256) (b := 256 ^ n)
    rw [leBytes, leToNat, ih, BitVec.toNat_ofNat, pow_succ' 256 n, h]

theorem leToNat_lt (bs : List Byte) : leToNat bs < 256 ^ bs.length := by
  induction bs with
  | nil => simp [leToNat]
  | cons x xs ih =>
    have hx := x.isLt
    simp only [leToNat, List.length_cons, pow_succ]
    omega

theorem leBytes_leToNat (bs : List Byte) : leBytes (leToNat bs) bs.length = bs := by
  induction bs with
  | nil => rfl
  | cons x xs ih =>
    have hx := x.isLt
    simp only [leToNat, List.length_cons, leBytes]
    rw [Nat.add_mul_div_left _ _ (by norm_num), Nat.div_eq_of_lt hx, Nat.zero_add, ih]
    congr 1
    apply BitVec.eq_of_toNat_eq
    simp only [BitVec.toNat_ofNat]
    omega

theorem leToNat_append (xs ys : List Byte) : leToNat (xs ++ ys) = leToNat xs + 256 ^ xs.length * leToNat ys := by
  induction xs with
  | nil => simp [leToNat]
  | cons x xs ih =>
    simp only [List.cons_append, leToNat, ih, List.length_cons, pow_succ]
    ring

/-- Byte i of a little-endian string of x is (x div 256^i) mod 256. -/
theorem leBytes_getElem? (x n i : Nat) :
    (leBytes x n)[i]? = if i < n then some (BitVec.ofNat 8 (x / 256 ^ i)) else none := by
  induction n generalizing x i with
  | zero => simp [leBytes]
  | succ n ih =>
    cases i with
    | zero => simp [leBytes]
    | succ i => simp [leBytes, ih, Nat.div_div_eq_div_mul, pow_succ']

/-! ### Big-endian strings -/

@[simp] theorem i2osp_length (x n : Nat) : (i2osp x n).length = n := by simp [i2osp]

theorem foldl_os2ip (bs : List Byte) (acc : Nat) :
    bs.foldl (fun acc x => acc * 256 + x.toNat) acc = acc * 256 ^ bs.length + os2ip bs := by
  induction bs generalizing acc with
  | nil => simp [os2ip]
  | cons x xs ih =>
    simp only [List.foldl_cons, os2ip, List.length_cons]
    rw [ih, ih, pow_succ]
    ring

/-- OS2IP of a string, first byte most significant. -/
theorem os2ip_cons (x : Byte) (xs : List Byte) : os2ip (x :: xs) = x.toNat * 256 ^ xs.length + os2ip xs := by
  rw [os2ip, List.foldl_cons, foldl_os2ip, Nat.zero_mul, Nat.zero_add]

@[simp] theorem os2ip_nil : os2ip [] = 0 := rfl

/-- OS2IP of a concatenation. -/
theorem os2ip_append (xs ys : List Byte) : os2ip (xs ++ ys) = os2ip xs * 256 ^ ys.length + os2ip ys := by
  rw [os2ip, List.foldl_append, foldl_os2ip]
  rfl

theorem os2ip_lt (bs : List Byte) : os2ip bs < 256 ^ bs.length := by
  induction bs with
  | nil => simp
  | cons x xs ih =>
    have hx := x.isLt
    rw [os2ip_cons, List.length_cons, pow_succ]
    nlinarith [Nat.pos_of_ne_zero (n := 256 ^ xs.length) (by positivity)]

theorem os2ip_reverse (bs : List Byte) : os2ip bs.reverse = leToNat bs := by
  induction bs with
  | nil => rfl
  | cons x xs ih =>
    rw [List.reverse_cons, os2ip_append, ih, leToNat, os2ip_cons]
    simp
    ring

/-- OS2IP of I2OSP(x, n). -/
theorem os2ip_i2osp (x n : Nat) : os2ip (i2osp x n) = x % 256 ^ n := by
  rw [i2osp, os2ip_reverse, leToNat_leBytes]

/-- I2OSP of OS2IP. -/
theorem i2osp_os2ip (bs : List Byte) : i2osp (os2ip bs) bs.length = bs := by
  have h := leBytes_leToNat bs.reverse
  rw [← os2ip_reverse, List.reverse_reverse, List.length_reverse] at h
  rw [i2osp, h, List.reverse_reverse]

/-- A string is determined by its length and OS2IP. -/
theorem os2ip_injective {xs ys : List Byte} (hl : xs.length = ys.length) (h : os2ip xs = os2ip ys) : xs = ys := by
  rw [← i2osp_os2ip xs, ← i2osp_os2ip ys, hl, h]

/-! ### Bit length -/

/-- bitlen(x) is the least n with x < 2^n. -/
theorem bitlen_le_iff (x n : Nat) : bitlen x ≤ n ↔ x < 2 ^ n := by
  unfold bitlen
  split
  · next h => subst h; simp
  · next h =>
    rw [Nat.succ_le_iff, Nat.log2_lt h]

theorem lt_two_pow_bitlen (x : Nat) : x < 2 ^ bitlen x := (bitlen_le_iff x _).mp le_rfl

theorem two_pow_le_of_lt_bitlen {x n : Nat} (h : n < bitlen x) : 2 ^ n ≤ x := by
  by_contra hn
  exact absurd ((bitlen_le_iff x n).mpr (by omega)) (by omega)

theorem bitlen_mono {x y : Nat} (h : x ≤ y) : bitlen x ≤ bitlen y :=
  (bitlen_le_iff _ _).mpr (lt_of_le_of_lt h (lt_two_pow_bitlen y))

/-! ### Two's complement -/

@[simp] theorem tcEncode_length (v : Int) : (tcEncode v).length = tcLength v := by simp [tcEncode]

/-- `tcLength v` bytes hold `v` in two's complement, and no fewer do (40_bigint.md R107). -/
theorem tcLength_le_iff (v : Int) (n : Nat) :
    tcLength v ≤ n + 1 ↔ -(2 : Int) ^ (8 * n + 7) ≤ v ∧ v < (2 : Int) ^ (8 * n + 7) := by
  have key (x : Nat) : bitlen x / 8 + 1 ≤ n + 1 ↔ x < 2 ^ (8 * n + 7) := by
    rw [← bitlen_le_iff]; omega
  have cast (x : Nat) : x < 2 ^ (8 * n + 7) ↔ (x : Int) < (2 : Int) ^ (8 * n + 7) := by
    rw [← Nat.cast_lt (α := Int)]; push_cast; rfl
  have hpos : (0 : Int) < 2 ^ (8 * n + 7) := by positivity
  unfold tcLength
  split
  · next h =>
    rw [key, cast, Int.toNat_of_nonneg h]
    constructor
    · intro hv; exact ⟨by omega, hv⟩
    · rintro ⟨-, hv⟩; exact hv
  · next h =>
    rw [key, cast, Int.toNat_of_nonneg (by omega)]
    constructor
    · intro hv; constructor <;> omega
    · rintro ⟨hv, -⟩; omega

theorem tcLength_pos (v : Int) : 0 < tcLength v := by unfold tcLength; omega

/-- tc_decode in terms of OS2IP (40_bigint.md R107). -/
theorem tcDecode_eq (bs : List Byte) :
    tcDecode bs = if 2 * os2ip bs < 256 ^ bs.length then (os2ip bs : Int) else os2ip bs - 256 ^ bs.length := by
  cases bs with
  | nil => simp [tcDecode]
  | cons x xs =>
    have h1 := os2ip_lt xs
    have hx := x.isLt
    have hc : 2 * os2ip (x :: xs) < 256 ^ (x :: xs).length ↔ ¬ 0x80 ≤ x.toNat := by
      rw [os2ip_cons, List.length_cons, pow_succ]
      constructor
      · intro h hge
        nlinarith [Nat.mul_le_mul_right (256 ^ xs.length) hge]
      · intro h
        have : x.toNat * 256 ^ xs.length ≤ 127 * 256 ^ xs.length := Nat.mul_le_mul_right _ (by omega)
        omega
    simp only [tcDecode]
    by_cases h : 0x80 ≤ x.toNat
    · rw [if_pos h, if_neg (by rw [hc]; simpa using h)]
    · rw [if_neg h, if_pos (hc.mpr h)]

/-- A string of n ≥ 1 bytes decodes into [−2^(8n−1), 2^(8n−1)). -/
theorem tcDecode_bounds (bs : List Byte) (n : Nat) (h : bs.length = n + 1) :
    -(2 : Int) ^ (8 * n + 7) ≤ tcDecode bs ∧ tcDecode bs < (2 : Int) ^ (8 * n + 7) := by
  have hlt := os2ip_lt bs
  rw [tcDecode_eq, h]
  have h256 : (256 : Nat) ^ (n + 1) = 2 * 2 ^ (8 * n + 7) := by
    rw [show (256 : Nat) = 2 ^ 8 by norm_num, ← pow_mul, ← pow_succ']; ring_nf
  have h256' : (256 : Int) ^ (n + 1) = 2 * 2 ^ (8 * n + 7) := by exact_mod_cast h256
  have hc : ((2 ^ (8 * n + 7) : Nat) : Int) = 2 ^ (8 * n + 7) := by push_cast; rfl
  rw [h] at hlt
  rw [h256] at hlt
  split
  · next hs => rw [h256] at hs; omega
  · next hs => rw [h256] at hs; rw [h256']; omega

/-- Two's complement round trip (40_bigint.md R107). -/
theorem tcDecode_tcEncode (v : Int) : tcDecode (tcEncode v) = v := by
  obtain ⟨n, hn⟩ : ∃ n, tcLength v = n + 1 := ⟨tcLength v - 1, by have := tcLength_pos v; omega⟩
  obtain ⟨hlo, hhi⟩ := (tcLength_le_iff v n).mp (by omega)
  have h256' : (256 : Int) ^ (n + 1) = 2 * 2 ^ (8 * n + 7) := by
    rw [show (256 : Int) = 2 ^ 8 by norm_num, ← pow_mul, ← pow_succ']; ring_nf
  have hpos : (0 : Int) < 2 ^ (8 * n + 7) := by positivity
  rw [tcDecode_eq, tcEncode_length, tcEncode, os2ip_i2osp, hn]
  have hm0 : 0 ≤ v % 256 ^ (n + 1) := Int.emod_nonneg _ (by positivity)
  have hm1 : v % 256 ^ (n + 1) < 256 ^ (n + 1) := Int.emod_lt_of_pos _ (by positivity)
  have hmod : ((v % 256 ^ (n + 1)).toNat % 256 ^ (n + 1) : Nat) = (v % 256 ^ (n + 1)).toNat := by
    apply Nat.mod_eq_of_lt
    zify
    rw [Int.toNat_of_nonneg hm0]
    exact_mod_cast hm1
  rw [hmod]
  have hcast : (((v % 256 ^ (n + 1)).toNat : Nat) : Int) = v % 256 ^ (n + 1) := Int.toNat_of_nonneg hm0
  have hif : 2 * (v % 256 ^ (n + 1)).toNat < 256 ^ (n + 1) ↔ 2 * (v % 256 ^ (n + 1)) < 256 ^ (n + 1) := by
    zify; rw [hcast]
  by_cases hv : 0 ≤ v
  · have he : v % 256 ^ (n + 1) = v := Int.emod_eq_of_lt hv (by omega)
    rw [if_pos (by rw [hif, he]; omega), hcast, he]
  · have he : v % 256 ^ (n + 1) = v + 256 ^ (n + 1) := by
      rw [← Int.add_emod_right]
      exact Int.emod_eq_of_lt (by omega) (by omega)
    rw [if_neg (by rw [hif, he]; omega), hcast, he]
    ring

/-- The immediate is in [−2^31, 2^31) (30_encoding.md R87). -/
theorem sext32_bounds (w : Word) : -2 ^ 31 ≤ sext32 w ∧ sext32 w < 2 ^ 31 := by
  have h1 := BitVec.le_toInt w
  have h2 := BitVec.toInt_lt (x := w)
  exact ⟨by simpa [sext32] using h1, by simpa [sext32] using h2⟩

end Sys2Proof.Machine
end

