-- ==== Sys2Proof/Laws/Aes.lean ====
section
/-! SUPPORT. The AES round steps and their inverses, the lengths of the modes' outputs, PKCS#7
(42_aes.md R151, R160–R171). -/

namespace Sys2Proof.Machine

/-! ### Bytes and blocks -/

@[simp] theorem Block.toBytes_length (s : Block) : s.toBytes.length = 16 := rfl

@[simp] theorem Block.ofBytes_toBytes (s : Block) : Block.ofBytes s.toBytes = s := rfl

/-- Sixteen bytes go to the state and back unchanged (42_aes.md R151). -/
theorem Block.toBytes_ofBytes {bs : List Byte} (h : bs.length = 16) : (Block.ofBytes bs).toBytes = bs := by
  match bs, h with
  | [_, _, _, _, _, _, _, _, _, _, _, _, _, _, _, _], _ => rfl

@[simp] theorem encryptBlock_length (w : List Word) (nr : Nat) (bs : List Byte) :
    (encryptBlock w nr bs).length = 16 := rfl

@[simp] theorem decryptBlock_length (w : List Word) (nr : Nat) (bs : List Byte) :
    (decryptBlock w nr bs).length = 16 := rfl

/-! ### GF(2^8) -/

theorem xtime_xor (a b : Byte) : xtime (a ^^^ b) = xtime a ^^^ xtime b := by
  have h (x y p q : Byte) : (x ^^^ y) ^^^ (p ^^^ q) = (x ^^^ p) ^^^ (y ^^^ q) := by ac_rfl
  unfold xtime
  rw [BitVec.shiftLeft_xor_distrib, BitVec.getLsbD_xor, ← h]
  cases a.getLsbD 7 <;> cases b.getLsbD 7 <;> simp

theorem xtimeIter_xor (n : Nat) (a b : Byte) : xtimeIter n (a ^^^ b) = xtimeIter n a ^^^ xtimeIter n b := by
  induction n generalizing a b with
  | zero => rfl
  | succ n ih => rw [xtimeIter, xtime_xor, ih]; rfl

theorem foldl_gmul_xor (k a b : Byte) (l : List Nat) : ∀ x y : Byte,
    l.foldl (fun acc i => if k.getLsbD i then acc ^^^ xtimeIter i (a ^^^ b) else acc) (x ^^^ y) =
      l.foldl (fun acc i => if k.getLsbD i then acc ^^^ xtimeIter i a else acc) x ^^^
      l.foldl (fun acc i => if k.getLsbD i then acc ^^^ xtimeIter i b else acc) y := by
  induction l with
  | nil => intro x y; rfl
  | cons i l ih =>
    intro x y
    simp only [List.foldl_cons]
    rw [← ih]
    congr 1
    split
    · rw [xtimeIter_xor]; ac_rfl
    · rfl

/-- Multiplication by a fixed element is additive. -/
theorem gmul_xor (a b k : Byte) : gmul (a ^^^ b) k = gmul a k ^^^ gmul b k := by
  have h := foldl_gmul_xor k a b (List.range 8) 0 0
  simpa [gmul] using h

/-- The products that InvMixColumns after MixColumns takes of one byte: 1 on the diagonal, 0 off it. -/
theorem gmul_invMix_mix : ∀ x : Byte,
    gmul (gmul x 2) 0xe ^^^ gmul (gmul x 1) 0xb ^^^ gmul (gmul x 1) 0xd ^^^ gmul (gmul x 3) 0x9 = x ∧
    gmul (gmul x 3) 0xe ^^^ gmul (gmul x 2) 0xb ^^^ gmul (gmul x 1) 0xd ^^^ gmul (gmul x 1) 0x9 = 0 ∧
    gmul (gmul x 1) 0xe ^^^ gmul (gmul x 3) 0xb ^^^ gmul (gmul x 2) 0xd ^^^ gmul (gmul x 1) 0x9 = 0 ∧
    gmul (gmul x 1) 0xe ^^^ gmul (gmul x 1) 0xb ^^^ gmul (gmul x 3) 0xd ^^^ gmul (gmul x 2) 0x9 = 0 := by
  decide +kernel

/-- InvMixColumns undoes MixColumns on a column (42_aes.md R162). -/
theorem Column.times_inv (c : Column) : (c.times 2 3 1 1).times 0xe 0xb 0xd 0x9 = c := by
  obtain ⟨a, b, x, y⟩ := c
  obtain ⟨ha1, ha2, ha3, ha4⟩ := gmul_invMix_mix a
  obtain ⟨hb1, hb2, hb3, hb4⟩ := gmul_invMix_mix b
  obtain ⟨hx1, hx2, hx3, hx4⟩ := gmul_invMix_mix x
  obtain ⟨hy1, hy2, hy3, hy4⟩ := gmul_invMix_mix y
  have sum {p1 p2 p3 p4 q1 q2 q3 q4 r1 r2 r3 r4 s1 s2 s3 s4 P Q R S : Byte}
      (hp : p1 ^^^ p2 ^^^ p3 ^^^ p4 = P) (hq : q1 ^^^ q2 ^^^ q3 ^^^ q4 = Q)
      (hr : r1 ^^^ r2 ^^^ r3 ^^^ r4 = R) (hs : s1 ^^^ s2 ^^^ s3 ^^^ s4 = S) :
      (p1 ^^^ q1 ^^^ r1 ^^^ s1) ^^^ (p2 ^^^ q2 ^^^ r2 ^^^ s2) ^^^ (p3 ^^^ q3 ^^^ r3 ^^^ s3) ^^^
        (p4 ^^^ q4 ^^^ r4 ^^^ s4) = P ^^^ Q ^^^ R ^^^ S := by
    subst hp hq hr hs; ac_rfl
  have rot {p q r s P : Byte} (h : p ^^^ q ^^^ r ^^^ s = P) : s ^^^ p ^^^ q ^^^ r = P := by
    subst h; ac_rfl
  simp only [Column.times, gmul_xor, Column.mk.injEq]
  refine ⟨(sum ha1 hb2 hx3 hy4).trans ?_, (sum (rot ha4) (rot hb1) (rot hx2) (rot hy3)).trans ?_,
    (sum (rot (rot ha3)) (rot (rot hb4)) (rot (rot hx1)) (rot (rot hy2))).trans ?_,
    (sum (rot (rot (rot ha2))) (rot (rot (rot hb3))) (rot (rot (rot hx4))) (rot (rot (rot hy1)))).trans ?_⟩ <;> simp

/-! ### The round steps and their inverses -/

/-- ISBOX[SBOX[x]] = x (42_aes.md R156). -/
theorem isbox_sbox : ∀ x : Byte, isbox (sbox x) = x := by decide +kernel

/-- InvSubBytes undoes SubBytes (42_aes.md R160). -/
theorem invSubBytes_subBytes (s : Block) : invSubBytes (subBytes s) = s := by
  simp only [invSubBytes, subBytes, Block.mapColumns, Column.map, isbox_sbox]

/-- InvShiftRows undoes ShiftRows (42_aes.md R161). -/
theorem invShiftRows_shiftRows (s : Block) : invShiftRows (shiftRows s) = s := rfl

/-- InvMixColumns undoes MixColumns (42_aes.md R162). -/
theorem invMixColumns_mixColumns (s : Block) : invMixColumns (mixColumns s) = s := by
  simp only [invMixColumns, mixColumns, Block.mapColumns, Column.times_inv]

theorem Column.xor_xor (c k : Column) : (c.xor k).xor k = c := by
  simp only [Column.xor, BitVec.xor_assoc, BitVec.xor_self, BitVec.xor_zero]

/-- AddRoundKey is its own inverse (42_aes.md R163). -/
theorem addRoundKey_addRoundKey (w : List Word) (rnd : Nat) (s : Block) :
    addRoundKey w rnd (addRoundKey w rnd s) = s := by
  simp only [addRoundKey, Column.xor_xor]

/-! ### Modes -/

theorem xorBytes_length {xs ys : List Byte} (h : xs.length = ys.length) : (xorBytes xs ys).length = xs.length := by
  simp [xorBytes, h]

/-- XOR with a string twice changes nothing. -/
theorem xorBytes_xorBytes {xs : List Byte} : ∀ {ys : List Byte}, xs.length = ys.length →
    xorBytes (xorBytes xs ys) ys = xs := by
  induction xs with
  | nil => intro ys _; simp [xorBytes]
  | cons x xs ih =>
    intro ys h
    cases ys with
    | nil => simp at h
    | cons y ys =>
      have hi : xorBytes (xorBytes xs ys) ys = xs := ih (by simpa using h)
      have hx : x ^^^ y ^^^ y = x := by simp
      simp only [xorBytes, List.zipWith_cons_cons, hx] at hi ⊢
      rw [hi]

theorem ecb_length {f : List Byte → List Byte} (hf : ∀ bs, (f bs).length = 16) (n : Nat) (xs : List Byte) :
    (ecb f n xs).length = 16 * n := by
  induction n generalizing xs with
  | zero => rfl
  | succ n ih => simp only [ecb, List.length_append, hf, ih]; omega

theorem cbcEncrypt_length {e : List Byte → List Byte} (he : ∀ bs, (e bs).length = 16) (n : Nat)
    (prev xs : List Byte) : (cbcEncrypt e n prev xs).length = 16 * n := by
  induction n generalizing prev xs with
  | zero => rfl
  | succ n ih => simp only [cbcEncrypt, List.length_append, he, ih]; omega

theorem cbcDecrypt_length {d : List Byte → List Byte} (hd : ∀ bs, (d bs).length = 16) (n : Nat) :
    ∀ prev xs : List Byte, prev.length = 16 → xs.length = 16 * n → (cbcDecrypt d n prev xs).length = 16 * n := by
  induction n with
  | zero => intros; rfl
  | succ n ih =>
    intro prev xs hp hx
    have ht : (xs.take 16).length = 16 := by simp; omega
    simp only [cbcDecrypt, List.length_append]
    rw [xorBytes_length (by rw [hd, hp]), hd, ih _ _ ht (by simp; omega)]
    omega

/-! ### PKCS#7 -/

/-- The padded length: the next multiple of 16 (42_aes.md R169, R171). -/
theorem pkcs7Pad_length (xs : List Byte) : (pkcs7Pad xs).length = xs.length + 16 - xs.length % 16 := by
  simp only [pkcs7Pad, List.length_append, List.length_replicate]
  omega

theorem pkcs7Pad_length_mod (xs : List Byte) : (pkcs7Pad xs).length % 16 = 0 := by
  rw [pkcs7Pad_length]; omega

theorem padByte_append_replicate (xs : List Byte) (p : Byte) {n : Nat} (hn : 0 < n) :
    padByte (xs ++ List.replicate n p) = p := by
  have hi : (xs ++ List.replicate n p).length - 1 = xs.length + (n - 1) := by
    simp only [List.length_append, List.length_replicate]; omega
  rw [padByte, hi, List.getD_eq_getElem?_getD, List.getElem?_append_right (by omega)]
  simp [hn]

/-- Unpadding undoes padding, in either STRICT mode, with PADBAD = 0 (42_aes.md R169, R170). -/
theorem pkcs7Unpad_pkcs7Pad (strict : Bool) (xs : List Byte) :
    pkcs7Unpad strict (pkcs7Pad xs) = some (xs, false) := by
  have hp : (BitVec.ofNat 8 (16 - xs.length % 16)).toNat = 16 - xs.length % 16 := by
    rw [BitVec.toNat_ofNat]; omega
  have hb : padByte (pkcs7Pad xs) = BitVec.ofNat 8 (16 - xs.length % 16) :=
    padByte_append_replicate xs _ (by omega)
  have hl := pkcs7Pad_length xs
  have hs : (pkcs7Pad xs).length - (16 - xs.length % 16) = xs.length := by omega
  have hv : pkcs7Valid (pkcs7Pad xs) = true := by
    rw [pkcs7Valid]
    simp only [hb, hp, hs, decide_eq_true_eq]
    exact ⟨by omega, by omega, by omega, by omega, by simp [pkcs7Pad]⟩
  rw [pkcs7Unpad, if_pos hv, hb, hp, hs]
  simp [pkcs7Pad]

/-- Unpadding never lengthens the data. -/
theorem pkcs7Unpad_length {strict : Bool} {xs : List Byte} {y : List Byte × Bool}
    (h : pkcs7Unpad strict xs = some y) : y.1.length ≤ xs.length := by
  unfold pkcs7Unpad at h
  split at h
  · cases h; simp
  · split at h
    · cases h
    · cases h; simp

/-! ### The engine's AES state -/

theorem Aes.encrypt_length (a : Aes) (cbc : Bool) (xs : List Byte) :
    (a.encrypt cbc xs).length = 16 * (xs.length / 16) := by
  unfold Aes.encrypt
  cases cbc
  · exact ecb_length (fun _ => rfl) _ _
  · exact cbcEncrypt_length (fun _ => rfl) _ _ _

theorem Aes.decrypt_length (a : Aes) (cbc : Bool) {xs : List Byte} (h : xs.length % 16 = 0) :
    (a.decrypt cbc xs).length = xs.length := by
  unfold Aes.decrypt
  cases cbc
  · exact (ecb_length (fun _ => rfl) _ _).trans (by omega)
  · exact (cbcDecrypt_length (fun _ => rfl) _ _ _ (by simp) (by omega)).trans (by omega)

/-- AESCRYPT's output is no longer than omax, the length its RANGE check uses (42_aes.md R178). -/
theorem Aes.crypt_length_le {a : Aes} {dec cbc pad strict : Bool} {xs : List Byte} {y : List Byte × Bool}
    (hl : (dec = true ∨ pad = false) → xs.length % 16 = 0) (h : a.crypt dec cbc pad strict xs = some y) :
    y.1.length ≤ aesOutMax dec pad xs.length := by
  unfold Aes.crypt at h
  cases dec
  · simp only [Bool.false_eq_true, if_false, Option.some.injEq] at h
    subst h
    rw [Aes.encrypt_length]
    cases pad
    · have := hl (.inr rfl)
      simp [aesOutMax]; omega
    · simp [aesOutMax, pkcs7Pad_length]; omega
  · have hd := Aes.decrypt_length a cbc (hl (.inl rfl))
    cases pad
    · simp only [if_true, Bool.false_eq_true, if_false, Option.some.injEq] at h
      subst h
      simp [aesOutMax, hd]
    · simp only [if_true] at h
      have := pkcs7Unpad_length h
      simp [aesOutMax]; omega

theorem expandWords_length (nk k : Nat) (w : List Word) : (expandWords nk k w).length = w.length + k := by
  induction k generalizing w with
  | zero => rfl
  | succ k ih => rw [expandWords, ih]; simp; omega

/-- The schedule has 4·(Nr+1) words (42_aes.md R153, R159). -/
theorem keyExpand_length (key : List Byte) :
    (keyExpand key).length = 4 * (roundsOf key.length + 1) := by
  simp only [keyExpand, expandWords_length, List.length_map, List.length_range, roundsOf]
  omega

/-! ### The modes block by block (42_aes.md R166–R168) -/

theorem blockAt_succ (xs : List Byte) (i : Nat) : blockAt xs (i + 1) = blockAt (xs.drop 16) i := by
  rw [blockAt, blockAt, List.drop_drop, Nat.mul_succ, Nat.add_comm]

theorem blockAt_append_zero {b : List Byte} (hb : b.length = 16) (xs : List Byte) : blockAt (b ++ xs) 0 = b := by
  rw [blockAt, Nat.mul_zero, List.drop_zero, ← hb, List.take_left]

theorem blockAt_append_succ {b : List Byte} (hb : b.length = 16) (xs : List Byte) (i : Nat) :
    blockAt (b ++ xs) (i + 1) = blockAt xs i := by
  rw [blockAt_succ, ← hb, List.drop_left]

/-- ECB transforms each block on its own (42_aes.md R166). -/
theorem blockAt_ecb {f : List Byte → List Byte} (hf : ∀ bs, (f bs).length = 16) (n : Nat) : ∀ (xs : List Byte) (i : Nat),
    i < n → blockAt (ecb f n xs) i = f (blockAt xs i) := by
  induction n with
  | zero => intro _ _ h; omega
  | succ n ih =>
    intro xs i hi
    cases i with
    | zero => rw [ecb, blockAt_append_zero (hf _)]; rfl
    | succ i => rw [ecb, blockAt_append_succ (hf _), ih _ _ (by omega), blockAt_succ]

/-- CBC encryption chains each block to the ciphertext before it (42_aes.md R167). -/
theorem blockAt_cbcEncrypt {e : List Byte → List Byte} (he : ∀ bs, (e bs).length = 16) (n : Nat) :
    ∀ (prev xs : List Byte) (i : Nat), i < n → blockAt (cbcEncrypt e n prev xs) i =
      e (xorBytes (blockAt xs i) (if i = 0 then prev else blockAt (cbcEncrypt e n prev xs) (i - 1))) := by
  induction n with
  | zero => intro _ _ _ h; omega
  | succ n ih =>
    intro prev xs i hi
    cases i with
    | zero => rw [cbcEncrypt, blockAt_append_zero (he _)]; rfl
    | succ i =>
      simp only [cbcEncrypt, blockAt_append_succ (he _), Nat.add_sub_cancel, if_neg (Nat.succ_ne_zero i)]
      rw [ih _ _ _ (by omega), blockAt_succ]
      cases i with
      | zero => rw [if_pos rfl, blockAt_append_zero (he _)]
      | succ i => rw [if_neg (Nat.succ_ne_zero i), blockAt_append_succ (he _), Nat.add_sub_cancel]

/-- CBC decryption chains each block to the ciphertext before it (42_aes.md R168). -/
theorem blockAt_cbcDecrypt {d : List Byte → List Byte} (hd : ∀ bs, (d bs).length = 16) (n : Nat) :
    ∀ (prev xs : List Byte) (i : Nat), prev.length = 16 → xs.length = 16 * n → i < n →
      blockAt (cbcDecrypt d n prev xs) i =
        xorBytes (d (blockAt xs i)) (if i = 0 then prev else blockAt xs (i - 1)) := by
  induction n with
  | zero => intro _ _ _ _ _ h; omega
  | succ n ih =>
    intro prev xs i hp hx hi
    have hl : (xorBytes (d (xs.take 16)) prev).length = 16 := by rw [xorBytes_length (by rw [hd, hp]), hd]
    cases i with
    | zero => rw [cbcDecrypt, blockAt_append_zero hl]; rfl
    | succ i =>
      rw [cbcDecrypt, blockAt_append_succ hl, ih _ _ _ (by rw [List.length_take]; omega)
        (by rw [List.length_drop]; omega) (by omega), if_neg (Nat.succ_ne_zero i), Nat.add_sub_cancel, blockAt_succ]
      cases i with
      | zero => rw [if_pos rfl]; rfl
      | succ i => rw [if_neg (Nat.succ_ne_zero i), Nat.add_sub_cancel, ← blockAt_succ xs i]

end Sys2Proof.Machine
end

