-- ==== Sys2Proof/Laws/State.lean ====
section
/-! SUPPORT. One lemma per field per update of State, so that no later proof unfolds a record update. -/

namespace Sys2Proof.Machine

/-! ### MemWrite -/

section Memwrite
variable (s : State) (addr : Word) (bs : List Byte)
@[simp] theorem State.memWrite_ie : (s.memWrite addr bs).ie = s.ie := rfl
@[simp] theorem State.memWrite_status : (s.memWrite addr bs).status = s.status := rfl
@[simp] theorem State.memWrite_errcode : (s.memWrite addr bs).errcode = s.errcode := rfl
@[simp] theorem State.memWrite_cmdreg : (s.memWrite addr bs).cmdreg = s.cmdreg := rfl
@[simp] theorem State.memWrite_result : (s.memWrite addr bs).result = s.result := rfl
@[simp] theorem State.memWrite_arg : (s.memWrite addr bs).arg = s.arg := rfl
@[simp] theorem State.memWrite_lcmd : (s.memWrite addr bs).lcmd = s.lcmd := rfl
@[simp] theorem State.memWrite_larg : (s.memWrite addr bs).larg = s.larg := rfl
@[simp] theorem State.memWrite_pending : (s.memWrite addr bs).pending = s.pending := rfl
@[simp] theorem State.memWrite_b : (s.memWrite addr bs).b = s.b := rfl
@[simp] theorem State.memWrite_aes : (s.memWrite addr bs).aes = s.aes := rfl
@[simp] theorem State.memWrite_md5 : (s.memWrite addr bs).md5 = s.md5 := rfl
@[simp] theorem State.memWrite_sha : (s.memWrite addr bs).sha = s.sha := rfl
@[simp] theorem State.memWrite_dmem : (s.memWrite addr bs).dmem = s.dmem.writeBytes addr.toNat bs := rfl
@[simp] theorem State.memWrite_rst : (s.memWrite addr bs).rst = s.rst := rfl
@[simp] theorem State.memWrite_host : (s.memWrite addr bs).host = s.host := rfl
@[simp] theorem State.memWrite_sched : (s.memWrite addr bs).sched = s.sched := rfl
@[simp] theorem State.memWrite_rdata : (s.memWrite addr bs).rdata = s.rdata := rfl
@[simp] theorem State.memWrite_rng : (s.memWrite addr bs).rng = s.rng := rfl
@[simp] theorem State.memWrite_getB (r : RegIdx) : (s.memWrite addr bs).getB r = s.getB r := rfl
end Memwrite

/-! ### BigInt register write -/

section Setb
variable (s : State) (r : RegIdx) (v : Int)
@[simp] theorem State.setB_ie : (s.setB r v).ie = s.ie := rfl
@[simp] theorem State.setB_status : (s.setB r v).status = s.status := rfl
@[simp] theorem State.setB_errcode : (s.setB r v).errcode = s.errcode := rfl
@[simp] theorem State.setB_cmdreg : (s.setB r v).cmdreg = s.cmdreg := rfl
@[simp] theorem State.setB_result : (s.setB r v).result = s.result := rfl
@[simp] theorem State.setB_arg : (s.setB r v).arg = s.arg := rfl
@[simp] theorem State.setB_lcmd : (s.setB r v).lcmd = s.lcmd := rfl
@[simp] theorem State.setB_larg : (s.setB r v).larg = s.larg := rfl
@[simp] theorem State.setB_pending : (s.setB r v).pending = s.pending := rfl
@[simp] theorem State.setB_b : (s.setB r v).b = s.b.set r.val v r.isLt := rfl
@[simp] theorem State.setB_aes : (s.setB r v).aes = s.aes := rfl
@[simp] theorem State.setB_md5 : (s.setB r v).md5 = s.md5 := rfl
@[simp] theorem State.setB_sha : (s.setB r v).sha = s.sha := rfl
@[simp] theorem State.setB_dmem : (s.setB r v).dmem = s.dmem := rfl
@[simp] theorem State.setB_rst : (s.setB r v).rst = s.rst := rfl
@[simp] theorem State.setB_host : (s.setB r v).host = s.host := rfl
@[simp] theorem State.setB_sched : (s.setB r v).sched = s.sched := rfl
@[simp] theorem State.setB_rdata : (s.setB r v).rdata = s.rdata := rfl
@[simp] theorem State.setB_rng : (s.setB r v).rng = s.rng := rfl
end Setb

/-- A register read after a register write. -/
@[simp] theorem State.setB_getB (s : State) (r r' : RegIdx) (v : Int) :
    (s.setB r v).getB r' = if r' = r then v else s.getB r' := by
  obtain ⟨i, hi⟩ := r
  obtain ⟨j, hj⟩ := r'
  simp only [State.getB, State.setB, Vector.get_eq_getElem, Vector.getElem_set, Fin.mk.injEq, eq_comm]

/-! ### RESULT -/

section Setresult
variable (s : State) (v : Nat)
@[simp] theorem State.setResult_ie : (s.setResult v).ie = s.ie := rfl
@[simp] theorem State.setResult_status : (s.setResult v).status = s.status := rfl
@[simp] theorem State.setResult_errcode : (s.setResult v).errcode = s.errcode := rfl
@[simp] theorem State.setResult_cmdreg : (s.setResult v).cmdreg = s.cmdreg := rfl
@[simp] theorem State.setResult_result : (s.setResult v).result = BitVec.ofNat 32 v := rfl
@[simp] theorem State.setResult_arg : (s.setResult v).arg = s.arg := rfl
@[simp] theorem State.setResult_lcmd : (s.setResult v).lcmd = s.lcmd := rfl
@[simp] theorem State.setResult_larg : (s.setResult v).larg = s.larg := rfl
@[simp] theorem State.setResult_pending : (s.setResult v).pending = s.pending := rfl
@[simp] theorem State.setResult_b : (s.setResult v).b = s.b := rfl
@[simp] theorem State.setResult_aes : (s.setResult v).aes = s.aes := rfl
@[simp] theorem State.setResult_md5 : (s.setResult v).md5 = s.md5 := rfl
@[simp] theorem State.setResult_sha : (s.setResult v).sha = s.sha := rfl
@[simp] theorem State.setResult_dmem : (s.setResult v).dmem = s.dmem := rfl
@[simp] theorem State.setResult_rst : (s.setResult v).rst = s.rst := rfl
@[simp] theorem State.setResult_host : (s.setResult v).host = s.host := rfl
@[simp] theorem State.setResult_sched : (s.setResult v).sched = s.sched := rfl
@[simp] theorem State.setResult_rdata : (s.setResult v).rdata = s.rdata := rfl
@[simp] theorem State.setResult_rng : (s.setResult v).rng = s.rng := rfl
@[simp] theorem State.setResult_getB (r : RegIdx) : (s.setResult v).getB r = s.getB r := rfl
end Setresult

/-! ### RNG counter -/

section Setrng
variable (s : State) (n : Nat)
@[simp] theorem State.setRng_ie : (s.setRng n).ie = s.ie := rfl
@[simp] theorem State.setRng_status : (s.setRng n).status = s.status := rfl
@[simp] theorem State.setRng_errcode : (s.setRng n).errcode = s.errcode := rfl
@[simp] theorem State.setRng_cmdreg : (s.setRng n).cmdreg = s.cmdreg := rfl
@[simp] theorem State.setRng_result : (s.setRng n).result = s.result := rfl
@[simp] theorem State.setRng_arg : (s.setRng n).arg = s.arg := rfl
@[simp] theorem State.setRng_lcmd : (s.setRng n).lcmd = s.lcmd := rfl
@[simp] theorem State.setRng_larg : (s.setRng n).larg = s.larg := rfl
@[simp] theorem State.setRng_pending : (s.setRng n).pending = s.pending := rfl
@[simp] theorem State.setRng_b : (s.setRng n).b = s.b := rfl
@[simp] theorem State.setRng_aes : (s.setRng n).aes = s.aes := rfl
@[simp] theorem State.setRng_md5 : (s.setRng n).md5 = s.md5 := rfl
@[simp] theorem State.setRng_sha : (s.setRng n).sha = s.sha := rfl
@[simp] theorem State.setRng_dmem : (s.setRng n).dmem = s.dmem := rfl
@[simp] theorem State.setRng_rst : (s.setRng n).rst = s.rst := rfl
@[simp] theorem State.setRng_host : (s.setRng n).host = s.host := rfl
@[simp] theorem State.setRng_sched : (s.setRng n).sched = s.sched := rfl
@[simp] theorem State.setRng_rdata : (s.setRng n).rdata = s.rdata := rfl
@[simp] theorem State.setRng_rng : (s.setRng n).rng = n := rfl
@[simp] theorem State.setRng_getB (r : RegIdx) : (s.setRng n).getB r = s.getB r := rfl
end Setrng

/-! ### CMP flags -/

section Setcmpflags
variable (s : State) (x y : Int)
@[simp] theorem State.setCmpFlags_ie : (s.setCmpFlags x y).ie = s.ie := rfl
@[simp] theorem State.setCmpFlags_errcode : (s.setCmpFlags x y).errcode = s.errcode := rfl
@[simp] theorem State.setCmpFlags_cmdreg : (s.setCmpFlags x y).cmdreg = s.cmdreg := rfl
@[simp] theorem State.setCmpFlags_result : (s.setCmpFlags x y).result = s.result := rfl
@[simp] theorem State.setCmpFlags_arg : (s.setCmpFlags x y).arg = s.arg := rfl
@[simp] theorem State.setCmpFlags_lcmd : (s.setCmpFlags x y).lcmd = s.lcmd := rfl
@[simp] theorem State.setCmpFlags_larg : (s.setCmpFlags x y).larg = s.larg := rfl
@[simp] theorem State.setCmpFlags_pending : (s.setCmpFlags x y).pending = s.pending := rfl
@[simp] theorem State.setCmpFlags_b : (s.setCmpFlags x y).b = s.b := rfl
@[simp] theorem State.setCmpFlags_aes : (s.setCmpFlags x y).aes = s.aes := rfl
@[simp] theorem State.setCmpFlags_md5 : (s.setCmpFlags x y).md5 = s.md5 := rfl
@[simp] theorem State.setCmpFlags_sha : (s.setCmpFlags x y).sha = s.sha := rfl
@[simp] theorem State.setCmpFlags_dmem : (s.setCmpFlags x y).dmem = s.dmem := rfl
@[simp] theorem State.setCmpFlags_rst : (s.setCmpFlags x y).rst = s.rst := rfl
@[simp] theorem State.setCmpFlags_host : (s.setCmpFlags x y).host = s.host := rfl
@[simp] theorem State.setCmpFlags_sched : (s.setCmpFlags x y).sched = s.sched := rfl
@[simp] theorem State.setCmpFlags_rdata : (s.setCmpFlags x y).rdata = s.rdata := rfl
@[simp] theorem State.setCmpFlags_rng : (s.setCmpFlags x y).rng = s.rng := rfl
@[simp] theorem State.setCmpFlags_status_busy : (s.setCmpFlags x y).status.busy = s.status.busy := rfl
@[simp] theorem State.setCmpFlags_status_done : (s.setCmpFlags x y).status.done = s.status.done := rfl
@[simp] theorem State.setCmpFlags_status_err : (s.setCmpFlags x y).status.err = s.status.err := rfl
@[simp] theorem State.setCmpFlags_status_cmdovr : (s.setCmpFlags x y).status.cmdovr = s.status.cmdovr := rfl
@[simp] theorem State.setCmpFlags_status_lt : (s.setCmpFlags x y).status.lt = decide (x < y) := rfl
@[simp] theorem State.setCmpFlags_status_eq : (s.setCmpFlags x y).status.eq = decide (x = y) := rfl
@[simp] theorem State.setCmpFlags_status_gt : (s.setCmpFlags x y).status.gt = decide (y < x) := rfl
@[simp] theorem State.setCmpFlags_status_noinv : (s.setCmpFlags x y).status.noinv = s.status.noinv := rfl
@[simp] theorem State.setCmpFlags_status_padbad : (s.setCmpFlags x y).status.padbad = s.status.padbad := rfl
@[simp] theorem State.setCmpFlags_getB (r : RegIdx) : (s.setCmpFlags x y).getB r = s.getB r := rfl
end Setcmpflags

/-! ### NOINV -/

section Setnoinv
variable (s : State) (v : Bool)
@[simp] theorem State.setNoinv_ie : (s.setNoinv v).ie = s.ie := rfl
@[simp] theorem State.setNoinv_errcode : (s.setNoinv v).errcode = s.errcode := rfl
@[simp] theorem State.setNoinv_cmdreg : (s.setNoinv v).cmdreg = s.cmdreg := rfl
@[simp] theorem State.setNoinv_result : (s.setNoinv v).result = s.result := rfl
@[simp] theorem State.setNoinv_arg : (s.setNoinv v).arg = s.arg := rfl
@[simp] theorem State.setNoinv_lcmd : (s.setNoinv v).lcmd = s.lcmd := rfl
@[simp] theorem State.setNoinv_larg : (s.setNoinv v).larg = s.larg := rfl
@[simp] theorem State.setNoinv_pending : (s.setNoinv v).pending = s.pending := rfl
@[simp] theorem State.setNoinv_b : (s.setNoinv v).b = s.b := rfl
@[simp] theorem State.setNoinv_aes : (s.setNoinv v).aes = s.aes := rfl
@[simp] theorem State.setNoinv_md5 : (s.setNoinv v).md5 = s.md5 := rfl
@[simp] theorem State.setNoinv_sha : (s.setNoinv v).sha = s.sha := rfl
@[simp] theorem State.setNoinv_dmem : (s.setNoinv v).dmem = s.dmem := rfl
@[simp] theorem State.setNoinv_rst : (s.setNoinv v).rst = s.rst := rfl
@[simp] theorem State.setNoinv_host : (s.setNoinv v).host = s.host := rfl
@[simp] theorem State.setNoinv_sched : (s.setNoinv v).sched = s.sched := rfl
@[simp] theorem State.setNoinv_rdata : (s.setNoinv v).rdata = s.rdata := rfl
@[simp] theorem State.setNoinv_rng : (s.setNoinv v).rng = s.rng := rfl
@[simp] theorem State.setNoinv_status_busy : (s.setNoinv v).status.busy = s.status.busy := rfl
@[simp] theorem State.setNoinv_status_done : (s.setNoinv v).status.done = s.status.done := rfl
@[simp] theorem State.setNoinv_status_err : (s.setNoinv v).status.err = s.status.err := rfl
@[simp] theorem State.setNoinv_status_cmdovr : (s.setNoinv v).status.cmdovr = s.status.cmdovr := rfl
@[simp] theorem State.setNoinv_status_lt : (s.setNoinv v).status.lt = s.status.lt := rfl
@[simp] theorem State.setNoinv_status_eq : (s.setNoinv v).status.eq = s.status.eq := rfl
@[simp] theorem State.setNoinv_status_gt : (s.setNoinv v).status.gt = s.status.gt := rfl
@[simp] theorem State.setNoinv_status_noinv : (s.setNoinv v).status.noinv = v := rfl
@[simp] theorem State.setNoinv_status_padbad : (s.setNoinv v).status.padbad = s.status.padbad := rfl
@[simp] theorem State.setNoinv_getB (r : RegIdx) : (s.setNoinv v).getB r = s.getB r := rfl
end Setnoinv

/-! ### PADBAD -/

section Setpadbad
variable (s : State) (v : Bool)
@[simp] theorem State.setPadbad_ie : (s.setPadbad v).ie = s.ie := rfl
@[simp] theorem State.setPadbad_errcode : (s.setPadbad v).errcode = s.errcode := rfl
@[simp] theorem State.setPadbad_cmdreg : (s.setPadbad v).cmdreg = s.cmdreg := rfl
@[simp] theorem State.setPadbad_result : (s.setPadbad v).result = s.result := rfl
@[simp] theorem State.setPadbad_arg : (s.setPadbad v).arg = s.arg := rfl
@[simp] theorem State.setPadbad_lcmd : (s.setPadbad v).lcmd = s.lcmd := rfl
@[simp] theorem State.setPadbad_larg : (s.setPadbad v).larg = s.larg := rfl
@[simp] theorem State.setPadbad_pending : (s.setPadbad v).pending = s.pending := rfl
@[simp] theorem State.setPadbad_b : (s.setPadbad v).b = s.b := rfl
@[simp] theorem State.setPadbad_aes : (s.setPadbad v).aes = s.aes := rfl
@[simp] theorem State.setPadbad_md5 : (s.setPadbad v).md5 = s.md5 := rfl
@[simp] theorem State.setPadbad_sha : (s.setPadbad v).sha = s.sha := rfl
@[simp] theorem State.setPadbad_dmem : (s.setPadbad v).dmem = s.dmem := rfl
@[simp] theorem State.setPadbad_rst : (s.setPadbad v).rst = s.rst := rfl
@[simp] theorem State.setPadbad_host : (s.setPadbad v).host = s.host := rfl
@[simp] theorem State.setPadbad_sched : (s.setPadbad v).sched = s.sched := rfl
@[simp] theorem State.setPadbad_rdata : (s.setPadbad v).rdata = s.rdata := rfl
@[simp] theorem State.setPadbad_rng : (s.setPadbad v).rng = s.rng := rfl
@[simp] theorem State.setPadbad_status_busy : (s.setPadbad v).status.busy = s.status.busy := rfl
@[simp] theorem State.setPadbad_status_done : (s.setPadbad v).status.done = s.status.done := rfl
@[simp] theorem State.setPadbad_status_err : (s.setPadbad v).status.err = s.status.err := rfl
@[simp] theorem State.setPadbad_status_cmdovr : (s.setPadbad v).status.cmdovr = s.status.cmdovr := rfl
@[simp] theorem State.setPadbad_status_lt : (s.setPadbad v).status.lt = s.status.lt := rfl
@[simp] theorem State.setPadbad_status_eq : (s.setPadbad v).status.eq = s.status.eq := rfl
@[simp] theorem State.setPadbad_status_gt : (s.setPadbad v).status.gt = s.status.gt := rfl
@[simp] theorem State.setPadbad_status_noinv : (s.setPadbad v).status.noinv = s.status.noinv := rfl
@[simp] theorem State.setPadbad_status_padbad : (s.setPadbad v).status.padbad = v := rfl
@[simp] theorem State.setPadbad_getB (r : RegIdx) : (s.setPadbad v).getB r = s.getB r := rfl
end Setpadbad

/-! ### AES key load -/

section Loadkey
variable (s : State) (key : List Byte)
@[simp] theorem State.loadKey_ie : (s.loadKey key).ie = s.ie := rfl
@[simp] theorem State.loadKey_status : (s.loadKey key).status = s.status := rfl
@[simp] theorem State.loadKey_errcode : (s.loadKey key).errcode = s.errcode := rfl
@[simp] theorem State.loadKey_cmdreg : (s.loadKey key).cmdreg = s.cmdreg := rfl
@[simp] theorem State.loadKey_result : (s.loadKey key).result = s.result := rfl
@[simp] theorem State.loadKey_arg : (s.loadKey key).arg = s.arg := rfl
@[simp] theorem State.loadKey_lcmd : (s.loadKey key).lcmd = s.lcmd := rfl
@[simp] theorem State.loadKey_larg : (s.loadKey key).larg = s.larg := rfl
@[simp] theorem State.loadKey_pending : (s.loadKey key).pending = s.pending := rfl
@[simp] theorem State.loadKey_b : (s.loadKey key).b = s.b := rfl
@[simp] theorem State.loadKey_md5 : (s.loadKey key).md5 = s.md5 := rfl
@[simp] theorem State.loadKey_sha : (s.loadKey key).sha = s.sha := rfl
@[simp] theorem State.loadKey_dmem : (s.loadKey key).dmem = s.dmem := rfl
@[simp] theorem State.loadKey_rst : (s.loadKey key).rst = s.rst := rfl
@[simp] theorem State.loadKey_host : (s.loadKey key).host = s.host := rfl
@[simp] theorem State.loadKey_sched : (s.loadKey key).sched = s.sched := rfl
@[simp] theorem State.loadKey_rdata : (s.loadKey key).rdata = s.rdata := rfl
@[simp] theorem State.loadKey_rng : (s.loadKey key).rng = s.rng := rfl
@[simp] theorem State.loadKey_getB (r : RegIdx) : (s.loadKey key).getB r = s.getB r := rfl
end Loadkey

@[simp] theorem State.loadKey_aes_keyw (s : State) (key : List Byte) :
    (s.loadKey key).aes.keyw = vectorOf 60 0 (keyExpand key) := rfl
@[simp] theorem State.loadKey_aes_nr (s : State) (key : List Byte) :
    (s.loadKey key).aes.nr = BitVec.ofNat 4 (roundsOf key.length) := rfl
@[simp] theorem State.loadKey_aes_keyValid (s : State) (key : List Byte) :
    (s.loadKey key).aes.keyValid = true := rfl
@[simp] theorem State.loadKey_aes_iv (s : State) (key : List Byte) : (s.loadKey key).aes.iv = s.aes.iv := rfl
@[simp] theorem State.loadKey_aes_ivValid (s : State) (key : List Byte) :
    (s.loadKey key).aes.ivValid = s.aes.ivValid := rfl

/-! ### IV load -/

section Loadiv
variable (s : State) (iv : List Byte)
@[simp] theorem State.loadIv_ie : (s.loadIv iv).ie = s.ie := rfl
@[simp] theorem State.loadIv_status : (s.loadIv iv).status = s.status := rfl
@[simp] theorem State.loadIv_errcode : (s.loadIv iv).errcode = s.errcode := rfl
@[simp] theorem State.loadIv_cmdreg : (s.loadIv iv).cmdreg = s.cmdreg := rfl
@[simp] theorem State.loadIv_result : (s.loadIv iv).result = s.result := rfl
@[simp] theorem State.loadIv_arg : (s.loadIv iv).arg = s.arg := rfl
@[simp] theorem State.loadIv_lcmd : (s.loadIv iv).lcmd = s.lcmd := rfl
@[simp] theorem State.loadIv_larg : (s.loadIv iv).larg = s.larg := rfl
@[simp] theorem State.loadIv_pending : (s.loadIv iv).pending = s.pending := rfl
@[simp] theorem State.loadIv_b : (s.loadIv iv).b = s.b := rfl
@[simp] theorem State.loadIv_aes : (s.loadIv iv).aes = { s.aes with iv := vectorOf 16 0 iv, ivValid := true } := rfl
@[simp] theorem State.loadIv_md5 : (s.loadIv iv).md5 = s.md5 := rfl
@[simp] theorem State.loadIv_sha : (s.loadIv iv).sha = s.sha := rfl
@[simp] theorem State.loadIv_dmem : (s.loadIv iv).dmem = s.dmem := rfl
@[simp] theorem State.loadIv_rst : (s.loadIv iv).rst = s.rst := rfl
@[simp] theorem State.loadIv_host : (s.loadIv iv).host = s.host := rfl
@[simp] theorem State.loadIv_sched : (s.loadIv iv).sched = s.sched := rfl
@[simp] theorem State.loadIv_rdata : (s.loadIv iv).rdata = s.rdata := rfl
@[simp] theorem State.loadIv_rng : (s.loadIv iv).rng = s.rng := rfl
@[simp] theorem State.loadIv_getB (r : RegIdx) : (s.loadIv iv).getB r = s.getB r := rfl
end Loadiv

/-! ### Hash context reset -/

section Ctxinit
variable (s : State) (alg : BitVec 2)
@[simp] theorem State.ctxInit_ie : (s.ctxInit alg).ie = s.ie := by
  unfold State.ctxInit; split <;> rfl
@[simp] theorem State.ctxInit_status : (s.ctxInit alg).status = s.status := by
  unfold State.ctxInit; split <;> rfl
@[simp] theorem State.ctxInit_errcode : (s.ctxInit alg).errcode = s.errcode := by
  unfold State.ctxInit; split <;> rfl
@[simp] theorem State.ctxInit_cmdreg : (s.ctxInit alg).cmdreg = s.cmdreg := by
  unfold State.ctxInit; split <;> rfl
@[simp] theorem State.ctxInit_result : (s.ctxInit alg).result = s.result := by
  unfold State.ctxInit; split <;> rfl
@[simp] theorem State.ctxInit_arg : (s.ctxInit alg).arg = s.arg := by
  unfold State.ctxInit; split <;> rfl
@[simp] theorem State.ctxInit_lcmd : (s.ctxInit alg).lcmd = s.lcmd := by
  unfold State.ctxInit; split <;> rfl
@[simp] theorem State.ctxInit_larg : (s.ctxInit alg).larg = s.larg := by
  unfold State.ctxInit; split <;> rfl
@[simp] theorem State.ctxInit_pending : (s.ctxInit alg).pending = s.pending := by
  unfold State.ctxInit; split <;> rfl
@[simp] theorem State.ctxInit_b : (s.ctxInit alg).b = s.b := by
  unfold State.ctxInit; split <;> rfl
@[simp] theorem State.ctxInit_aes : (s.ctxInit alg).aes = s.aes := by
  unfold State.ctxInit; split <;> rfl
@[simp] theorem State.ctxInit_md5 : (s.ctxInit alg).md5 = if alg = 0#2 then HashCtx.initial md5Init else s.md5 := by
  unfold State.ctxInit; split <;> rfl
@[simp] theorem State.ctxInit_sha : (s.ctxInit alg).sha = if alg = 0#2 then s.sha else HashCtx.initial sha256Init := by
  unfold State.ctxInit; split <;> rfl
@[simp] theorem State.ctxInit_dmem : (s.ctxInit alg).dmem = s.dmem := by
  unfold State.ctxInit; split <;> rfl
@[simp] theorem State.ctxInit_rst : (s.ctxInit alg).rst = s.rst := by
  unfold State.ctxInit; split <;> rfl
@[simp] theorem State.ctxInit_host : (s.ctxInit alg).host = s.host := by
  unfold State.ctxInit; split <;> rfl
@[simp] theorem State.ctxInit_sched : (s.ctxInit alg).sched = s.sched := by
  unfold State.ctxInit; split <;> rfl
@[simp] theorem State.ctxInit_rdata : (s.ctxInit alg).rdata = s.rdata := by
  unfold State.ctxInit; split <;> rfl
@[simp] theorem State.ctxInit_rng : (s.ctxInit alg).rng = s.rng := by
  unfold State.ctxInit; split <;> rfl
@[simp] theorem State.ctxInit_getB (r : RegIdx) : (s.ctxInit alg).getB r = s.getB r := by
  unfold State.ctxInit; split <;> rfl
end Ctxinit

/-! ### Hash absorption -/

section Ctxabsorb
variable (s : State) (alg : BitVec 2) (bs : List Byte)
@[simp] theorem State.ctxAbsorb_ie : (s.ctxAbsorb alg bs).ie = s.ie := by
  unfold State.ctxAbsorb; split <;> rfl
@[simp] theorem State.ctxAbsorb_status : (s.ctxAbsorb alg bs).status = s.status := by
  unfold State.ctxAbsorb; split <;> rfl
@[simp] theorem State.ctxAbsorb_errcode : (s.ctxAbsorb alg bs).errcode = s.errcode := by
  unfold State.ctxAbsorb; split <;> rfl
@[simp] theorem State.ctxAbsorb_cmdreg : (s.ctxAbsorb alg bs).cmdreg = s.cmdreg := by
  unfold State.ctxAbsorb; split <;> rfl
@[simp] theorem State.ctxAbsorb_result : (s.ctxAbsorb alg bs).result = s.result := by
  unfold State.ctxAbsorb; split <;> rfl
@[simp] theorem State.ctxAbsorb_arg : (s.ctxAbsorb alg bs).arg = s.arg := by
  unfold State.ctxAbsorb; split <;> rfl
@[simp] theorem State.ctxAbsorb_lcmd : (s.ctxAbsorb alg bs).lcmd = s.lcmd := by
  unfold State.ctxAbsorb; split <;> rfl
@[simp] theorem State.ctxAbsorb_larg : (s.ctxAbsorb alg bs).larg = s.larg := by
  unfold State.ctxAbsorb; split <;> rfl
@[simp] theorem State.ctxAbsorb_pending : (s.ctxAbsorb alg bs).pending = s.pending := by
  unfold State.ctxAbsorb; split <;> rfl
@[simp] theorem State.ctxAbsorb_b : (s.ctxAbsorb alg bs).b = s.b := by
  unfold State.ctxAbsorb; split <;> rfl
@[simp] theorem State.ctxAbsorb_aes : (s.ctxAbsorb alg bs).aes = s.aes := by
  unfold State.ctxAbsorb; split <;> rfl
@[simp] theorem State.ctxAbsorb_md5 : (s.ctxAbsorb alg bs).md5 = if alg = 0#2 then absorb md5Compress s.md5 bs else s.md5 := by
  unfold State.ctxAbsorb; split <;> rfl
@[simp] theorem State.ctxAbsorb_sha : (s.ctxAbsorb alg bs).sha = if alg = 0#2 then s.sha else absorb sha256Compress s.sha bs := by
  unfold State.ctxAbsorb; split <;> rfl
@[simp] theorem State.ctxAbsorb_dmem : (s.ctxAbsorb alg bs).dmem = s.dmem := by
  unfold State.ctxAbsorb; split <;> rfl
@[simp] theorem State.ctxAbsorb_rst : (s.ctxAbsorb alg bs).rst = s.rst := by
  unfold State.ctxAbsorb; split <;> rfl
@[simp] theorem State.ctxAbsorb_host : (s.ctxAbsorb alg bs).host = s.host := by
  unfold State.ctxAbsorb; split <;> rfl
@[simp] theorem State.ctxAbsorb_sched : (s.ctxAbsorb alg bs).sched = s.sched := by
  unfold State.ctxAbsorb; split <;> rfl
@[simp] theorem State.ctxAbsorb_rdata : (s.ctxAbsorb alg bs).rdata = s.rdata := by
  unfold State.ctxAbsorb; split <;> rfl
@[simp] theorem State.ctxAbsorb_rng : (s.ctxAbsorb alg bs).rng = s.rng := by
  unfold State.ctxAbsorb; split <;> rfl
@[simp] theorem State.ctxAbsorb_getB (r : RegIdx) : (s.ctxAbsorb alg bs).getB r = s.getB r := by
  unfold State.ctxAbsorb; split <;> rfl
end Ctxabsorb

/-! ### Completion -/

section Complete
variable (s : State) (err : Option ErrKind)
@[simp] theorem complete_ie : (complete err s).ie = s.ie := rfl
@[simp] theorem complete_errcode : (complete err s).errcode = errCode err := rfl
@[simp] theorem complete_cmdreg : (complete err s).cmdreg = s.cmdreg := rfl
@[simp] theorem complete_result : (complete err s).result = s.result := rfl
@[simp] theorem complete_arg : (complete err s).arg = s.arg := rfl
@[simp] theorem complete_lcmd : (complete err s).lcmd = s.lcmd := rfl
@[simp] theorem complete_larg : (complete err s).larg = s.larg := rfl
@[simp] theorem complete_pending : (complete err s).pending = false := rfl
@[simp] theorem complete_b : (complete err s).b = s.b := rfl
@[simp] theorem complete_aes : (complete err s).aes = s.aes := rfl
@[simp] theorem complete_md5 : (complete err s).md5 = s.md5 := rfl
@[simp] theorem complete_sha : (complete err s).sha = s.sha := rfl
@[simp] theorem complete_dmem : (complete err s).dmem = s.dmem := rfl
@[simp] theorem complete_rst : (complete err s).rst = s.rst := rfl
@[simp] theorem complete_host : (complete err s).host = s.host := rfl
@[simp] theorem complete_sched : (complete err s).sched = s.sched := rfl
@[simp] theorem complete_rdata : (complete err s).rdata = s.rdata := rfl
@[simp] theorem complete_rng : (complete err s).rng = s.rng := rfl
@[simp] theorem complete_status_busy : (complete err s).status.busy = false := rfl
@[simp] theorem complete_status_done : (complete err s).status.done = true := rfl
@[simp] theorem complete_status_err : (complete err s).status.err = err.isSome := rfl
@[simp] theorem complete_status_cmdovr : (complete err s).status.cmdovr = s.status.cmdovr := rfl
@[simp] theorem complete_status_lt : (complete err s).status.lt = s.status.lt := rfl
@[simp] theorem complete_status_eq : (complete err s).status.eq = s.status.eq := rfl
@[simp] theorem complete_status_gt : (complete err s).status.gt = s.status.gt := rfl
@[simp] theorem complete_status_noinv : (complete err s).status.noinv = s.status.noinv := rfl
@[simp] theorem complete_status_padbad : (complete err s).status.padbad = s.status.padbad := rfl
@[simp] theorem complete_getB (r : RegIdx) : (complete err s).getB r = s.getB r := rfl
end Complete

/-! ### Command accepted -/

section Acceptcommand
variable (s : State) (w : Word)
@[simp] theorem acceptCommand_ie : (acceptCommand s w).ie = s.ie := rfl
@[simp] theorem acceptCommand_errcode : (acceptCommand s w).errcode = 0 := rfl
@[simp] theorem acceptCommand_cmdreg : (acceptCommand s w).cmdreg = w := rfl
@[simp] theorem acceptCommand_result : (acceptCommand s w).result = s.result := rfl
@[simp] theorem acceptCommand_arg : (acceptCommand s w).arg = s.arg := rfl
@[simp] theorem acceptCommand_lcmd : (acceptCommand s w).lcmd = w := rfl
@[simp] theorem acceptCommand_larg : (acceptCommand s w).larg = s.arg := rfl
@[simp] theorem acceptCommand_pending : (acceptCommand s w).pending = true := rfl
@[simp] theorem acceptCommand_b : (acceptCommand s w).b = s.b := rfl
@[simp] theorem acceptCommand_aes : (acceptCommand s w).aes = s.aes := rfl
@[simp] theorem acceptCommand_md5 : (acceptCommand s w).md5 = s.md5 := rfl
@[simp] theorem acceptCommand_sha : (acceptCommand s w).sha = s.sha := rfl
@[simp] theorem acceptCommand_dmem : (acceptCommand s w).dmem = s.dmem := rfl
@[simp] theorem acceptCommand_rst : (acceptCommand s w).rst = s.rst := rfl
@[simp] theorem acceptCommand_host : (acceptCommand s w).host = s.host := rfl
@[simp] theorem acceptCommand_sched : (acceptCommand s w).sched = s.sched := rfl
@[simp] theorem acceptCommand_rdata : (acceptCommand s w).rdata = s.rdata := rfl
@[simp] theorem acceptCommand_rng : (acceptCommand s w).rng = s.rng := rfl
@[simp] theorem acceptCommand_status_busy : (acceptCommand s w).status.busy = true := rfl
@[simp] theorem acceptCommand_status_done : (acceptCommand s w).status.done = false := rfl
@[simp] theorem acceptCommand_status_err : (acceptCommand s w).status.err = false := rfl
@[simp] theorem acceptCommand_status_cmdovr : (acceptCommand s w).status.cmdovr = s.status.cmdovr := rfl
@[simp] theorem acceptCommand_status_lt : (acceptCommand s w).status.lt = s.status.lt := rfl
@[simp] theorem acceptCommand_status_eq : (acceptCommand s w).status.eq = s.status.eq := rfl
@[simp] theorem acceptCommand_status_gt : (acceptCommand s w).status.gt = s.status.gt := rfl
@[simp] theorem acceptCommand_status_noinv : (acceptCommand s w).status.noinv = s.status.noinv := rfl
@[simp] theorem acceptCommand_status_padbad : (acceptCommand s w).status.padbad = s.status.padbad := rfl
@[simp] theorem acceptCommand_getB (r : RegIdx) : (acceptCommand s w).getB r = s.getB r := rfl
end Acceptcommand

/-! ### STATUS write -/

section Writestatus
variable (s : State) (w : Word)
@[simp] theorem writeStatus_ie : (writeStatus s w).ie = s.ie := rfl
@[simp] theorem writeStatus_errcode : (writeStatus s w).errcode = s.errcode := rfl
@[simp] theorem writeStatus_cmdreg : (writeStatus s w).cmdreg = s.cmdreg := rfl
@[simp] theorem writeStatus_result : (writeStatus s w).result = s.result := rfl
@[simp] theorem writeStatus_arg : (writeStatus s w).arg = s.arg := rfl
@[simp] theorem writeStatus_lcmd : (writeStatus s w).lcmd = s.lcmd := rfl
@[simp] theorem writeStatus_larg : (writeStatus s w).larg = s.larg := rfl
@[simp] theorem writeStatus_pending : (writeStatus s w).pending = s.pending := rfl
@[simp] theorem writeStatus_b : (writeStatus s w).b = s.b := rfl
@[simp] theorem writeStatus_aes : (writeStatus s w).aes = s.aes := rfl
@[simp] theorem writeStatus_md5 : (writeStatus s w).md5 = s.md5 := rfl
@[simp] theorem writeStatus_sha : (writeStatus s w).sha = s.sha := rfl
@[simp] theorem writeStatus_dmem : (writeStatus s w).dmem = s.dmem := rfl
@[simp] theorem writeStatus_rst : (writeStatus s w).rst = s.rst := rfl
@[simp] theorem writeStatus_host : (writeStatus s w).host = s.host := rfl
@[simp] theorem writeStatus_sched : (writeStatus s w).sched = s.sched := rfl
@[simp] theorem writeStatus_rdata : (writeStatus s w).rdata = s.rdata := rfl
@[simp] theorem writeStatus_rng : (writeStatus s w).rng = s.rng := rfl
@[simp] theorem writeStatus_status_busy : (writeStatus s w).status.busy = s.status.busy := rfl
@[simp] theorem writeStatus_status_done : (writeStatus s w).status.done = (s.status.done && !w.getLsbD 1) := rfl
@[simp] theorem writeStatus_status_err : (writeStatus s w).status.err = (s.status.err && !w.getLsbD 2) := rfl
@[simp] theorem writeStatus_status_cmdovr : (writeStatus s w).status.cmdovr = (s.status.cmdovr && !w.getLsbD 3) := rfl
@[simp] theorem writeStatus_status_lt : (writeStatus s w).status.lt = s.status.lt := rfl
@[simp] theorem writeStatus_status_eq : (writeStatus s w).status.eq = s.status.eq := rfl
@[simp] theorem writeStatus_status_gt : (writeStatus s w).status.gt = s.status.gt := rfl
@[simp] theorem writeStatus_status_noinv : (writeStatus s w).status.noinv = s.status.noinv := rfl
@[simp] theorem writeStatus_status_padbad : (writeStatus s w).status.padbad = s.status.padbad := rfl
@[simp] theorem writeStatus_getB (r : RegIdx) : (writeStatus s w).getB r = s.getB r := rfl
end Writestatus

/-! ### Engine reset -/

section Resetengine
variable (s : State) (m : Memory)
@[simp] theorem State.resetEngine_ie : (s.resetEngine m).ie = State.reset.ie := rfl
@[simp] theorem State.resetEngine_status : (s.resetEngine m).status = State.reset.status := rfl
@[simp] theorem State.resetEngine_errcode : (s.resetEngine m).errcode = State.reset.errcode := rfl
@[simp] theorem State.resetEngine_cmdreg : (s.resetEngine m).cmdreg = State.reset.cmdreg := rfl
@[simp] theorem State.resetEngine_result : (s.resetEngine m).result = State.reset.result := rfl
@[simp] theorem State.resetEngine_arg : (s.resetEngine m).arg = State.reset.arg := rfl
@[simp] theorem State.resetEngine_lcmd : (s.resetEngine m).lcmd = State.reset.lcmd := rfl
@[simp] theorem State.resetEngine_larg : (s.resetEngine m).larg = State.reset.larg := rfl
@[simp] theorem State.resetEngine_pending : (s.resetEngine m).pending = State.reset.pending := rfl
@[simp] theorem State.resetEngine_b : (s.resetEngine m).b = State.reset.b := rfl
@[simp] theorem State.resetEngine_aes : (s.resetEngine m).aes = State.reset.aes := rfl
@[simp] theorem State.resetEngine_md5 : (s.resetEngine m).md5 = State.reset.md5 := rfl
@[simp] theorem State.resetEngine_sha : (s.resetEngine m).sha = State.reset.sha := rfl
@[simp] theorem State.resetEngine_dmem : (s.resetEngine m).dmem = m := rfl
@[simp] theorem State.resetEngine_rst : (s.resetEngine m).rst = s.rst := rfl
@[simp] theorem State.resetEngine_host : (s.resetEngine m).host = s.host := rfl
@[simp] theorem State.resetEngine_sched : (s.resetEngine m).sched = s.sched := rfl
@[simp] theorem State.resetEngine_rdata : (s.resetEngine m).rdata = s.rdata := rfl
@[simp] theorem State.resetEngine_rng : (s.resetEngine m).rng = s.rng := rfl
end Resetengine

@[simp] theorem State.resetEngine_getB (s : State) (m : Memory) (r : RegIdx) : (s.resetEngine m).getB r = 0 := by
  obtain ⟨i, hi⟩ := r
  simp only [State.getB, State.resetEngine_b, State.reset, Vector.get_eq_getElem, Vector.getElem_replicate]

end Sys2Proof.Machine
end

