-- ==== Sys2Proof/Laws/Command.lean ====
section
/-! SUPPORT. What the pieces of a command's pseudocode can answer, and for every command the one lemma that says
everything its meaning can do: its successful completion, its errors, its faults. Later proofs cite these and
do not unfold the meanings. -/

namespace Sys2Proof.Machine

/-! ### The pieces -/

theorem Except.bind_eq_ok {ε α β : Type} {x : Except ε α} {f : α → Except ε β} {b : β} :
    (x >>= f) = .ok b ↔ ∃ a, x = .ok a ∧ f a = .ok b := by
  cases x with
  | error e => simp [bind, Except.bind]
  | ok a => simp [bind, Except.bind]

theorem Except.bind_eq_error {ε α β : Type} {x : Except ε α} {f : α → Except ε β} {z : ε} :
    (x >>= f) = .error z ↔ x = .error z ∨ ∃ a, x = .ok a ∧ f a = .error z := by
  cases x with
  | error e => simp [bind, Except.bind]
  | ok a => simp [bind, Except.bind]

@[simp] theorem Except.pure_eq_ok {ε α : Type} {a b : α} : (pure a : Except ε α) = .ok b ↔ a = b := by
  simp [pure, Except.pure]

@[simp] theorem Except.pure_ne_error {ε α : Type} {a : α} {z : ε} : (pure a : Except ε α) = .error z ↔ False := by
  simp [pure, Except.pure]

@[simp] theorem require_eq_ok {c : Prop} [Decidable c] {e : ErrKind} {u : Unit} : require c e = .ok u ↔ c := by
  unfold require; split <;> simp_all

@[simp] theorem require_eq_error {c : Prop} [Decidable c] {e : ErrKind} {z : Stop} :
    require c e = .error z ↔ ¬ c ∧ z = .raise e := by
  unfold require; split <;> simp_all [eq_comm]

@[simp] theorem memRead_eq_ok {s : State} {addr : Word} {n : Nat} {bs : List Byte} :
    memRead s addr n = .ok bs ↔ s.dmem.readBytes? addr.toNat n = some bs := by
  unfold memRead; cases s.dmem.readBytes? addr.toNat n <;> simp

@[simp] theorem memRead_eq_error {s : State} {addr : Word} {n : Nat} {z : Stop} :
    memRead s addr n = .error z ↔ s.dmem.readBytes? addr.toNat n = none ∧ z = .fault .uninitRead := by
  unfold memRead; cases s.dmem.readBytes? addr.toNat n <;> simp [eq_comm]

/-- A command answers a next state exactly by completing: with its writes, or with an error and without them. -/
theorem finish_eq_next {s t : State} {c : Except Stop State} :
    finish s c = .next t ↔
      (∃ u, c = .ok u ∧ t = complete none u) ∨ (∃ e, c = .error (.raise e) ∧ t = complete (some e) s) := by
  unfold finish
  split <;> simp [eq_comm]

theorem finish_eq_fault {s : State} {c : Except Stop State} {f : Fault} :
    finish s c = .fault f ↔ c = .error (.fault f) := by
  unfold finish
  split <;> simp [eq_comm]

/-- No command is refused. -/
theorem finish_ne_refused {s : State} {c : Except Stop State} {r : Refusal} : finish s c ≠ .refused r := by
  unfold finish
  split <;> simp

/-! ### BigInt commands -/

section Next
variable {s t : State}

theorem execNop_next : execNop s = .next t ↔ t = complete none s := by
  simp [execNop, finish_eq_next]

theorem execLdi_next {rd : RegIdx} :
    execLdi rd s = .next t ↔ t = complete none (s.setB rd (sext32 s.larg.arg0)) := by
  simp [execLdi, finish_eq_next]

theorem execMov_next {rd ra : RegIdx} :
    execMov rd ra s = .next t ↔ t = complete none (s.setB rd (s.getB ra)) := by
  simp [execMov, finish_eq_next]

/-- Unfold a meaning to its checks, reads and result. -/
theorem execLdb_next {rd : RegIdx} :
    execLdb rd s = .next t ↔
      (∃ bs, inRange s.larg.arg0 s.larg.arg1.toNat ∧
        s.dmem.readBytes? s.larg.arg0.toNat s.larg.arg1.toNat = some bs ∧ fits (tcDecode bs) ∧
        t = complete none (s.setB rd (tcDecode bs))) ∨
      (¬ inRange s.larg.arg0 s.larg.arg1.toNat ∧ t = complete (some .range) s) ∨
      (∃ bs, inRange s.larg.arg0 s.larg.arg1.toNat ∧
        s.dmem.readBytes? s.larg.arg0.toNat s.larg.arg1.toNat = some bs ∧ ¬ fits (tcDecode bs) ∧
        t = complete (some .capacity) s) := by
  simp only [execLdb, finish_eq_next, Except.bind_eq_ok, Except.bind_eq_error, require_eq_ok, require_eq_error,
    memRead_eq_ok, memRead_eq_error, Except.pure_eq_ok, Except.pure_ne_error]
  grind

theorem execLdu_next {rd : RegIdx} :
    execLdu rd s = .next t ↔
      (∃ bs, inRange s.larg.arg0 s.larg.arg1.toNat ∧
        s.dmem.readBytes? s.larg.arg0.toNat s.larg.arg1.toNat = some bs ∧ fits (os2ip bs) ∧
        t = complete none (s.setB rd (os2ip bs))) ∨
      (¬ inRange s.larg.arg0 s.larg.arg1.toNat ∧ t = complete (some .range) s) ∨
      (∃ bs, inRange s.larg.arg0 s.larg.arg1.toNat ∧
        s.dmem.readBytes? s.larg.arg0.toNat s.larg.arg1.toNat = some bs ∧ ¬ fits (os2ip bs) ∧
        t = complete (some .capacity) s) := by
  simp only [execLdu, finish_eq_next, Except.bind_eq_ok, Except.bind_eq_error, require_eq_ok, require_eq_error,
    memRead_eq_ok, memRead_eq_error, Except.pure_eq_ok, Except.pure_ne_error]
  grind

theorem execStb_next {ra : RegIdx} :
    execStb ra s = .next t ↔
      (inRange s.larg.arg2 (tcLength (s.getB ra)) ∧
        t = complete none ((s.memWrite s.larg.arg2 (tcEncode (s.getB ra))).setResult (tcLength (s.getB ra)))) ∨
      (¬ inRange s.larg.arg2 (tcLength (s.getB ra)) ∧ t = complete (some .range) s) := by
  simp only [execStb, finish_eq_next, Except.bind_eq_ok, Except.bind_eq_error, require_eq_ok, require_eq_error,
    Except.pure_eq_ok, Except.pure_ne_error]
  grind

theorem execStu_next {ra : RegIdx} :
    execStu ra s = .next t ↔
      (inRange s.larg.arg2 s.larg.arg1.toNat ∧ (0 ≤ s.getB ra ∧ s.getB ra < 256 ^ s.larg.arg1.toNat) ∧
        t = complete none ((s.memWrite s.larg.arg2 (i2osp (s.getB ra).toNat s.larg.arg1.toNat)).setResult
          s.larg.arg1.toNat)) ∨
      (¬ (inRange s.larg.arg2 s.larg.arg1.toNat ∧ (0 ≤ s.getB ra ∧ s.getB ra < 256 ^ s.larg.arg1.toNat)) ∧
        t = complete (some .range) s) := by
  simp only [execStu, finish_eq_next, Except.bind_eq_ok, Except.bind_eq_error, require_eq_ok, require_eq_error,
    Except.pure_eq_ok, Except.pure_ne_error]
  grind

theorem finish_writeFitting_next {rd : RegIdx} {v : Int} :
    finish s (writeFitting rd v s) = .next t ↔
      (fits v ∧ t = complete none (s.setB rd v)) ∨ (¬ fits v ∧ t = complete (some .capacity) s) := by
  simp only [writeFitting, finish_eq_next, Except.bind_eq_ok, Except.bind_eq_error, require_eq_ok, require_eq_error,
    Except.pure_eq_ok, Except.pure_ne_error]
  grind

theorem execAdd_next {rd ra rb : RegIdx} :
    execAdd rd ra rb s = .next t ↔
      (fits (s.getB ra + s.getB rb) ∧ t = complete none (s.setB rd (s.getB ra + s.getB rb))) ∨
      (¬ fits (s.getB ra + s.getB rb) ∧ t = complete (some .capacity) s) := by
  rw [execAdd, finish_writeFitting_next]

theorem execSub_next {rd ra rb : RegIdx} :
    execSub rd ra rb s = .next t ↔
      (fits (s.getB ra - s.getB rb) ∧ t = complete none (s.setB rd (s.getB ra - s.getB rb))) ∨
      (¬ fits (s.getB ra - s.getB rb) ∧ t = complete (some .capacity) s) := by
  rw [execSub, finish_writeFitting_next]

theorem execMul_next {rd ra rb : RegIdx} :
    execMul rd ra rb s = .next t ↔
      (fits (s.getB ra * s.getB rb) ∧ t = complete none (s.setB rd (s.getB ra * s.getB rb))) ∨
      (¬ fits (s.getB ra * s.getB rb) ∧ t = complete (some .capacity) s) := by
  rw [execMul, finish_writeFitting_next]

theorem execDiv_next {rd ra rb : RegIdx} :
    execDiv rd ra rb s = .next t ↔
      (s.getB rb ≠ 0 ∧ t = complete none (s.setB rd (tdivQuot (s.getB ra) (s.getB rb)))) ∨
      (s.getB rb = 0 ∧ t = complete (some .divisionByZero) s) := by
  simp only [execDiv, finish_eq_next, Except.bind_eq_ok, Except.bind_eq_error, require_eq_ok, require_eq_error,
    Except.pure_eq_ok, Except.pure_ne_error]
  grind

theorem execRem_next {rd ra rb : RegIdx} :
    execRem rd ra rb s = .next t ↔
      (s.getB rb ≠ 0 ∧ t = complete none (s.setB rd (tdivRem (s.getB ra) (s.getB rb)))) ∨
      (s.getB rb = 0 ∧ t = complete (some .divisionByZero) s) := by
  simp only [execRem, finish_eq_next, Except.bind_eq_ok, Except.bind_eq_error, require_eq_ok, require_eq_error,
    Except.pure_eq_ok, Except.pure_ne_error]
  grind

theorem execDivrem_next {rd ra rb rc : RegIdx} :
    execDivrem rd ra rb rc s = .next t ↔
      (rd ≠ rc ∧ s.getB rb ≠ 0 ∧
        t = complete none ((s.setB rd (tdivQuot (s.getB ra) (s.getB rb))).setB rc
          (tdivRem (s.getB ra) (s.getB rb)))) ∨
      (rd = rc ∧ t = complete (some .illegalCommand) s) ∨
      (rd ≠ rc ∧ s.getB rb = 0 ∧ t = complete (some .divisionByZero) s) := by
  simp only [execDivrem, finish_eq_next, Except.bind_eq_ok, Except.bind_eq_error, require_eq_ok, require_eq_error,
    Except.pure_eq_ok, Except.pure_ne_error]
  grind

theorem execMod_next {rd ra rb : RegIdx} :
    execMod rd ra rb s = .next t ↔
      (s.getB rb ≠ 0 ∧ fits (modop (s.getB ra) (s.getB rb)) ∧
        t = complete none (s.setB rd (modop (s.getB ra) (s.getB rb)))) ∨
      (s.getB rb = 0 ∧ t = complete (some .divisionByZero) s) ∨
      (s.getB rb ≠ 0 ∧ ¬ fits (modop (s.getB ra) (s.getB rb)) ∧ t = complete (some .capacity) s) := by
  simp only [execMod, writeFitting, finish_eq_next, Except.bind_eq_ok, Except.bind_eq_error, require_eq_ok,
    require_eq_error, Except.pure_eq_ok, Except.pure_ne_error]
  grind

theorem execModpow_next {rd ra rb rc : RegIdx} :
    execModpow rd ra rb rc s = .next t ↔
      (0 < s.getB rc ∧ 0 ≤ s.getB rb ∧
        t = complete none (s.setB rd (modPow (s.getB ra) (s.getB rb).toNat (s.getB rc)))) ∨
      (¬ (0 < s.getB rc ∧ 0 ≤ s.getB rb) ∧ t = complete (some .arithmetic) s) := by
  simp only [execModpow, finish_eq_next, Except.bind_eq_ok, Except.bind_eq_error, require_eq_ok, require_eq_error,
    Except.pure_eq_ok, Except.pure_ne_error]
  grind

theorem execModinv_next {rd ra rb : RegIdx} :
    execModinv rd ra rb s = .next t ↔
      (0 < s.getB rb ∧ modInverse (s.getB ra) (s.getB rb) = none ∧ t = complete none (s.setNoinv true)) ∨
      (∃ x, 0 < s.getB rb ∧ modInverse (s.getB ra) (s.getB rb) = some x ∧
        t = complete none ((s.setB rd x).setNoinv false)) ∨
      (¬ 0 < s.getB rb ∧ t = complete (some .arithmetic) s) := by
  simp only [execModinv, finish_eq_next, Except.bind_eq_ok, Except.bind_eq_error, require_eq_ok, require_eq_error]
  cases modInverse (s.getB ra) (s.getB rb) <;> simp

theorem execCmp_next {ra rb : RegIdx} :
    execCmp ra rb s = .next t ↔
      t = complete none
        ((s.setCmpFlags (s.getB ra) (s.getB rb)).setResult (cmpResult (s.getB ra) (s.getB rb))) := by
  simp [execCmp, finish_eq_next]

theorem execBitlen_next {ra : RegIdx} :
    execBitlen ra s = .next t ↔ t = complete none (s.setResult (bitlen (s.getB ra).natAbs)) := by
  simp [execBitlen, finish_eq_next]

/-! ### RSA commands -/

/-- The padding string: `n` draws, or the host's bytes, none of them zero. -/
theorem paddingString_eq_ok {pssrc : Bool} {n : Nat} {p : List Byte × Nat} :
    paddingString pssrc s n = .ok p ↔
      (pssrc = false ∧ p = (drawBytes s.rng n, s.rng + n)) ∨
      (pssrc = true ∧ inRange s.larg.arg3 n ∧ s.dmem.readBytes? s.larg.arg3.toNat n = some p.1 ∧
        (∀ x ∈ p.1, x ≠ 0x00) ∧ p.2 = s.rng) := by
  obtain ⟨ps, r⟩ := p
  cases pssrc
  · rw [paddingString, if_neg (by simp)]
    simp only [Except.ok.injEq, true_and, Bool.false_eq_true, false_and, or_false]
    exact eq_comm
  · rw [paddingString, if_pos rfl, Except.bind_eq_ok]
    simp only [hostPadding, Except.bind_eq_ok, require_eq_ok, memRead_eq_ok, Except.pure_eq_ok]
    grind

theorem paddingString_eq_error {pssrc : Bool} {n : Nat} {z : Stop} :
    paddingString pssrc s n = .error z ↔ pssrc = true ∧
      ((¬ inRange s.larg.arg3 n ∧ z = .raise .range) ∨
       (inRange s.larg.arg3 n ∧ s.dmem.readBytes? s.larg.arg3.toNat n = none ∧ z = .fault .uninitRead) ∨
       (∃ ps, inRange s.larg.arg3 n ∧ s.dmem.readBytes? s.larg.arg3.toNat n = some ps ∧
          ¬ (∀ x ∈ ps, x ≠ 0x00) ∧ z = .raise .psZero)) := by
  cases pssrc
  · simp [paddingString]
  · rw [paddingString, if_pos rfl, Except.bind_eq_error]
    simp only [hostPadding, Except.bind_eq_error, require_eq_ok, require_eq_error, memRead_eq_ok, memRead_eq_error,
      Except.pure_ne_error]
    grind

/-- RSAENC's checks in order, then its result or the error of the first check that fails. -/
theorem execRsaenc_next {ra rb : RegIdx} {pssrc : Bool} :
    execRsaenc ra rb pssrc s = .next t ↔
      (∃ ps m, (0 < s.getB ra ∧ 0 ≤ s.getB rb) ∧
        (inRange s.larg.arg0 s.larg.arg1.toNat ∧ inRange s.larg.arg2 (keyLen (s.getB ra))) ∧
        s.larg.arg1.toNat + 11 ≤ keyLen (s.getB ra) ∧
        paddingString pssrc s (keyLen (s.getB ra) - s.larg.arg1.toNat - 3) = .ok ps ∧
        s.dmem.readBytes? s.larg.arg0.toNat s.larg.arg1.toNat = some m ∧
        t = complete none (((s.memWrite s.larg.arg2 (i2osp (modPow (os2ip (pkcs1Block ps.1 m)) (s.getB rb).toNat
            (s.getB ra)).toNat (keyLen (s.getB ra)))).setResult (keyLen (s.getB ra))).setRng ps.2)) ∨
      (¬ (0 < s.getB ra ∧ 0 ≤ s.getB rb) ∧ t = complete (some .arithmetic) s) ∨
      ((0 < s.getB ra ∧ 0 ≤ s.getB rb) ∧
        ¬ (inRange s.larg.arg0 s.larg.arg1.toNat ∧ inRange s.larg.arg2 (keyLen (s.getB ra))) ∧
        t = complete (some .range) s) ∨
      ((0 < s.getB ra ∧ 0 ≤ s.getB rb) ∧
        (inRange s.larg.arg0 s.larg.arg1.toNat ∧ inRange s.larg.arg2 (keyLen (s.getB ra))) ∧
        ¬ s.larg.arg1.toNat + 11 ≤ keyLen (s.getB ra) ∧ t = complete (some .dataTooLong) s) ∨
      (∃ e, (0 < s.getB ra ∧ 0 ≤ s.getB rb) ∧
        (inRange s.larg.arg0 s.larg.arg1.toNat ∧ inRange s.larg.arg2 (keyLen (s.getB ra))) ∧
        s.larg.arg1.toNat + 11 ≤ keyLen (s.getB ra) ∧
        paddingString pssrc s (keyLen (s.getB ra) - s.larg.arg1.toNat - 3) = .error (.raise e) ∧
        t = complete (some e) s) := by
  simp only [execRsaenc, finish_eq_next, Except.bind_eq_ok, Except.bind_eq_error, require_eq_ok, require_eq_error,
    memRead_eq_ok, memRead_eq_error, Except.pure_eq_ok, Except.pure_ne_error]
  constructor
  · rintro (⟨u, ⟨_, h1, _, h2, _, h3, ps, h4, m, h5, rfl⟩, rfl⟩ | ⟨e, h, rfl⟩)
    · exact .inl ⟨ps, m, h1, h2, h3, h4, h5, rfl⟩
    · rcases h with ⟨h, he⟩ | ⟨_, h1, h⟩
      · cases he; exact .inr (.inl ⟨h, rfl⟩)
      rcases h with ⟨h, he⟩ | ⟨_, h2, h⟩
      · cases he; exact .inr (.inr (.inl ⟨h1, h, rfl⟩))
      rcases h with ⟨h, he⟩ | ⟨_, h3, h⟩
      · cases he; exact .inr (.inr (.inr (.inl ⟨h1, h2, h, rfl⟩)))
      rcases h with h | ⟨ps, _, h⟩
      · exact .inr (.inr (.inr (.inr ⟨e, h1, h2, h3, h, rfl⟩)))
      · rcases h with ⟨_, he⟩ | ⟨_, _, h⟩
        · cases he
        · exact h.elim
  · rintro (⟨ps, m, h1, h2, h3, h4, h5, rfl⟩ | ⟨h, rfl⟩ | ⟨h1, h, rfl⟩ | ⟨h1, h2, h, rfl⟩ | ⟨e, h1, h2, h3, h, rfl⟩)
    · exact .inl ⟨_, ⟨(), h1, (), h2, (), h3, ps, h4, m, h5, rfl⟩, rfl⟩
    · exact .inr ⟨_, .inl ⟨h, rfl⟩, rfl⟩
    · exact .inr ⟨_, .inr ⟨(), h1, .inl ⟨h, rfl⟩⟩, rfl⟩
    · exact .inr ⟨_, .inr ⟨(), h1, .inr ⟨(), h2, .inl ⟨h, rfl⟩⟩⟩, rfl⟩
    · exact .inr ⟨_, .inr ⟨(), h1, .inr ⟨(), h2, .inr ⟨(), h3, .inl h⟩⟩⟩, rfl⟩

/-- RSADEC's checks in order, then its result or the error of the first check that fails. -/
theorem execRsadec_next {ra rb : RegIdx} :
    execRsadec ra rb s = .next t ↔
      (∃ bs m, (0 < s.getB ra ∧ 0 ≤ s.getB rb) ∧
        (inRange s.larg.arg0 s.larg.arg1.toNat ∧ inRange s.larg.arg2 (keyLen (s.getB ra) - 11)) ∧
        s.dmem.readBytes? s.larg.arg0.toNat s.larg.arg1.toNat = some bs ∧
        pkcs1Unpad (i2osp (modPow (os2ip bs) (s.getB rb).toNat (s.getB ra)).toNat (keyLen (s.getB ra))) = some m ∧
        t = complete none ((s.memWrite s.larg.arg2 m).setResult m.length)) ∨
      (¬ (0 < s.getB ra ∧ 0 ≤ s.getB rb) ∧ t = complete (some .arithmetic) s) ∨
      ((0 < s.getB ra ∧ 0 ≤ s.getB rb) ∧
        ¬ (inRange s.larg.arg0 s.larg.arg1.toNat ∧ inRange s.larg.arg2 (keyLen (s.getB ra) - 11)) ∧
        t = complete (some .range) s) ∨
      (∃ bs, (0 < s.getB ra ∧ 0 ≤ s.getB rb) ∧
        (inRange s.larg.arg0 s.larg.arg1.toNat ∧ inRange s.larg.arg2 (keyLen (s.getB ra) - 11)) ∧
        s.dmem.readBytes? s.larg.arg0.toNat s.larg.arg1.toNat = some bs ∧
        pkcs1Unpad (i2osp (modPow (os2ip bs) (s.getB rb).toNat (s.getB ra)).toNat (keyLen (s.getB ra))) = none ∧
        t = complete (some .invalidPadding) s) := by
  simp only [execRsadec, finish_eq_next, Except.bind_eq_ok, Except.bind_eq_error, require_eq_ok, require_eq_error,
    memRead_eq_ok, memRead_eq_error]
  constructor
  · rintro (⟨u, ⟨_, h1, _, h2, bs, h3, h4⟩, rfl⟩ | ⟨e, h, rfl⟩)
    · split at h4
      · cases h4
      · next m hm => simp only [Except.pure_eq_ok] at h4; subst h4; exact .inl ⟨bs, m, h1, h2, h3, hm, rfl⟩
    · rcases h with ⟨h, he⟩ | ⟨_, h1, h⟩
      · cases he; exact .inr (.inl ⟨h, rfl⟩)
      · rcases h with ⟨h, he⟩ | ⟨_, h2, h⟩
        · cases he; exact .inr (.inr (.inl ⟨h1, h, rfl⟩))
        · rcases h with ⟨h, he⟩ | ⟨bs, h3, h⟩
          · cases he
          · split at h
            · next hn => cases h; exact .inr (.inr (.inr ⟨bs, h1, h2, h3, hn, rfl⟩))
            · simp at h
  · rintro (⟨bs, m, h1, h2, h3, h4, rfl⟩ | ⟨h, rfl⟩ | ⟨h1, h, rfl⟩ | ⟨bs, h1, h2, h3, h4, rfl⟩)
    · exact .inl ⟨_, ⟨(), h1, (), h2, bs, h3, by rw [h4]; rfl⟩, rfl⟩
    · exact .inr ⟨_, .inl ⟨h, rfl⟩, rfl⟩
    · exact .inr ⟨_, .inr ⟨(), h1, .inl ⟨h, rfl⟩⟩, rfl⟩
    · exact .inr ⟨_, .inr ⟨(), h1, .inr ⟨(), h2, .inr ⟨bs, h3, by rw [h4]⟩⟩⟩, rfl⟩

/-! ### AES commands -/

theorem execAeskey_next :
    execAeskey s = .next t ↔
      (∃ key, (s.larg.arg1.toNat = 16 ∨ s.larg.arg1.toNat = 24 ∨ s.larg.arg1.toNat = 32) ∧
        inRange s.larg.arg0 s.larg.arg1.toNat ∧
        s.dmem.readBytes? s.larg.arg0.toNat s.larg.arg1.toNat = some key ∧ t = complete none (s.loadKey key)) ∨
      (¬ (s.larg.arg1.toNat = 16 ∨ s.larg.arg1.toNat = 24 ∨ s.larg.arg1.toNat = 32) ∧
        t = complete (some .invalidKeyLength) s) ∨
      ((s.larg.arg1.toNat = 16 ∨ s.larg.arg1.toNat = 24 ∨ s.larg.arg1.toNat = 32) ∧
        ¬ inRange s.larg.arg0 s.larg.arg1.toNat ∧ t = complete (some .range) s) := by
  simp only [execAeskey, finish_eq_next, Except.bind_eq_ok, Except.bind_eq_error, require_eq_ok, require_eq_error,
    memRead_eq_ok, memRead_eq_error, Except.pure_eq_ok, Except.pure_ne_error]
  grind

theorem execAesiv_next :
    execAesiv s = .next t ↔
      (∃ iv, inRange s.larg.arg0 16 ∧ s.dmem.readBytes? s.larg.arg0.toNat 16 = some iv ∧
        t = complete none (s.loadIv iv)) ∨
      (¬ inRange s.larg.arg0 16 ∧ t = complete (some .range) s) := by
  simp only [execAesiv, finish_eq_next, Except.bind_eq_ok, Except.bind_eq_error, require_eq_ok, require_eq_error,
    memRead_eq_ok, memRead_eq_error, Except.pure_eq_ok, Except.pure_ne_error]
  grind

/-- The checks AESCRYPT makes before it reads, in order (42_aes.md R178). -/
abbrev aescryptChecks (dec cbc pad strict : Bool) (s : State) : Prop :=
  (strict = true → dec = true ∧ pad = true) ∧ s.aes.keyValid = true ∧ (cbc = true → s.aes.ivValid = true) ∧
    inRange s.larg.arg0 s.larg.arg1.toNat ∧ ((dec = true ∨ pad = false) → s.larg.arg1.toNat % 16 = 0) ∧
    inRange s.larg.arg2 (aesOutMax dec pad s.larg.arg1.toNat)

/-- AESCRYPT runs when all its checks hold and its input can be read. -/
theorem execAescrypt_next_of_checks {dec cbc pad strict : Bool} {xs : List Byte}
    (hc : aescryptChecks dec cbc pad strict s)
    (hx : s.dmem.readBytes? s.larg.arg0.toNat s.larg.arg1.toNat = some xs) :
    execAescrypt dec cbc pad strict s =
      match s.aes.crypt dec cbc pad strict xs with
      | none => .next (complete (some .invalidPadding) s)
      | some y => .next (complete none (((s.memWrite s.larg.arg2 y.1).setPadbad y.2).setResult y.1.length)) := by
  obtain ⟨h1, h2, h3, h4, h5, h6⟩ := hc
  have hr : memRead s s.larg.arg0 s.larg.arg1.toNat = .ok xs := memRead_eq_ok.mpr hx
  simp only [execAescrypt, require, if_pos h1, if_pos h2, if_pos h3, if_pos h4, if_pos h5, if_pos h6, hr, bind,
    Except.bind]
  cases s.aes.crypt dec cbc pad strict xs <;> rfl

/-- AESCRYPT's next state: its result, or an error with nothing written. -/
theorem execAescrypt_cases {dec cbc pad strict : Bool} (h : execAescrypt dec cbc pad strict s = .next t) :
    (∃ xs y, aescryptChecks dec cbc pad strict s ∧
      s.dmem.readBytes? s.larg.arg0.toNat s.larg.arg1.toNat = some xs ∧
      s.aes.crypt dec cbc pad strict xs = some y ∧
      t = complete none (((s.memWrite s.larg.arg2 y.1).setPadbad y.2).setResult y.1.length)) ∨
    (∃ e, t = complete (some e) s ∧
      ((e = .illegalCommand ∧ ¬ (strict = true → dec = true ∧ pad = true)) ∨ e = .noKey ∨ e = .noIv ∨ e = .range ∨
        e = .invalidCiphertextLength ∨ e = .invalidPadding)) := by
  simp only [execAescrypt, finish_eq_next, Except.bind_eq_ok, Except.bind_eq_error, require_eq_ok, require_eq_error,
    memRead_eq_ok, memRead_eq_error] at h
  rcases h with ⟨u, ⟨_, h1, _, h2, _, h3, _, h4, _, h5, _, h6, xs, hx, hu⟩, rfl⟩ | ⟨e, h, rfl⟩
  · left
    split at hu
    · cases hu
    · next y hy =>
      simp only [Except.pure_eq_ok] at hu
      subst hu
      exact ⟨xs, y, ⟨h1, h2, h3, h4, h5, h6⟩, hx, hy, rfl⟩
  · right
    refine ⟨e, rfl, ?_⟩
    rcases h with ⟨hn, he⟩ | ⟨_, _, h⟩
    · cases he; exact .inl ⟨rfl, hn⟩
    rcases h with ⟨_, he⟩ | ⟨_, _, h⟩
    · cases he; simp
    rcases h with ⟨_, he⟩ | ⟨_, _, h⟩
    · cases he; simp
    rcases h with ⟨_, he⟩ | ⟨_, _, h⟩
    · cases he; simp
    rcases h with ⟨_, he⟩ | ⟨_, _, h⟩
    · cases he; simp
    rcases h with ⟨_, he⟩ | ⟨_, _, h⟩
    · cases he; simp
    rcases h with ⟨_, he⟩ | ⟨xs, _, h⟩
    · cases he
    split at h
    · cases h; simp
    · simp at h

/-! ### Hash commands -/

theorem execHinit_next {alg : BitVec 2} :
    execHinit alg s = .next t ↔
      ((alg = 0#2 ∨ alg = 1#2) ∧ t = complete none (s.ctxInit alg)) ∨
      (¬ (alg = 0#2 ∨ alg = 1#2) ∧ t = complete (some .unsupportedAlgorithm) s) := by
  simp only [execHinit, requireAlg, finish_eq_next, Except.bind_eq_ok, Except.bind_eq_error, require_eq_ok,
    require_eq_error, Except.pure_eq_ok, Except.pure_ne_error]
  grind

theorem execHupdate_next {alg : BitVec 2} :
    execHupdate alg s = .next t ↔
      (∃ bs, (alg = 0#2 ∨ alg = 1#2) ∧ inRange s.larg.arg0 s.larg.arg1.toNat ∧
        s.dmem.readBytes? s.larg.arg0.toNat s.larg.arg1.toNat = some bs ∧ t = complete none (s.ctxAbsorb alg bs)) ∨
      (¬ (alg = 0#2 ∨ alg = 1#2) ∧ t = complete (some .unsupportedAlgorithm) s) ∨
      ((alg = 0#2 ∨ alg = 1#2) ∧ ¬ inRange s.larg.arg0 s.larg.arg1.toNat ∧ t = complete (some .range) s) := by
  simp only [execHupdate, requireAlg, finish_eq_next, Except.bind_eq_ok, Except.bind_eq_error, require_eq_ok,
    require_eq_error, memRead_eq_ok, memRead_eq_error, Except.pure_eq_ok, Except.pure_ne_error]
  grind

theorem execHfinal_next {alg : BitVec 2} :
    execHfinal alg s = .next t ↔
      ((alg = 0#2 ∨ alg = 1#2) ∧ inRange s.larg.arg2 (digestLen alg) ∧
        t = complete none (((s.memWrite s.larg.arg2 (s.ctxDigest alg)).ctxInit alg).setResult (digestLen alg))) ∨
      (¬ (alg = 0#2 ∨ alg = 1#2) ∧ t = complete (some .unsupportedAlgorithm) s) ∨
      ((alg = 0#2 ∨ alg = 1#2) ∧ ¬ inRange s.larg.arg2 (digestLen alg) ∧ t = complete (some .range) s) := by
  simp only [execHfinal, requireAlg, finish_eq_next, Except.bind_eq_ok, Except.bind_eq_error, require_eq_ok,
    require_eq_error, Except.pure_eq_ok, Except.pure_ne_error]
  grind

end Next

end Sys2Proof.Machine
end

