-- ==== Sys2Proof/Laws/Decode.lean ====
section
/-! SUPPORT. The fields of a packed word, and a word from its fields (30_encoding.md R81). -/

namespace Sys2Proof

section Pack
variable (fn : BitVec 8) (rc rb ra rd : RegIdx) (op : BitVec 8)

/-- The packed word as a number. -/
theorem packWord_toNat : (packWord fn rc rb ra rd op).toNat =
    ((((fn.toNat * 16 + rc.val) * 16 + rb.val) * 16 + ra.val) * 16 + rd.val) * 256 + op.toNat := by
  have h1 := rc.isLt
  have h2 := rb.isLt
  have h3 := ra.isLt
  have h4 := rd.isLt
  have h5 := op.isLt
  have key (x y k : Nat) (hy : y < 2 ^ k) : (x <<< k) ||| y = x * 2 ^ k + y := by
    rw [Nat.shiftLeft_eq, Nat.mul_comm, Nat.two_pow_add_eq_or_of_lt hy]
  have f (r : RegIdx) : (BitVec.ofFin (w := 4) r).toNat = r.val := rfl
  simp only [packWord, BitVec.toNat_append, f]
  rw [key _ _ 8 (by omega), key _ _ 4 (by omega), key _ _ 4 (by omega), key _ _ 4 (by omega), key _ _ 4 (by omega)]
  norm_num

theorem fieldOp_packWord : fieldOp (packWord fn rc rb ra rd op) = op := by
  apply BitVec.eq_of_toNat_eq
  have h5 := op.isLt
  simp only [fieldOp, BitVec.extractLsb'_toNat, packWord_toNat, Nat.shiftRight_zero]
  omega

theorem fieldRd_packWord : fieldRd (packWord fn rc rb ra rd op) = rd := by
  apply Fin.ext
  have h5 := op.isLt
  have h4 := rd.isLt
  change ((packWord fn rc rb ra rd op).extractLsb' 8 4).toNat = rd.val
  simp only [BitVec.extractLsb'_toNat, packWord_toNat, Nat.shiftRight_eq_div_pow]
  omega

theorem fieldRa_packWord : fieldRa (packWord fn rc rb ra rd op) = ra := by
  apply Fin.ext
  have h5 := op.isLt
  have h4 := rd.isLt
  have h3 := ra.isLt
  change ((packWord fn rc rb ra rd op).extractLsb' 12 4).toNat = ra.val
  simp only [BitVec.extractLsb'_toNat, packWord_toNat, Nat.shiftRight_eq_div_pow]
  omega

theorem fieldRb_packWord : fieldRb (packWord fn rc rb ra rd op) = rb := by
  apply Fin.ext
  have h5 := op.isLt
  have h4 := rd.isLt
  have h3 := ra.isLt
  have h2 := rb.isLt
  change ((packWord fn rc rb ra rd op).extractLsb' 16 4).toNat = rb.val
  simp only [BitVec.extractLsb'_toNat, packWord_toNat, Nat.shiftRight_eq_div_pow]
  omega

theorem fieldRc_packWord : fieldRc (packWord fn rc rb ra rd op) = rc := by
  apply Fin.ext
  have h5 := op.isLt
  have h4 := rd.isLt
  have h3 := ra.isLt
  have h2 := rb.isLt
  have h1 := rc.isLt
  change ((packWord fn rc rb ra rd op).extractLsb' 20 4).toNat = rc.val
  simp only [BitVec.extractLsb'_toNat, packWord_toNat, Nat.shiftRight_eq_div_pow]
  omega

theorem fieldFn_packWord : fieldFn (packWord fn rc rb ra rd op) = fn := by
  apply BitVec.eq_of_toNat_eq
  have h5 := op.isLt
  have h4 := rd.isLt
  have h3 := ra.isLt
  have h2 := rb.isLt
  have h1 := rc.isLt
  have h0 := fn.isLt
  simp only [fieldFn, BitVec.extractLsb'_toNat, packWord_toNat, Nat.shiftRight_eq_div_pow]
  omega

/-- Decoding a packed word is decoding its fields. -/
theorem decode_packWord : decode (packWord fn rc rb ra rd op) = decodeFields op rd ra rb rc fn := by
  rw [decode, fieldOp_packWord, fieldRd_packWord, fieldRa_packWord, fieldRb_packWord, fieldRc_packWord,
    fieldFn_packWord]

end Pack

/-- Every word is packed from its fields: no bit of a word stands outside them. -/
theorem packWord_fields (w : Word) :
    packWord (fieldFn w) (fieldRc w) (fieldRb w) (fieldRa w) (fieldRd w) (fieldOp w) = w := by
  apply BitVec.eq_of_toNat_eq
  have hw := w.isLt
  have f (k : Nat) : ((w.extractLsb' k 4).toFin : Nat) = (w.extractLsb' k 4).toNat := rfl
  simp only [packWord_toNat, fieldFn, fieldRc, fieldRb, fieldRa, fieldRd, fieldOp, f, BitVec.extractLsb'_toNat,
    Nat.shiftRight_eq_div_pow]
  omega

theorem legalOr_eq_ok {p : Prop} [Decidable p] {i j : Instr} : legalOr p i = .ok j ↔ p ∧ i = j := by
  unfold legalOr; split <;> simp_all

theorem legalOr_eq_error {p : Prop} [Decidable p] {i : Instr} {e : ErrKind} :
    legalOr p i = .error e ↔ ¬ p ∧ e = .illegalCommand := by
  unfold legalOr; split <;> simp_all [eq_comm]

/-- FN of AESCRYPT has DEC, CBC, PAD, STRICT in bits 0 to 3 and zeros above (30_encoding.md R85). -/
theorem aescryptFn_bits : ∀ dec cbc pad strict : Bool,
    (aescryptFn dec cbc pad strict).getLsbD 0 = dec ∧ (aescryptFn dec cbc pad strict).getLsbD 1 = cbc ∧
    (aescryptFn dec cbc pad strict).getLsbD 2 = pad ∧ (aescryptFn dec cbc pad strict).getLsbD 3 = strict ∧
    (aescryptFn dec cbc pad strict).extractLsb' 4 4 = 0 := by
  decide

/-- FN of a hash command has ALG in bits 1:0 and zeros above (30_encoding.md R84). -/
theorem hashFn_bits : ∀ alg : BitVec 2,
    (hashFn alg).extractLsb' 0 2 = alg ∧ (hashFn alg).extractLsb' 2 6 = 0 := by
  decide

/-- FN of RSAENC has PSSRC in bit 0 and zeros above (30_encoding.md R86). -/
theorem rsaencFn_bits : ∀ pssrc : Bool,
    (rsaencFn pssrc).getLsbD 0 = pssrc ∧ (rsaencFn pssrc).extractLsb' 1 7 = 0 := by
  decide

/-- FN of AESCRYPT from its bits. -/
theorem aescryptFn_of_bits : ∀ fn : BitVec 8, fn.extractLsb' 4 4 = 0 →
    aescryptFn (fn.getLsbD 0) (fn.getLsbD 1) (fn.getLsbD 2) (fn.getLsbD 3) = fn := by
  decide

/-- FN of a hash command from its bits. -/
theorem hashFn_of_bits : ∀ fn : BitVec 8, fn.extractLsb' 2 6 = 0 → hashFn (fn.extractLsb' 0 2) = fn := by
  decide

/-- FN of RSAENC from its bits. -/
theorem rsaencFn_of_bits : ∀ fn : BitVec 8, fn.extractLsb' 1 7 = 0 → rsaencFn (fn.getLsbD 0) = fn := by
  decide

/-- What holds of both branches holds of an if. -/
theorem ite_ind {α : Type} {P : α → Prop} {c : Prop} [Decidable c] {a b : α} (hb : ¬ c → P b) (ha : c → P a) :
    P (if c then a else b) := by
  split
  · exact ha ‹_›
  · exact hb ‹_›

theorem decodeHash_eq_error {mk : BitVec 2 → Instr} {rd ra rb rc : RegIdx} {fn : BitVec 8} {e : ErrKind}
    (h : decodeHash mk rd ra rb rc fn = .error e) : e = .illegalCommand ∨ e = .unsupportedAlgorithm := by
  unfold decodeHash at h
  split at h
  · cases h; exact .inl rfl
  · split at h
    · cases h
    · cases h; exact .inr rfl

/-- The errors a word can decode to. -/
abbrev DecodeErrors (r : Except ErrKind Instr) : Prop :=
  ∀ e, r = .error e → e = .illegalCommand ∨ e = .unsupportedAlgorithm

/-- Decoding fails with ILLEGAL_COMMAND or UNSUPPORTED_ALGORITHM only (30_encoding.md R91). -/
theorem decodeFields_error (op : BitVec 8) (rd ra rb rc : RegIdx) (fn : BitVec 8) :
    DecodeErrors (decodeFields op rd ra rb rc fn) := by
  unfold decodeFields decodeAescrypt
  iterate 26 refine ite_ind (P := DecodeErrors) (fun _ => ?_) fun _ => ?_
  all_goals intro e h
  all_goals first
    | exact .inl (legalOr_eq_error.mp h).2
    | exact decodeHash_eq_error h
    | (cases h; exact .inl rfl)

/-! ### Words from numbers (Safety.lean) -/

/-- The word with the given fields as numbers is the packed word. -/
theorem commandWord_eq_packWord (op : BitVec 8) (rd ra rb rc : RegIdx) (fn : BitVec 8) :
    commandWord op.toNat rd ra rb rc fn.toNat = packWord fn rc rb ra rd op := by
  apply BitVec.eq_of_toNat_eq
  rw [packWord_toNat, commandWord, BitVec.toNat_ofNat]
  have := op.isLt; have := fn.isLt; have := rd.isLt; have := ra.isLt; have := rb.isLt; have := rc.isLt
  omega

/-- The word with the given fields decodes as those fields do. -/
theorem decode_commandWord (op : BitVec 8) (rd ra rb rc : RegIdx) (fn : BitVec 8) :
    decode (commandWord op.toNat rd ra rb rc fn.toNat) = decodeFields op rd ra rb rc fn := by
  rw [commandWord_eq_packWord, decode_packWord]

end Sys2Proof
end

