-- ==== Sys2Proof/Laws/Memory.lean ====
section
/-! SUPPORT. What the DMEM operations do: a read after a write, everything else untouched, and the canonical form
kept (20_memory.md R63, R64). -/

namespace Sys2Proof.Machine

namespace Memory

/-! ### The canonical form -/

theorem wfFrom_mono {m : Memory} : ∀ {lo hi : Nat}, lo ≤ hi → wfFrom hi m = true → wfFrom lo m = true := by
  cases m with
  | nil => intros; rfl
  | cons c m =>
    obtain ⟨k, v⟩ := c
    intro lo hi h hw
    simp only [wfFrom, Bool.and_eq_true, decide_eq_true_eq] at hw ⊢
    exact ⟨⟨by omega, hw.1.2⟩, hw.2⟩

theorem read?_eq_none_of_lt {m : Memory} :
    ∀ {lo a : Nat}, wfFrom lo m = true → a < lo → read? m a = none := by
  induction m with
  | nil => intros; rfl
  | cons c m ih =>
    obtain ⟨k, v⟩ := c
    intro lo a hw ha
    simp only [wfFrom, Bool.and_eq_true, decide_eq_true_eq] at hw
    rw [read?, if_neg (by omega)]
    exact ih hw.2 (by omega)

theorem read?_lt_dmemSize {m : Memory} :
    ∀ {lo a : Nat} {v : Byte}, wfFrom lo m = true → read? m a = some v → a < Config.dmemSize := by
  induction m with
  | nil => intro lo a v _ h; cases h
  | cons c m ih =>
    obtain ⟨k, u⟩ := c
    intro lo a v hw h
    simp only [wfFrom, Bool.and_eq_true, decide_eq_true_eq] at hw
    rw [read?] at h
    split at h
    · omega
    · exact ih hw.2 h

theorem wfFrom_write {m : Memory} {v : Byte} :
    ∀ {lo a : Nat}, wfFrom lo m = true → lo ≤ a → a < Config.dmemSize → wfFrom lo (m.write a v) = true := by
  induction m with
  | nil => intro lo a _ hlo ha; simp [write, wfFrom, hlo, ha]
  | cons c m ih =>
    obtain ⟨k, u⟩ := c
    intro lo a hw hlo ha
    simp only [wfFrom, Bool.and_eq_true, decide_eq_true_eq] at hw
    rw [write]
    split
    · simp only [wfFrom, Bool.and_eq_true, decide_eq_true_eq]
      exact ⟨⟨hlo, ha⟩, ⟨by omega, hw.1.2⟩, hw.2⟩
    · split
      · next hak =>
        subst hak
        simp only [wfFrom, Bool.and_eq_true, decide_eq_true_eq]
        exact ⟨⟨hlo, ha⟩, hw.2⟩
      · simp only [wfFrom, Bool.and_eq_true, decide_eq_true_eq]
        exact ⟨hw.1, ih hw.2 (by omega) ha⟩

theorem wfFrom_filter {m : Memory} (p : Host.Cell → Bool) :
    ∀ {lo : Nat}, wfFrom lo m = true → wfFrom lo (m.filter p) = true := by
  induction m with
  | nil => intros; rfl
  | cons c m ih =>
    obtain ⟨k, u⟩ := c
    intro lo hw
    simp only [wfFrom, Bool.and_eq_true, decide_eq_true_eq] at hw
    rw [List.filter_cons]
    split
    · simp only [wfFrom, Bool.and_eq_true, decide_eq_true_eq]
      exact ⟨hw.1, ih hw.2⟩
    · exact wfFrom_mono (by omega) (ih hw.2)

/-- A write inside DMEM keeps the canonical form. -/
theorem write_wf {m : Memory} {a : Nat} {v : Byte} (hm : m.wf = true) (ha : a < Config.dmemSize) :
    (m.write a v).wf = true :=
  wfFrom_write hm (Nat.zero_le _) ha

/-- Clearing marks keeps the canonical form. -/
theorem unmark_wf {m : Memory} {lo n : Nat} (hm : m.wf = true) : (m.unmark lo n).wf = true :=
  wfFrom_filter _ hm

/-- A write of a byte string inside DMEM keeps the canonical form. -/
theorem writeBytes_wf {vs : List Byte} :
    ∀ {m : Memory} {a : Nat}, m.wf = true → a + vs.length ≤ Config.dmemSize → (m.writeBytes a vs).wf = true := by
  induction vs with
  | nil => intro m a hm _; exact hm
  | cons v vs ih =>
    intro m a hm ha
    simp only [List.length_cons] at ha
    exact ih (write_wf hm (by omega)) (by omega)

theorem nil_wf : Memory.wf [] = true := rfl

/-! ### One byte -/

/-- A read after a write: the value written at its address, every other address as before. -/
@[simp] theorem read?_write (m : Memory) (a a' : Nat) (v : Byte) :
    (m.write a v).read? a' = if a' = a then some v else m.read? a' := by
  induction m with
  | nil => simp [write, read?]
  | cons c m ih =>
    obtain ⟨k, u⟩ := c
    rw [write]
    split
    · rfl
    · split
      · next hak => subst hak; simp only [read?]; split <;> rfl
      · simp only [read?, ih]
        split
        · rw [if_neg (by omega)]
        · rfl

/-- A read after clearing marks: none inside the range, as before outside it. -/
theorem read?_unmark {m : Memory} {lo n : Nat} (a : Nat) :
    (m.unmark lo n).read? a = if lo ≤ a ∧ a < lo + n then none else m.read? a := by
  induction m with
  | nil => simp [unmark, read?]
  | cons c m ih =>
    obtain ⟨k, u⟩ := c
    have ih' : read? (List.filter (fun c : Host.Cell => decide (c.1 < lo) || decide (lo + n ≤ c.1)) m) a =
        if lo ≤ a ∧ a < lo + n then none else read? m a := ih
    rw [unmark, List.filter_cons]
    split
    · next hk =>
      simp only [Bool.or_eq_true, decide_eq_true_eq] at hk
      simp only [read?, ih']
      split
      · rw [if_neg (by omega)]
      · rfl
    · next hk =>
      simp only [Bool.or_eq_true, decide_eq_true_eq, not_or] at hk
      rw [ih', read?]
      split
      · rfl
      · rw [if_neg (by omega)]

/-! ### Byte strings -/

/-- A read of one byte after a byte string is written: the string's byte inside the range, as before outside. -/
theorem read?_writeBytes {vs : List Byte} : ∀ (m : Memory) (a x : Nat),
    (m.writeBytes a vs).read? x = if a ≤ x ∧ x < a + vs.length then vs[x - a]? else m.read? x := by
  induction vs with
  | nil =>
    intro m a x
    simp only [writeBytes, List.length_nil, Nat.add_zero]
    rw [if_neg (by omega)]
  | cons v vs ih =>
    intro m a x
    simp only [writeBytes, ih, read?_write, List.length_cons]
    by_cases hx : x = a
    · subst hx
      rw [if_neg (by omega), if_pos rfl, if_pos (by omega)]
      simp
    · by_cases hr : a + 1 ≤ x ∧ x < a + 1 + vs.length
      · rw [if_pos hr, if_pos (by omega)]
        have : x - a = (x - (a + 1)) + 1 := by omega
        rw [this, List.getElem?_cons_succ]
      · rw [if_neg hr, if_neg hx, if_neg (by omega)]

/-- Outside the bytes written, a read is as before. -/
theorem read?_writeBytes_of_outside {vs : List Byte} {m : Memory} {a x : Nat}
    (h : x < a ∨ a + vs.length ≤ x) : (m.writeBytes a vs).read? x = m.read? x := by
  rw [read?_writeBytes, if_neg (by omega)]

/-- A read of `n` bytes gives `bs` exactly when it has `n` bytes and each address holds its byte. -/
theorem readBytes?_eq_some {n : Nat} : ∀ {m : Memory} {a : Nat} {bs : List Byte},
    m.readBytes? a n = some bs ↔ bs.length = n ∧ ∀ i, i < n → m.read? (a + i) = bs[i]? := by
  induction n with
  | zero =>
    intro m a bs
    simp only [readBytes?, Option.some.injEq]
    constructor
    · rintro rfl; exact ⟨rfl, fun i hi => absurd hi (by omega)⟩
    · rintro ⟨h, -⟩; exact (List.length_eq_zero_iff.mp h).symm
  | succ n ih =>
    intro m a bs
    rw [readBytes?]
    constructor
    · intro h
      split at h
      · cases h
      · next v hv =>
        split at h
        · cases h
        · next vs hvs =>
          simp only [Option.some.injEq] at h
          subst h
          obtain ⟨hl, hr⟩ := ih.mp hvs
          refine ⟨by simp [hl], fun i hi => ?_⟩
          cases i with
          | zero => simpa using hv
          | succ i =>
            have := hr i (by omega)
            rw [List.getElem?_cons_succ, ← this]
            congr 1; omega
    · rintro ⟨hl, hr⟩
      cases bs with
      | nil => simp at hl
      | cons v vs =>
        have h0 := hr 0 (by omega)
        simp only [Nat.add_zero, List.getElem?_cons_zero] at h0
        have hs : m.readBytes? (a + 1) n = some vs := by
          refine ih.mpr ⟨by simpa using hl, fun i hi => ?_⟩
          have := hr (i + 1) (by omega)
          rw [List.getElem?_cons_succ] at this
          rw [← this]; congr 1; omega
        simp [h0, hs]

/-- A read of `n` bytes has `n` bytes. -/
theorem readBytes?_length {m : Memory} {a n : Nat} {bs : List Byte} (h : m.readBytes? a n = some bs) :
    bs.length = n :=
  (readBytes?_eq_some.mp h).1

/-- A read of the string just written gives the string. -/
theorem readBytes?_writeBytes_same (m : Memory) (a : Nat) (vs : List Byte) :
    (m.writeBytes a vs).readBytes? a vs.length = some vs := by
  refine readBytes?_eq_some.mpr ⟨rfl, fun i hi => ?_⟩
  rw [read?_writeBytes, if_pos (by omega)]
  congr 1; omega

/-- Memories that read alike on a range read the same string there. -/
theorem readBytes?_congr {n : Nat} : ∀ {m m' : Memory} {a : Nat},
    (∀ i, i < n → m'.read? (a + i) = m.read? (a + i)) → m'.readBytes? a n = m.readBytes? a n := by
  induction n with
  | zero => intros; rfl
  | succ n ih =>
    intro m m' a h
    have h0 := h 0 (by omega)
    simp only [Nat.add_zero] at h0
    have hs : m'.readBytes? (a + 1) n = m.readBytes? (a + 1) n :=
      ih fun i hi => by simpa [Nat.add_assoc, Nat.add_comm 1] using h (i + 1) (by omega)
    simp only [readBytes?, h0, hs]

/-- A string can be read when every byte of its range has a value. -/
theorem readBytes?_isSome {n : Nat} : ∀ {m : Memory} {a : Nat},
    (∀ i, i < n → (m.read? (a + i)).isSome = true) → (m.readBytes? a n).isSome = true := by
  induction n with
  | zero => intros; rfl
  | succ n ih =>
    intro m a h
    obtain ⟨v, hv⟩ := Option.isSome_iff_exists.mp (h 0 (by omega))
    obtain ⟨vs, hvs⟩ := Option.isSome_iff_exists.mp
      (ih (m := m) (a := a + 1) fun i hi => by
        simpa [Nat.add_assoc, Nat.add_comm 1] using h (i + 1) (by omega))
    simp only [Nat.add_zero] at hv
    simp [readBytes?, hv, hvs]

/-- Two canonical memories that read alike everywhere are equal. -/
theorem ext_of_wfFrom {m : Memory} : ∀ {m' : Memory} {lo : Nat},
    wfFrom lo m = true → wfFrom lo m' = true → (∀ a, m.read? a = m'.read? a) → m = m' := by
  induction m with
  | nil =>
    intro m' lo _ _ h
    cases m' with
    | nil => rfl
    | cons c m' => have := h c.1; simp [read?] at this
  | cons c m ih =>
    obtain ⟨k, v⟩ := c
    intro m' lo hw hw' h
    cases m' with
    | nil => have := h k; simp [read?] at this
    | cons c' m' =>
      obtain ⟨k', v'⟩ := c'
      simp only [wfFrom, Bool.and_eq_true, decide_eq_true_eq] at hw hw'
      have hk : k = k' := by
        have h1 := h k
        have h2 := h k'
        simp only [read?] at h1 h2
        by_contra hne
        rcases Nat.lt_or_gt_of_ne hne with hlt | hgt
        · rw [if_pos trivial, if_neg hne, read?_eq_none_of_lt hw'.2 (by omega)] at h1
          cases h1
        · rw [if_neg (by omega), if_pos trivial, read?_eq_none_of_lt hw.2 (by omega)] at h2
          cases h2
      subst hk
      have hv : v = v' := by simpa [read?] using h k
      subst hv
      rw [ih hw.2 hw'.2 fun a => ?_]
      have := h a
      simp only [read?] at this
      by_cases ha : a = k
      · subst ha; rw [read?_eq_none_of_lt hw.2 (by omega), read?_eq_none_of_lt hw'.2 (by omega)]
      · simpa [ha] using this

end Memory

/-! ### The host's window -/

/-- A window write keeps the canonical form. -/
theorem windowWrite_wf {vs : List Byte} :
    ∀ {m : Memory} {a : Nat}, m.wf = true → (windowWrite m a vs).wf = true := by
  induction vs with
  | nil => intro m a hm; exact hm
  | cons v vs ih =>
    intro m a hm
    refine ih ?_
    split
    · exact Memory.write_wf hm ‹_›
    · exact hm

/-- Inside DMEM a window write is a write of the byte string. -/
theorem windowWrite_eq_writeBytes {vs : List Byte} : ∀ {m : Memory} {a : Nat},
    a + vs.length ≤ Config.dmemSize → windowWrite m a vs = m.writeBytes a vs := by
  induction vs with
  | nil => intros; rfl
  | cons v vs ih =>
    intro m a h
    simp only [List.length_cons] at h
    rw [windowWrite, Memory.writeBytes, if_pos (by omega)]
    exact ih (by omega)

/-- Inside DMEM a window read is a read of the byte string. -/
theorem windowRead?_eq_readBytes? {n : Nat} : ∀ {m : Memory} {a : Nat},
    a + n ≤ Config.dmemSize → windowRead? m a n = m.readBytes? a n := by
  induction n with
  | zero => intros; rfl
  | succ n ih =>
    intro m a h
    rewrite [windowRead?, Memory.readBytes?, if_pos (by omega), ih (by omega)]
    cases m.read? a with
    | none => rfl
    | some v => cases m.readBytes? (a + 1) n <;> rfl

end Sys2Proof.Machine
end

