-- ==== Sys2Proof/Laws/Exec.lean ====
section
/-! SUPPORT. Everything a command, an engine step and a step of the machine can do, said once: the inversion lemmas
that proofs about all commands start from. -/

namespace Sys2Proof.Machine

/-- What a command that succeeds does to the state before it completes (40_bigint.md, 41_rsa.md, 42_aes.md,
45_hash_commands.md). -/
def Effect (i : Instr) (s u : State) : Prop :=
  match i with
  | .nop => u = s
  | .ldi rd => u = s.setB rd (sext32 s.larg.arg0)
  | .mov rd ra => u = s.setB rd (s.getB ra)
  | .ldb rd => ∃ bs, s.dmem.readBytes? s.larg.arg0.toNat s.larg.arg1.toNat = some bs ∧ fits (tcDecode bs) ∧
      u = s.setB rd (tcDecode bs)
  | .ldu rd => ∃ bs, s.dmem.readBytes? s.larg.arg0.toNat s.larg.arg1.toNat = some bs ∧ fits (os2ip bs) ∧
      u = s.setB rd (os2ip bs)
  | .stb ra => inRange s.larg.arg2 (tcLength (s.getB ra)) ∧
      u = (s.memWrite s.larg.arg2 (tcEncode (s.getB ra))).setResult (tcLength (s.getB ra))
  | .stu ra => inRange s.larg.arg2 s.larg.arg1.toNat ∧
      u = (s.memWrite s.larg.arg2 (i2osp (s.getB ra).toNat s.larg.arg1.toNat)).setResult s.larg.arg1.toNat
  | .add rd ra rb => fits (s.getB ra + s.getB rb) ∧ u = s.setB rd (s.getB ra + s.getB rb)
  | .sub rd ra rb => fits (s.getB ra - s.getB rb) ∧ u = s.setB rd (s.getB ra - s.getB rb)
  | .mul rd ra rb => fits (s.getB ra * s.getB rb) ∧ u = s.setB rd (s.getB ra * s.getB rb)
  | .div rd ra rb => s.getB rb ≠ 0 ∧ u = s.setB rd (tdivQuot (s.getB ra) (s.getB rb))
  | .rem rd ra rb => s.getB rb ≠ 0 ∧ u = s.setB rd (tdivRem (s.getB ra) (s.getB rb))
  | .divrem rd ra rb rc => rd ≠ rc ∧ s.getB rb ≠ 0 ∧
      u = (s.setB rd (tdivQuot (s.getB ra) (s.getB rb))).setB rc (tdivRem (s.getB ra) (s.getB rb))
  | .mod rd ra rb => s.getB rb ≠ 0 ∧ fits (modop (s.getB ra) (s.getB rb)) ∧
      u = s.setB rd (modop (s.getB ra) (s.getB rb))
  | .modpow rd ra rb rc => 0 < s.getB rc ∧ u = s.setB rd (modPow (s.getB ra) (s.getB rb).toNat (s.getB rc))
  | .modinv rd ra rb => 0 < s.getB rb ∧
      ((modInverse (s.getB ra) (s.getB rb) = none ∧ u = s.setNoinv true) ∨
        ∃ x, modInverse (s.getB ra) (s.getB rb) = some x ∧ u = (s.setB rd x).setNoinv false)
  | .cmp ra rb => u = (s.setCmpFlags (s.getB ra) (s.getB rb)).setResult (cmpResult (s.getB ra) (s.getB rb))
  | .bitlen ra => u = s.setResult (bitlen (s.getB ra).natAbs)
  | .rsaenc ra rb pssrc => ∃ ps m, inRange s.larg.arg2 (keyLen (s.getB ra)) ∧
      paddingString pssrc s (keyLen (s.getB ra) - s.larg.arg1.toNat - 3) = .ok ps ∧
      u = ((s.memWrite s.larg.arg2 (i2osp (modPow (os2ip (pkcs1Block ps.1 m)) (s.getB rb).toNat
        (s.getB ra)).toNat (keyLen (s.getB ra)))).setResult (keyLen (s.getB ra))).setRng ps.2
  | .rsadec ra rb => ∃ bs m, inRange s.larg.arg2 (keyLen (s.getB ra) - 11) ∧
      pkcs1Unpad (i2osp (modPow (os2ip bs) (s.getB rb).toNat (s.getB ra)).toNat (keyLen (s.getB ra))) = some m ∧
      u = (s.memWrite s.larg.arg2 m).setResult m.length
  | .aeskey => ∃ key, (key.length = 16 ∨ key.length = 24 ∨ key.length = 32) ∧ u = s.loadKey key
  | .aesiv => ∃ iv, u = s.loadIv iv
  | .aescrypt dec cbc pad strict => ∃ xs y, aescryptChecks dec cbc pad strict s ∧ xs.length = s.larg.arg1.toNat ∧
      s.aes.crypt dec cbc pad strict xs = some y ∧
      u = ((s.memWrite s.larg.arg2 y.1).setPadbad y.2).setResult y.1.length
  | .hinit alg => u = s.ctxInit alg
  | .hupdate alg => ∃ bs, u = s.ctxAbsorb alg bs
  | .hfinal alg => inRange s.larg.arg2 (digestLen alg) ∧
      u = ((s.memWrite s.larg.arg2 (s.ctxDigest alg)).ctxInit alg).setResult (digestLen alg)

/-- A command that answers a next state has completed: with an error and nothing else, or with its effect. -/
theorem exec_next {i : Instr} {s t : State} (h : exec i s = .next t) :
    (∃ e, e ≠ .invalidKeySpec ∧ t = complete (some e) s) ∨ ∃ u, t = complete none u ∧ Effect i s u := by
  cases i with
  | nop => exact .inr ⟨s, execNop_next.mp h, rfl⟩
  | ldi rd => exact .inr ⟨_, execLdi_next.mp h, rfl⟩
  | mov rd ra => exact .inr ⟨_, execMov_next.mp h, rfl⟩
  | ldb rd =>
    rcases execLdb_next.mp h with ⟨bs, -, hr, hf, rfl⟩ | ⟨-, rfl⟩ | ⟨_, -, -, -, rfl⟩
    · exact .inr ⟨_, rfl, bs, hr, hf, rfl⟩
    all_goals exact .inl ⟨_, by decide, rfl⟩
  | ldu rd =>
    rcases execLdu_next.mp h with ⟨bs, -, hr, hf, rfl⟩ | ⟨-, rfl⟩ | ⟨_, -, -, -, rfl⟩
    · exact .inr ⟨_, rfl, bs, hr, hf, rfl⟩
    all_goals exact .inl ⟨_, by decide, rfl⟩
  | stb ra =>
    rcases execStb_next.mp h with ⟨hr, rfl⟩ | ⟨-, rfl⟩
    · exact .inr ⟨_, rfl, hr, rfl⟩
    · exact .inl ⟨_, by decide, rfl⟩
  | stu ra =>
    rcases execStu_next.mp h with ⟨hr, -, rfl⟩ | ⟨-, rfl⟩
    · exact .inr ⟨_, rfl, hr, rfl⟩
    · exact .inl ⟨_, by decide, rfl⟩
  | add rd ra rb =>
    rcases execAdd_next.mp h with ⟨hf, rfl⟩ | ⟨-, rfl⟩
    · exact .inr ⟨_, rfl, hf, rfl⟩
    · exact .inl ⟨_, by decide, rfl⟩
  | sub rd ra rb =>
    rcases execSub_next.mp h with ⟨hf, rfl⟩ | ⟨-, rfl⟩
    · exact .inr ⟨_, rfl, hf, rfl⟩
    · exact .inl ⟨_, by decide, rfl⟩
  | mul rd ra rb =>
    rcases execMul_next.mp h with ⟨hf, rfl⟩ | ⟨-, rfl⟩
    · exact .inr ⟨_, rfl, hf, rfl⟩
    · exact .inl ⟨_, by decide, rfl⟩
  | div rd ra rb =>
    rcases execDiv_next.mp h with ⟨hb, rfl⟩ | ⟨-, rfl⟩
    · exact .inr ⟨_, rfl, hb, rfl⟩
    · exact .inl ⟨_, by decide, rfl⟩
  | rem rd ra rb =>
    rcases execRem_next.mp h with ⟨hb, rfl⟩ | ⟨-, rfl⟩
    · exact .inr ⟨_, rfl, hb, rfl⟩
    · exact .inl ⟨_, by decide, rfl⟩
  | divrem rd ra rb rc =>
    rcases execDivrem_next.mp h with ⟨hd, hb, rfl⟩ | ⟨-, rfl⟩ | ⟨-, -, rfl⟩
    · exact .inr ⟨_, rfl, hd, hb, rfl⟩
    all_goals exact .inl ⟨_, by decide, rfl⟩
  | mod rd ra rb =>
    rcases execMod_next.mp h with ⟨hb, hf, rfl⟩ | ⟨-, rfl⟩ | ⟨-, -, rfl⟩
    · exact .inr ⟨_, rfl, hb, hf, rfl⟩
    all_goals exact .inl ⟨_, by decide, rfl⟩
  | modpow rd ra rb rc =>
    rcases execModpow_next.mp h with ⟨hm, -, rfl⟩ | ⟨-, rfl⟩
    · exact .inr ⟨_, rfl, hm, rfl⟩
    · exact .inl ⟨_, by decide, rfl⟩
  | modinv rd ra rb =>
    rcases execModinv_next.mp h with ⟨hm, hn, rfl⟩ | ⟨x, hm, hx, rfl⟩ | ⟨-, rfl⟩
    · exact .inr ⟨_, rfl, hm, .inl ⟨hn, rfl⟩⟩
    · exact .inr ⟨_, rfl, hm, .inr ⟨x, hx, rfl⟩⟩
    · exact .inl ⟨_, by decide, rfl⟩
  | cmp ra rb => exact .inr ⟨_, execCmp_next.mp h, rfl⟩
  | bitlen ra => exact .inr ⟨_, execBitlen_next.mp h, rfl⟩
  | rsaenc ra rb pssrc =>
    rcases execRsaenc_next.mp h with ⟨ps, m, -, hr, -, hp, -, rfl⟩ | ⟨-, rfl⟩ | ⟨-, -, rfl⟩ | ⟨-, -, -, rfl⟩ |
      ⟨e, -, -, -, he, rfl⟩
    · exact .inr ⟨_, rfl, ps, m, hr.2, hp, rfl⟩
    iterate 3 exact .inl ⟨_, by decide, rfl⟩
    refine .inl ⟨e, ?_, rfl⟩
    obtain ⟨-, ⟨-, he⟩ | ⟨-, -, he⟩ | ⟨_, -, -, -, he⟩⟩ := paddingString_eq_error.mp he <;> cases he <;> decide
  | rsadec ra rb =>
    rcases execRsadec_next.mp h with ⟨bs, m, -, hr, -, hu, rfl⟩ | ⟨-, rfl⟩ | ⟨-, -, rfl⟩ | ⟨_, -, -, -, -, rfl⟩
    · exact .inr ⟨_, rfl, bs, m, hr.2, hu, rfl⟩
    all_goals exact .inl ⟨_, by decide, rfl⟩
  | aeskey =>
    rcases execAeskey_next.mp h with ⟨key, hl, -, hr, rfl⟩ | ⟨-, rfl⟩ | ⟨-, -, rfl⟩
    · have hk : key.length = s.larg.arg1.toNat := Memory.readBytes?_length hr
      exact .inr ⟨_, rfl, key, by rw [hk]; exact hl, rfl⟩
    all_goals exact .inl ⟨_, by decide, rfl⟩
  | aesiv =>
    rcases execAesiv_next.mp h with ⟨iv, -, -, rfl⟩ | ⟨-, rfl⟩
    · exact .inr ⟨_, rfl, iv, rfl⟩
    · exact .inl ⟨_, by decide, rfl⟩
  | aescrypt dec cbc pad strict =>
    rcases execAescrypt_cases h with ⟨xs, y, hc, hr, hy, rfl⟩ | ⟨e, rfl, he⟩
    · exact .inr ⟨_, rfl, xs, y, hc, Memory.readBytes?_length hr, hy, rfl⟩
    · exact .inl ⟨e, by rcases he with ⟨rfl, -⟩ | rfl | rfl | rfl | rfl | rfl <;> decide, rfl⟩
  | hinit alg =>
    rcases execHinit_next.mp h with ⟨-, rfl⟩ | ⟨-, rfl⟩
    · exact .inr ⟨_, rfl, rfl⟩
    · exact .inl ⟨_, by decide, rfl⟩
  | hupdate alg =>
    rcases execHupdate_next.mp h with ⟨bs, -, -, -, rfl⟩ | ⟨-, rfl⟩ | ⟨-, -, rfl⟩
    · exact .inr ⟨_, rfl, bs, rfl⟩
    all_goals exact .inl ⟨_, by decide, rfl⟩
  | hfinal alg =>
    rcases execHfinal_next.mp h with ⟨-, hr, rfl⟩ | ⟨-, rfl⟩ | ⟨-, -, rfl⟩
    · exact .inr ⟨_, rfl, hr, rfl⟩
    all_goals exact .inl ⟨_, by decide, rfl⟩

/-- No word decodes to the reserved error kind (60_exceptions.md R226). -/
theorem decode_error_ne {w : Word} {e : ErrKind} (h : decode w = .error e) : e ≠ .invalidKeySpec := by
  rcases decodeFields_error _ _ _ _ _ _ e h with rfl | rfl <;> decide

/-- An engine step: idle, a decoding error, or the decoded command (60_exceptions.md R233). -/
theorem engineStep_next {s t : State} (h : engineStep s = .next t) :
    (s.pending = false ∧ t = s) ∨ (∃ e, s.pending = true ∧ e ≠ .invalidKeySpec ∧ t = complete (some e) s) ∨
      ∃ i u, s.pending = true ∧ decode s.lcmd = .ok i ∧ t = complete none u ∧ Effect i s u := by
  unfold engineStep at h
  cases hp : s.pending
  · rw [hp] at h; cases h; exact .inl ⟨rfl, rfl⟩
  · rw [hp, if_pos rfl] at h
    cases hd : decode s.lcmd with
    | error e => rw [hd] at h; cases h; exact .inr (.inl ⟨e, rfl, decode_error_ne hd, rfl⟩)
    | ok i =>
      rw [hd] at h
      rcases exec_next h with ⟨e, he, rfl⟩ | ⟨u, rfl, hu⟩
      · exact .inr (.inl ⟨e, rfl, he, rfl⟩)
      · exact .inr (.inr ⟨i, u, rfl, rfl, rfl, hu⟩)

/-- A host access that answers a next state: a read changes only the data it returns; a write goes to a register, or
to the DMEM window while the engine is idle (20_memory.md R70). -/
theorem hostAccess_next {a : HostAccess} {s t : State} (h : hostAccess a s = .next t) :
    (∃ d, t = { s with rdata := d }) ∨ (∃ off v, t = s.writeReg off v) ∨
      ∃ (w : Width) (off : Nat) (v : Word), s.status.busy = false ∧
        t = { s with dmem := windowWrite s.dmem off (leBytes v.toNat w.bytes) } := by
  cases a with
  | read w off =>
    simp only [hostAccess, hostRead] at h
    split at h
    · cases h
    split at h
    · cases h; exact .inl ⟨_, rfl⟩
    split at h
    · cases h
    split at h
    · cases h
    · cases h; exact .inl ⟨_, rfl⟩
  | write w off v =>
    simp only [hostAccess, hostWrite] at h
    split at h
    · cases h
    split at h
    · cases h; exact .inr (.inl ⟨_, _, rfl⟩)
    split at h
    · cases h
    · next hb => cases h; exact .inr (.inr ⟨w, _, v, by simpa using hb, rfl⟩)

/-- A register write: no effect, IE, a soft reset, write-1-to-clear, issue or CMDOVR, or an argument
(10_state.md R17). -/
theorem writeReg_cases (s : State) (off : Nat) (v : Word) :
    s.writeReg off v = s ∨ s.writeReg off v = { s with ie := v.getLsbD 0 } ∨ s.writeReg off v = softReset s ∨
      s.writeReg off v = writeStatus s v ∨ (s.status.busy = false ∧ s.writeReg off v = acceptCommand s v) ∨
      (s.status.busy = true ∧ s.writeReg off v = { s with status := { s.status with cmdovr := true } }) ∨
      ∃ a, s.writeReg off v = { s with arg := a } := by
  unfold State.writeReg writeCtrl writeCmd
  split
  · split
    · exact .inr (.inr (.inl rfl))
    · exact .inr (.inl rfl)
  split
  · exact .inr (.inr (.inr (.inl rfl)))
  split
  · cases hb : s.status.busy
    · exact .inr (.inr (.inr (.inr (.inl ⟨rfl, rfl⟩))))
    · exact .inr (.inr (.inr (.inr (.inr (.inl ⟨rfl, rfl⟩)))))
  split
  · exact .inr (.inr (.inr (.inr (.inr (.inr ⟨_, rfl⟩)))))
  split
  · exact .inr (.inr (.inr (.inr (.inr (.inr ⟨_, rfl⟩)))))
  split
  · exact .inr (.inr (.inr (.inr (.inr (.inr ⟨_, rfl⟩)))))
  split
  · exact .inr (.inr (.inr (.inr (.inr (.inr ⟨_, rfl⟩)))))
  · exact .inl rfl

/-- A step that answers a next state: the engine's step, a host access, the reset input, or nothing, on the state with
the rest of the schedule `ts` (log entry 4). -/
theorem step_next {s t : State} (h : step s = .next t) : ∃ ts : List Turn,
    (s.rst = false ∧ engineStep { s with sched := ts } = .next t) ∨
    (∃ a rest, s.rst = false ∧ hostAccess a { s with sched := ts, host := rest } = .next t) ∨
    (∃ level, t = driveRst level { s with sched := ts }) ∨ t = { s with sched := ts } := by
  have turn (r : Turn) (ts : List Turn) (hr : takeTurn r { s with sched := ts } = .next t) :
      (s.rst = false ∧ engineStep { s with sched := ts } = .next t) ∨
      (∃ a rest, s.rst = false ∧ hostAccess a { s with sched := ts, host := rest } = .next t) ∨
      (∃ level, t = driveRst level { s with sched := ts }) ∨ t = { s with sched := ts } := by
    cases r with
    | rst level => cases hr; exact .inr (.inr (.inl ⟨level, rfl⟩))
    | host =>
      simp only [takeTurn] at hr
      cases hrst : s.rst
      · simp only [hrst, Bool.false_eq_true, if_false, hostTurn] at hr
        split at hr
        · cases hr; exact .inr (.inr (.inr rfl))
        · next a rest _ => exact .inr (.inl ⟨a, rest, rfl, hr⟩)
      · simp only [hrst, if_true] at hr; cases hr; exact .inr (.inr (.inr rfl))
    | engine =>
      simp only [takeTurn] at hr
      cases hrst : s.rst
      · simp only [hrst, Bool.false_eq_true, if_false] at hr; exact .inl ⟨rfl, hr⟩
      · simp only [hrst, if_true] at hr; cases hr; exact .inr (.inr (.inr rfl))
  unfold step at h
  split at h
  · next r ts _ => exact ⟨ts, turn r ts h⟩
  · next hs => exact ⟨[], turn (defaultTurn s) [] (by rw [← hs]; exact h)⟩

end Sys2Proof.Machine
end

