-- ==== Sys2Proof/Laws/Flags.lean ====
section
/-! SUPPORT. The bits of STATUS and CTRL as the host reads them (10_state.md R27, R28). -/

namespace Sys2Proof.Machine

/-- The bits of STATUS, 0 to 10, and the reserved bits above them (10_state.md R28). -/
theorem State.statusWord_getLsbD (s : State) (i : Nat) :
    s.statusWord.getLsbD i =
      [s.status.busy, s.status.done, s.status.err, s.status.cmdovr, s.status.lt, s.status.eq, s.status.gt,
        s.status.noinv, s.status.padbad, s.aes.keyValid, s.aes.ivValid].getD i false := by
  unfold State.statusWord
  simp only [BitVec.getLsbD_append, BitVec.getLsbD_ofBool, BitVec.getLsbD_zero]
  rcases Nat.lt_or_ge i 11 with h | h
  · interval_cases i <;> simp
  · rw [List.getD_eq_getElem?_getD, List.getElem?_eq_none (by simpa using h), Option.getD_none]
    repeat rw [if_neg (by omega)]

/-- The bits of CTRL: IE, then zeros (10_state.md R27). -/
theorem State.ctrlWord_eq (s : State) : s.ctrlWord = if s.ie then 1 else 0 := by
  unfold State.ctrlWord; cases s.ie <;> rfl

end Sys2Proof.Machine
end

