-- ==== Sys2Proof/Laws/Hash.lean ====
section
/-! SUPPORT. Absorption is bytewise, keeps len(BUF) = CNT mod 64, and the padding ends on a block boundary
(45_hash_commands.md R211, R212). -/

namespace Sys2Proof.Machine

section Absorb
variable {n : Nat} (compress : Vector Word n → List Byte → Vector Word n)

@[simp] theorem absorb_nil (x : HashCtx n) : absorb compress x [] = x := rfl

/-- Splitting a message at any boundary changes nothing (45_hash_commands.md R215). -/
theorem absorb_append (x : HashCtx n) (s t : List Byte) :
    absorb compress x (s ++ t) = absorb compress (absorb compress x s) t := by
  simp [absorb, List.foldl_append]

/-- The invariant of R212 on a context. -/
def HashCtx.bufOk {n : Nat} (x : HashCtx n) : Prop := x.buf.length = x.cnt.toNat % 64

theorem HashCtx.bufOk_initial {n : Nat} (h0 : Vector Word n) : (HashCtx.initial h0).bufOk := rfl

theorem absorbByte_bufOk {x : HashCtx n} {y : Byte} (h : x.bufOk) : (absorbByte compress x y).bufOk := by
  unfold HashCtx.bufOk at h ⊢
  have hc := x.cnt.isLt
  unfold absorbByte
  split
  · next h64 =>
    simp only [List.length_append, List.length_cons, List.length_nil] at h64 ⊢
    rw [BitVec.toNat_add]
    have h1 : (1 : BitVec 64).toNat = 1 := rfl
    omega
  · next h64 =>
    simp only [List.length_append, List.length_cons, List.length_nil] at h64 ⊢
    rw [BitVec.toNat_add]
    have h1 : (1 : BitVec 64).toNat = 1 := rfl
    omega

/-- Absorption keeps len(BUF) = CNT mod 64 (45_hash_commands.md R212). -/
theorem absorb_bufOk {x : HashCtx n} (s : List Byte) (h : x.bufOk) : (absorb compress x s).bufOk := by
  induction s generalizing x with
  | nil => exact h
  | cons y s ih => exact ih (absorbByte_bufOk compress h)

/-- Absorption adds the string's length to CNT, modulo 2^64. -/
theorem absorb_cnt (x : HashCtx n) (s : List Byte) :
    (absorb compress x s).cnt = x.cnt + BitVec.ofNat 64 s.length := by
  induction s generalizing x with
  | nil => simp [absorb]
  | cons y s ih =>
    have hb : (absorbByte compress x y).cnt = x.cnt + 1 := by unfold absorbByte; split <;> rfl
    change (absorb compress (absorbByte compress x y) s).cnt = _
    rw [ih, hb, List.length_cons, BitVec.add_assoc]
    congr 1
    apply BitVec.eq_of_toNat_eq
    simp [Nat.add_comm]

/-- A string that fills the buffer to exactly one block is compressed with it. -/
theorem absorb_fill (x : HashCtx n) (s : List Byte) (hs : s ≠ []) (h : x.buf.length + s.length = 64) :
    absorb compress x s =
      { h := compress x.h (x.buf ++ s), buf := [], cnt := x.cnt + BitVec.ofNat 64 s.length } := by
  induction s generalizing x with
  | nil => exact absurd rfl hs
  | cons y s ih =>
    change absorb compress (absorbByte compress x y) s = _
    cases s with
    | nil =>
      simp only [List.length_cons, List.length_nil] at h
      rw [absorb_nil, absorbByte, if_pos (by simp; omega)]
      simp
    | cons z s =>
      simp only [List.length_cons] at h
      have hstep : absorbByte compress x y = { h := x.h, buf := x.buf ++ [y], cnt := x.cnt + 1 } := by
        rw [absorbByte, if_neg (by simp; omega)]
      rw [hstep, ih _ (by simp) (by simp; omega)]
      simp only [List.append_assoc, List.cons_append, List.nil_append, List.length_cons, BitVec.add_assoc]
      congr 2
      apply BitVec.eq_of_toNat_eq
      simp [Nat.add_comm]

/-- A string that does not fill the buffer is only buffered. -/
theorem absorb_short (x : HashCtx n) (s : List Byte) (h : x.buf.length + s.length < 64) :
    absorb compress x s = { h := x.h, buf := x.buf ++ s, cnt := x.cnt + BitVec.ofNat 64 s.length } := by
  induction s generalizing x with
  | nil => simp
  | cons y s ih =>
    simp only [List.length_cons] at h
    have hstep : absorbByte compress x y = { h := x.h, buf := x.buf ++ [y], cnt := x.cnt + 1 } := by
      rw [absorbByte, if_neg (by simp; omega)]
    change absorb compress (absorbByte compress x y) s = _
    rw [hstep, ih _ (by simp; omega)]
    simp only [List.append_assoc, List.cons_append, List.nil_append, List.length_cons, BitVec.add_assoc]
    congr 2
    apply BitVec.eq_of_toNat_eq
    simp [Nat.add_comm]

/-- Whole blocks are compressed, the rest stays buffered (45_hash_commands.md R212). -/
theorem absorb_eq_hashBlocks (q : Nat) : ∀ (x : HashCtx n) (s : List Byte), x.buf.length < 64 →
    (x.buf ++ s).length / 64 = q →
    absorb compress x s =
      { h := hashBlocks compress q x.h (x.buf ++ s), buf := (x.buf ++ s).drop (64 * q)
        cnt := x.cnt + BitVec.ofNat 64 s.length } := by
  induction q with
  | zero =>
    intro x s _ hq
    rw [absorb_short compress x s (by simp only [List.length_append] at hq; omega)]
    rfl
  | succ q ih =>
    intro x s hx hq
    simp only [List.length_append] at hq
    have hlen : (s.take (64 - x.buf.length)).length = 64 - x.buf.length := by
      rw [List.length_take]; omega
    have hs : s = s.take (64 - x.buf.length) ++ s.drop (64 - x.buf.length) := (List.take_append_drop ..).symm
    have htake : (x.buf ++ s).take 64 = x.buf ++ s.take (64 - x.buf.length) := by
      rw [List.take_append, List.take_of_length_le hx.le]
    have hdrop : (x.buf ++ s).drop 64 = s.drop (64 - x.buf.length) := by
      rw [List.drop_append, List.drop_of_length_le hx.le, List.nil_append]
    have hne : s.take (64 - x.buf.length) ≠ [] := fun h => by rw [h] at hlen; simp at hlen; omega
    have hcnt : BitVec.ofNat 64 (s.take (64 - x.buf.length)).length +
        BitVec.ofNat 64 (s.drop (64 - x.buf.length)).length = BitVec.ofNat 64 s.length := by
      rw [← BitVec.ofNat_add, ← List.length_append, List.take_append_drop]
    conv_lhs => rw [hs]
    rw [absorb_append, absorb_fill compress x _ hne (by omega), ih _ _ (by simp) (by simp; omega)]
    simp only [List.nil_append, BitVec.add_assoc, hcnt]
    rw [hashBlocks, htake, hdrop, Nat.mul_succ, Nat.add_comm (64 * q), ← List.drop_drop, hdrop]

end Absorb

/-! ### Padding and output -/

theorem padZeros_lt (l : Nat) : padZeros l < 64 := by unfold padZeros; omega

/-- The padding ends on a block boundary (45_hash_commands.md R211). -/
theorem padZeros_boundary (l : Nat) : (l + 1 + padZeros l + 8) % 64 = 0 := by unfold padZeros; omega

@[simp] theorem md5Len8_length (c : BitVec 64) : (md5Len8 c).length = 8 := by simp [md5Len8]

@[simp] theorem sha256Len8_length (c : BitVec 64) : (sha256Len8 c).length = 8 := by simp [sha256Len8]

@[simp] theorem md5Output_length (h : Vector Word 4) : (md5Output h).length = 16 := by
  simp [md5Output, List.length_flatMap]

@[simp] theorem sha256Output_length (h : Vector Word 8) : (sha256Output h).length = 32 := by
  simp [sha256Output, List.length_flatMap]

@[simp] theorem ctxDigest_length (s : State) (alg : BitVec 2) : (s.ctxDigest alg).length = digestLen alg := by
  unfold State.ctxDigest digestLen
  split <;> simp [md5Digest, sha256Digest]

end Sys2Proof.Machine
end

