-- ==== Sys2Proof/Laws/Holds.lean ====
section
/-! SUPPORT. The words of the claims (Safety.lean) in terms of the DMEM operations, and OS2IP as a sum. -/

namespace Sys2Proof.Machine

/-- Bytes that stand in DMEM are what a read of their range gives. -/
theorem State.holds.readBytes? {s : State} {a n : Nat} {bs : List Byte} (h : s.holds a bs) (hn : n = bs.length) :
    s.dmem.readBytes? a n = some bs := by
  subst hn
  refine Memory.readBytes?_eq_some.mpr ⟨rfl, fun i hi => ?_⟩
  rw [h i hi, List.getElem?_eq_getElem hi]

/-- A write of a byte string stores it and nothing else. -/
theorem Memory.stores_writeBytes (m : Memory) (a : Nat) (bs : List Byte) : Memory.Stores m (m.writeBytes a bs) a bs := by
  refine ⟨fun i h => ?_, fun x hx => Memory.read?_writeBytes_of_outside hx⟩
  rw [Memory.read?_writeBytes, if_pos (by omega), Nat.add_sub_cancel_left, List.getElem?_eq_getElem h]

/-- After a write of a byte string the string stands in DMEM. -/
theorem State.memWrite_holds (s : State) (a : Word) (bs : List Byte) : (s.memWrite a bs).holds a.toNat bs :=
  (Memory.stores_writeBytes s.dmem a.toNat bs).1

/-- OS2IP as a sum, byte i weighing 256^(n−1−i) (00_scope.md R11). -/
theorem os2ip_eq_sum (bs : List Byte) :
    os2ip bs = ∑ i ∈ Finset.range bs.length, (bs.getD i 0).toNat * 256 ^ (bs.length - 1 - i) := by
  induction bs with
  | nil => rfl
  | cons x xs ih =>
    rw [os2ip_cons, List.length_cons, Finset.sum_range_succ', ih]
    simp only [List.getD_cons_succ, List.getD_cons_zero, Nat.add_sub_cancel, Nat.sub_zero]
    rw [add_comm]
    congr 1
    refine Finset.sum_congr rfl fun i hi => ?_
    have : i < xs.length := by simpa using hi
    congr 2; omega

/-- The key length of an RSA modulus (41_rsa.md R137). -/
theorem keyLen_eq {n : Int} {k : Nat} (hk : 0 < k) (h1 : 256 ^ (k - 1) ≤ n) (h2 : n < 256 ^ k) : keyLen n = k := by
  have e (j : Nat) : (256 : Nat) ^ j = 2 ^ (8 * j) := by rw [show (256 : Nat) = 2 ^ 8 by norm_num, ← pow_mul]
  have c (j : Nat) : ((2 ^ (8 * j) : Nat) : Int) = 256 ^ j := by rw [← e]; push_cast; rfl
  rw [← c] at h1 h2
  have hle : bitlen n.natAbs ≤ 8 * k := by
    rw [bitlen_le_iff]
    generalize 2 ^ (8 * k) = x at *
    generalize 2 ^ (8 * (k - 1)) = y at *
    omega
  have hgt : ¬ bitlen n.natAbs ≤ 8 * (k - 1) := by
    rw [bitlen_le_iff]
    generalize 2 ^ (8 * (k - 1)) = y at *
    omega
  unfold keyLen
  omega

end Sys2Proof.Machine
end

