-- ==== Sys2Proof/Laws/Modular.lean ====
section
/-! SUPPORT. Division, modular exponentiation and the extended Euclidean loop compute what the rules of
40_bigint.md define (R104, R106, R122–R125). -/

namespace Sys2Proof.Machine

/-! ### Division -/

/-- The quotient of R104 is the quotient rounded toward zero. -/
theorem tdivQuot_eq_tdiv (a b : Int) : tdivQuot a b = a.tdiv b := by
  obtain ⟨n, rfl | rfl⟩ := a.eq_nat_or_neg <;> obtain ⟨k, rfl | rfl⟩ := b.eq_nat_or_neg <;>
    rcases Nat.eq_zero_or_pos n with hn | hn <;> rcases Nat.eq_zero_or_pos k with hk | hk <;> subst_vars <;>
    simp [tdivQuot, Int.sign_eq_one_of_pos, *, Int.neg_tdiv, Int.tdiv_neg]

/-- The remainder of R104 has the dividend's sign. -/
theorem tdivRem_eq_tmod (a b : Int) : tdivRem a b = a.tmod b := by
  rw [tdivRem, tdivQuot_eq_tdiv, Int.tmod_def, mul_comm]

theorem natAbs_tdivQuot_le (a b : Int) : (tdivQuot a b).natAbs ≤ a.natAbs := by
  rw [tdivQuot_eq_tdiv, Int.natAbs_tdiv]
  exact Nat.div_le_self _ _

theorem natAbs_tdivRem_lt (a : Int) {b : Int} (hb : b ≠ 0) : (tdivRem a b).natAbs < b.natAbs := by
  rw [tdivRem_eq_tmod, Int.natAbs_tmod]
  exact Nat.mod_lt _ (Int.natAbs_pos.mpr hb)

/-- For a positive modulus MOD is the non-negative remainder. -/
theorem modop_eq_emod (a : Int) {b : Int} (hb : 0 < b) : modop a b = a % b := by
  have h := Int.emod_add_mul_ediv a b
  have h0 := Int.emod_nonneg a hb.ne'
  have h1 := Int.emod_lt_of_pos a hb
  have ht := Int.tmod_add_mul_tdiv a b
  have hl : (a.tmod b).natAbs < b.natAbs := by
    rw [Int.natAbs_tmod]; exact Nat.mod_lt _ (Int.natAbs_pos.mpr hb.ne')
  rw [modop, tdivRem_eq_tmod]
  split
  · next hneg =>
    have : (a.tmod b + b) % b = a % b := by
      rw [Int.add_emod_right]
      conv_rhs => rw [← ht]
      simp
    rw [← this]
    exact (Int.emod_eq_of_lt (by omega) (by omega)).symm
  · next hpos =>
    have : (a.tmod b) % b = a % b := by
      conv_rhs => rw [← ht]
      simp
    rw [← this]
    exact (Int.emod_eq_of_lt (by omega) (by omega)).symm

/-- MOD stays as small as its modulus. -/
theorem natAbs_modop_lt (a : Int) {b : Int} (hb : b ≠ 0) : (modop a b).natAbs < 2 * b.natAbs := by
  have h := natAbs_tdivRem_lt a hb
  rw [modop]
  split <;> omega

/-! ### MODPOW -/

theorem modPowLoop_eq (m k : Nat) : ∀ (e base result : Nat), e < 2 ^ k → result % m = result →
    modPowLoop m k e base result = result * base ^ e % m := by
  induction k with
  | zero =>
    intro e base result he hr
    have : e = 0 := by simpa using he
    subst this
    simp [modPowLoop, hr]
  | succ k ih =>
    intro e base result he hr
    rw [modPowLoop, ih _ _ _ (by rw [pow_succ] at he; omega) (by split <;> simp [hr])]
    have he2 : e = 2 * (e / 2) + e % 2 := by omega
    have hb : (base * base % m) ^ (e / 2) % m = base ^ (2 * (e / 2)) % m := by
      rw [← Nat.pow_mod, ← pow_two, ← pow_mul]
    split
    · next h1 =>
      rw [Nat.mul_mod, hb, Nat.mod_mod, ← Nat.mul_mod, mul_assoc, ← pow_succ',
        show 2 * (e / 2) + 1 = e by omega]
    · next h1 =>
      rw [Nat.mul_mod, hb, ← Nat.mul_mod, show 2 * (e / 2) = e by omega]

/-- The reference sequence of R123 gives the value of R122. -/
theorem modPow_eq (a : Int) (e : Nat) {m : Int} (hm : 0 < m) : modPow a e m = a ^ e % m := by
  rw [modPow, modPowLoop_eq _ _ _ _ _ (lt_two_pow_bitlen e) (Nat.mod_mod _ _), Nat.mod_mul_mod, Nat.one_mul]
  push_cast
  rw [Int.toNat_of_nonneg hm.le, Int.toNat_of_nonneg (Int.emod_nonneg a hm.ne')]
  exact ((Int.mod_modEq a m).pow e)

theorem modPow_nonneg (a : Int) (e : Nat) (m : Int) : 0 ≤ modPow a e m := Int.natCast_nonneg _

theorem modPow_lt (a : Int) (e : Nat) {m : Int} (hm : 0 < m) : modPow a e m < m := by
  rw [modPow_eq a e hm]; exact Int.emod_lt_of_pos _ hm

/-! ### MODINV -/

/-- The loop ends with the greatest common divisor, and with the combination that gives it modulo m. -/
theorem euclidLoop_spec (a m : Int) (fuel : Nat) : ∀ (r0 r1 : Nat) (s0 s1 : Int), r1 < fuel →
    (r0 : Int) ≡ s0 * a [ZMOD m] → (r1 : Int) ≡ s1 * a [ZMOD m] →
    (euclidLoop fuel r0 r1 s0 s1).1 = Nat.gcd r0 r1 ∧
    ((euclidLoop fuel r0 r1 s0 s1).1 : Int) ≡ (euclidLoop fuel r0 r1 s0 s1).2 * a [ZMOD m] := by
  induction fuel with
  | zero => intro _ _ _ _ h; omega
  | succ fuel ih =>
    intro r0 r1 s0 s1 hf h0 h1
    rw [euclidLoop]
    split
    · next hz => subst hz; exact ⟨(Nat.gcd_zero_right _).symm, h0⟩
    · next hz =>
      have hlt := Nat.mod_lt r0 (Nat.pos_of_ne_zero hz)
      have hr : ((r0 % r1 : Nat) : Int) ≡ (s0 - (r0 / r1 : Nat) * s1) * a [ZMOD m] := by
        have he : ((r0 % r1 : Nat) : Int) = (r0 : Int) - (r0 / r1 : Nat) * (r1 : Int) := by
          have := Nat.mod_add_div r0 r1
          zify at this ⊢
          linarith
        rw [he, sub_mul, mul_assoc]
        exact h0.sub (h1.mul_left _)
      obtain ⟨hg, hc⟩ := ih r1 (r0 % r1) s1 _ (by omega) h1 hr
      refine ⟨?_, hc⟩
      rw [hg, Nat.gcd_comm r0 r1, Nat.gcd_rec r1 r0, Nat.gcd_comm]

/-- MODINV's value: an inverse in [0, m) exactly when gcd(a mod+ m, m) = 1 (R124, R125). -/
theorem modInverse_spec (a : Int) {m : Int} (hm : 0 < m) :
    (modInverse a m = none ∧ Int.gcd a m ≠ 1) ∨
    (∃ x, modInverse a m = some x ∧ Int.gcd a m = 1 ∧ 0 ≤ x ∧ x < m ∧ a * x % m = 1 % m) := by
  have hm' : ((m.toNat : Nat) : Int) = m := Int.toNat_of_nonneg hm.le
  have ha' : (((a % m).toNat : Nat) : Int) = a % m := Int.toNat_of_nonneg (Int.emod_nonneg a hm.ne')
  obtain ⟨hg, hc⟩ := euclidLoop_spec a m ((a % m).toNat + 1) m.toNat (a % m).toNat 0 1 (by omega)
    (by rw [hm', zero_mul]; exact (Int.modEq_zero_iff_dvd).mpr dvd_rfl)
    (by rw [ha', one_mul]; exact Int.mod_modEq a m)
  have hgcd : Nat.gcd m.toNat (a % m).toNat = Int.gcd a m := by
    have : Nat.gcd m.toNat (a % m).toNat = Int.gcd (m.toNat : Int) ((a % m).toNat : Int) := rfl
    rw [this, hm', ha', Int.gcd_comm, Int.gcd_emod]
  unfold modInverse
  simp only
  split
  · next h1 =>
    right
    refine ⟨_, rfl, by rw [← hgcd, ← hg, h1], Int.emod_nonneg _ hm.ne', Int.emod_lt_of_pos _ hm, ?_⟩
    rw [h1] at hc
    have hx : a * ((euclidLoop ((a % m).toNat + 1) m.toNat (a % m).toNat 0 1).2 % m) ≡
        (euclidLoop ((a % m).toNat + 1) m.toNat (a % m).toNat 0 1).2 * a [ZMOD m] := by
      rw [mul_comm]
      exact (Int.mod_modEq _ m).mul_right a
    exact hx.trans hc.symm
  · next h1 =>
    left
    exact ⟨rfl, by rw [← hgcd, ← hg]; exact h1⟩

end Sys2Proof.Machine
end

