-- ==== Sys2Proof/Laws/Invariant.lean ====
section
/-! SUPPORT. What the effect of a command keeps of the invariant of Safety.lean, clause by clause. -/

namespace Sys2Proof.Machine

/-- The clauses of the invariant that a command could break, kept from `s` to `u`. -/
structure Kept (s u : State) : Prop where
  hostSide : u.ie = s.ie ∧ u.cmdreg = s.cmdreg ∧ u.lcmd = s.lcmd ∧ u.rst = s.rst
  wf : s.dmem.wf = true → u.dmem.wf = true
  fit : (∀ r, fits (s.getB r)) → ∀ r, fits (u.getB r)
  flags : (¬ (s.status.lt = true ∧ s.status.eq = true) ∧ ¬ (s.status.lt = true ∧ s.status.gt = true) ∧
      ¬ (s.status.eq = true ∧ s.status.gt = true)) →
    ¬ (u.status.lt = true ∧ u.status.eq = true) ∧ ¬ (u.status.lt = true ∧ u.status.gt = true) ∧
      ¬ (u.status.eq = true ∧ u.status.gt = true)
  key : (s.aes.keyValid = true → (s.aes.nr = 10 ∨ s.aes.nr = 12 ∨ s.aes.nr = 14) ∧
      ∀ i (_ : i < 60), 4 * (s.aes.nr.toNat + 1) ≤ i → s.aes.keyw[i] = 0) →
    u.aes.keyValid = true → (u.aes.nr = 10 ∨ u.aes.nr = 12 ∨ u.aes.nr = 14) ∧
      ∀ i (_ : i < 60), 4 * (u.aes.nr.toNat + 1) ≤ i → u.aes.keyw[i] = 0
  md5 : s.md5.buf.length = s.md5.cnt.toNat % 64 → u.md5.buf.length = u.md5.cnt.toNat % 64
  sha : s.sha.buf.length = s.sha.cnt.toNat % 64 → u.sha.buf.length = u.sha.cnt.toNat % 64

/-- The immediate always fits (40_bigint.md R97). -/
theorem fits_sext32 (w : Word) : fits (sext32 w) := by
  obtain ⟨h1, h2⟩ := sext32_bounds w
  have : (sext32 w).natAbs < 2 ^ 32 := by omega
  exact lt_of_lt_of_le this (Nat.pow_le_pow_right (by norm_num) (by norm_num [Config.bigintMaxLimbs]))

theorem Kept.setB {s : State} {rd v} (h : (∀ r, fits (s.getB r)) → fits v) : Kept s (s.setB rd v) where
  hostSide := ⟨rfl, rfl, rfl, rfl⟩
  wf := id
  fit hs r := by rw [State.setB_getB]; split; exact h hs; exact hs r
  flags := id
  key := id
  md5 := id
  sha := id

theorem Kept.setResult {s u : State} {v} (h : Kept s u) : Kept s (u.setResult v) := ⟨h.1, h.2, h.3, h.4, h.5, h.6, h.7⟩
theorem Kept.setRng {s u : State} {v} (h : Kept s u) : Kept s (u.setRng v) := ⟨h.1, h.2, h.3, h.4, h.5, h.6, h.7⟩
theorem Kept.setPadbad {s u : State} {v} (h : Kept s u) : Kept s (u.setPadbad v) := ⟨h.1, h.2, h.3, h.4, h.5, h.6, h.7⟩
theorem Kept.setNoinv {s u : State} {v} (h : Kept s u) : Kept s (u.setNoinv v) := ⟨h.1, h.2, h.3, h.4, h.5, h.6, h.7⟩
theorem Kept.refl {s : State} : Kept s s := ⟨⟨rfl, rfl, rfl, rfl⟩, id, id, id, id, id, id⟩
theorem Kept.memWrite {s : State} {a : Word} {bs : List Byte} (h : inRange a bs.length) : Kept s (s.memWrite a bs) where
  hostSide := ⟨rfl, rfl, rfl, rfl⟩
  wf hw := Memory.writeBytes_wf hw h
  fit := id
  flags := id
  key := id
  md5 := id
  sha := id

theorem Kept.ctxInit {s u : State} {alg} (h : Kept s u) : Kept s (u.ctxInit alg) := by
  unfold State.ctxInit; split
  · exact ⟨h.1, h.2, h.3, h.4, h.5, fun _ => rfl, h.7⟩
  · exact ⟨h.1, h.2, h.3, h.4, h.5, h.6, fun _ => rfl⟩
theorem Kept.ctxAbsorb {s : State} {alg bs} : Kept s (s.ctxAbsorb alg bs) := by
  unfold State.ctxAbsorb; split
  · exact ⟨⟨rfl, rfl, rfl, rfl⟩, id, id, id, id, fun h => absorb_bufOk _ _ h, id⟩
  · exact ⟨⟨rfl, rfl, rfl, rfl⟩, id, id, id, id, id, fun h => absorb_bufOk _ _ h⟩

/-- The message of an RSA block leaves room for at least 11 bytes (41_rsa.md R143). -/
theorem pkcs1Unpad_length {em m : List Byte} (h : pkcs1Unpad em = some m) : m.length ≤ em.length - 11 := by
  unfold pkcs1Unpad at h
  split at h; cases h
  split at h; cases h
  split at h; cases h
  split at h; cases h
  split at h; cases h
  cases h; simp; omega

/-- Every command's effect keeps every clause. -/
theorem Effect.kept {i : Instr} {s u : State} (h : Effect i s u) : Kept s u := by
  cases i <;> simp only [Effect] at h
  case nop => subst h; exact Kept.refl
  case ldi => subst h; exact Kept.setB fun _ => fits_sext32 _
  case mov => subst h; exact Kept.setB fun hs => hs _
  case ldb => obtain ⟨_, _, hf, rfl⟩ := h; exact Kept.setB fun _ => hf
  case ldu => obtain ⟨_, _, hf, rfl⟩ := h; exact Kept.setB fun _ => hf
  case stb => obtain ⟨hr, rfl⟩ := h; exact Kept.setResult (Kept.memWrite (by rw [tcEncode_length]; exact hr))
  case stu => obtain ⟨hr, rfl⟩ := h; exact Kept.setResult (Kept.memWrite (by rw [i2osp_length]; exact hr))
  case add => obtain ⟨hf, rfl⟩ := h; exact Kept.setB fun _ => hf
  case sub => obtain ⟨hf, rfl⟩ := h; exact Kept.setB fun _ => hf
  case mul => obtain ⟨hf, rfl⟩ := h; exact Kept.setB fun _ => hf
  case div => obtain ⟨hf, rfl⟩ := h; exact Kept.setB fun hs => lt_of_le_of_lt (natAbs_tdivQuot_le _ _) (hs _)
  case rem => obtain ⟨hf, rfl⟩ := h; exact Kept.setB fun hs => lt_trans (natAbs_tdivRem_lt _ hf) (hs _)
  case divrem rd ra rb rc =>
    obtain ⟨_, hf, rfl⟩ := h
    have h1 : Kept s (s.setB rd (tdivQuot (s.getB ra) (s.getB rb))) :=
      Kept.setB fun hs => lt_of_le_of_lt (natAbs_tdivQuot_le _ _) (hs _)
    exact ⟨h1.1, h1.2, fun hs r => by
      rw [State.setB_getB]; split
      · exact lt_trans (natAbs_tdivRem_lt _ hf) (hs _)
      · exact h1.3 hs r, h1.4, h1.5, h1.6, h1.7⟩
  case mod => obtain ⟨_, hf, rfl⟩ := h; exact Kept.setB fun _ => hf
  case modpow rd ra rb rc =>
    obtain ⟨hm, rfl⟩ := h
    exact Kept.setB fun hs => by
      have h0 := modPow_nonneg (s.getB ra) (s.getB rb).toNat (s.getB rc)
      have h1 := modPow_lt (s.getB ra) (s.getB rb).toNat hm
      exact lt_trans (by omega) (hs rc)
  case modinv rd ra rb =>
    obtain ⟨hm, ⟨_, rfl⟩ | ⟨x, hx, rfl⟩⟩ := h
    · exact Kept.setNoinv Kept.refl
    · refine Kept.setNoinv (Kept.setB fun hs => ?_)
      rcases modInverse_spec (s.getB ra) hm with ⟨h1, _⟩ | ⟨y, h1, _, h2, h3, _⟩
      · rw [h1] at hx; cases hx
      · rw [h1] at hx; cases hx; exact lt_trans (by omega) (hs rb)
  case cmp ra rb =>
    subst h
    refine Kept.setResult ⟨⟨rfl, rfl, rfl, rfl⟩, id, id, fun _ => ?_, id, id, id⟩
    simp only [State.setCmpFlags, decide_eq_true_eq]
    omega
  case bitlen => subst h; exact Kept.setResult Kept.refl
  case rsaenc => obtain ⟨_, _, hr, _, rfl⟩ := h; exact Kept.setRng (Kept.setResult (Kept.memWrite (by rw [i2osp_length]; exact hr)))
  case rsadec ra rb =>
    obtain ⟨_, m, hr, hu, rfl⟩ := h
    have := pkcs1Unpad_length hu
    rw [i2osp_length] at this
    exact Kept.setResult (Kept.memWrite (by unfold inRange at *; omega))
  case aeskey =>
    obtain ⟨key, hl, rfl⟩ := h
    refine ⟨⟨rfl, rfl, rfl, rfl⟩, id, id, id, fun _ _ => ?_, id, id⟩
    have hn : (s.loadKey key).aes.nr = BitVec.ofNat 4 (roundsOf key.length) := rfl
    have hlen := keyExpand_length key
    constructor
    · rw [hn, roundsOf]; rcases hl with h | h | h <;> rw [h] <;> decide
    · intro i hi hge
      have : (s.loadKey key).aes.nr.toNat = roundsOf key.length := by
        rw [hn, roundsOf]; rcases hl with h | h | h <;> rw [h] <;> rfl
      rw [this] at hge
      have : (s.loadKey key).aes.keyw[i] = (keyExpand key).getD i 0 := by
        simp [State.loadKey, vectorOf]
      rw [this, List.getD_eq_getElem?_getD, List.getElem?_eq_none (by omega)]; rfl
  case aesiv => obtain ⟨_, rfl⟩ := h; exact ⟨⟨rfl, rfl, rfl, rfl⟩, id, id, id, id, id, id⟩
  case aescrypt dec cbc pad strict =>
    obtain ⟨xs, y, hc, hl, hy, rfl⟩ := h
    refine Kept.setResult (Kept.setPadbad (Kept.memWrite ?_))
    have := Aes.crypt_length_le (fun hh => by rw [hl]; exact hc.2.2.2.2.1 hh) hy
    have h2 := hc.2.2.2.2.2
    rw [hl] at this
    unfold inRange at *; omega
  case hinit => subst h; exact Kept.ctxInit Kept.refl
  case hupdate => obtain ⟨_, rfl⟩ := h; exact Kept.ctxAbsorb
  case hfinal => obtain ⟨hr, rfl⟩ := h; exact Kept.setResult (Kept.ctxInit (Kept.memWrite (by rw [ctxDigest_length]; exact hr)))

end Sys2Proof.Machine
end

