-- ==== Sys2Proof/Laws/PerInstr.lean ====
section
/-! SUPPORT. What holds of every command as syntax: its encoded word carries the opcode of 30_encoding.md R88. -/

namespace Sys2Proof.Laws

/-- The opcode of each command (30_encoding.md R88). -/
def opcodeOf : Instr → BitVec 8
  | .nop => 0x00
  | .ldi _ => 0x01
  | .mov _ _ => 0x02
  | .ldb _ => 0x03
  | .ldu _ => 0x04
  | .stb _ => 0x05
  | .stu _ => 0x06
  | .add _ _ _ => 0x10
  | .sub _ _ _ => 0x11
  | .mul _ _ _ => 0x12
  | .div _ _ _ => 0x13
  | .rem _ _ _ => 0x14
  | .divrem _ _ _ _ => 0x15
  | .mod _ _ _ => 0x16
  | .modpow _ _ _ _ => 0x17
  | .modinv _ _ _ => 0x18
  | .cmp _ _ => 0x19
  | .bitlen _ => 0x1A
  | .rsaenc _ _ _ => 0x20
  | .rsadec _ _ => 0x21
  | .aeskey => 0x30
  | .aesiv => 0x31
  | .aescrypt _ _ _ _ => 0x32
  | .hinit _ => 0x40
  | .hupdate _ => 0x41
  | .hfinal _ => 0x42

namespace EncodedOpcode

/-- OP, the low byte of the encoded word, is the command's opcode (30_encoding.md R81, R88). -/
def Statement (i : Instr) : Prop := (encode i).extractLsb' 0 8 = opcodeOf i

theorem nop : Statement .nop := fieldOp_packWord ..

theorem ldi (rd : RegIdx) : Statement (.ldi rd) := fieldOp_packWord ..

theorem mov (rd ra : RegIdx) : Statement (.mov rd ra) := fieldOp_packWord ..

theorem ldb (rd : RegIdx) : Statement (.ldb rd) := fieldOp_packWord ..

theorem ldu (rd : RegIdx) : Statement (.ldu rd) := fieldOp_packWord ..

theorem stb (ra : RegIdx) : Statement (.stb ra) := fieldOp_packWord ..

theorem stu (ra : RegIdx) : Statement (.stu ra) := fieldOp_packWord ..

theorem add (rd ra rb : RegIdx) : Statement (.add rd ra rb) := fieldOp_packWord ..

theorem sub (rd ra rb : RegIdx) : Statement (.sub rd ra rb) := fieldOp_packWord ..

theorem mul (rd ra rb : RegIdx) : Statement (.mul rd ra rb) := fieldOp_packWord ..

theorem div (rd ra rb : RegIdx) : Statement (.div rd ra rb) := fieldOp_packWord ..

theorem rem (rd ra rb : RegIdx) : Statement (.rem rd ra rb) := fieldOp_packWord ..

theorem divrem (rd ra rb rc : RegIdx) : Statement (.divrem rd ra rb rc) := fieldOp_packWord ..

theorem mod (rd ra rb : RegIdx) : Statement (.mod rd ra rb) := fieldOp_packWord ..

theorem modpow (rd ra rb rc : RegIdx) : Statement (.modpow rd ra rb rc) := fieldOp_packWord ..

theorem modinv (rd ra rb : RegIdx) : Statement (.modinv rd ra rb) := fieldOp_packWord ..

theorem cmp (ra rb : RegIdx) : Statement (.cmp ra rb) := fieldOp_packWord ..

theorem bitlen (ra : RegIdx) : Statement (.bitlen ra) := fieldOp_packWord ..

theorem rsaenc (ra rb : RegIdx) (pssrc : Bool) : Statement (.rsaenc ra rb pssrc) := fieldOp_packWord ..

theorem rsadec (ra rb : RegIdx) : Statement (.rsadec ra rb) := fieldOp_packWord ..

theorem aeskey : Statement .aeskey := fieldOp_packWord ..

theorem aesiv : Statement .aesiv := fieldOp_packWord ..

theorem aescrypt (dec cbc pad strict : Bool) : Statement (.aescrypt dec cbc pad strict) := fieldOp_packWord ..

theorem hinit (alg : BitVec 2) : Statement (.hinit alg) := fieldOp_packWord ..

theorem hupdate (alg : BitVec 2) : Statement (.hupdate alg) := fieldOp_packWord ..

theorem hfinal (alg : BitVec 2) : Statement (.hfinal alg) := fieldOp_packWord ..

end EncodedOpcode

end Sys2Proof.Laws
end

