-- ==== Sys2Proof/Laws/Rsa.lean ====
section
/-! SUPPORT. The RNG's draws are nonzero, and PKCS#1 unpadding takes a padded block apart (41_rsa.md R138, R139,
R143). -/

namespace Sys2Proof.Machine

@[simp] theorem drawBytes_length (n k : Nat) : (drawBytes n k).length = k := by
  induction k generalizing n with
  | zero => rfl
  | succ k ih => simp [drawBytes, ih]

/-- A drawn byte is never zero (41_rsa.md R139). -/
theorem drawBytes_ne_zero (n k : Nat) : ∀ x ∈ drawBytes n k, x ≠ 0x00 := by
  induction k generalizing n with
  | zero => simp [drawBytes]
  | succ k ih =>
    intro x hx
    simp only [drawBytes, List.mem_cons] at hx
    rcases hx with rfl | hx
    · intro h
      have hlt := (Config.rngDraw n).isLt
      have h := congrArg BitVec.toNat h
      simp [drawNonzeroByte] at h
      omega
    · exact ih _ x hx

/-- Unpadding a block of type 1 or 2 with at least eight nonzero padding bytes gives its message (41_rsa.md R143). -/
theorem pkcs1Unpad_block {ty : Byte} {xs msg : List Byte} (ht : ty = 0x01 ∨ ty = 0x02) (hx : ∀ x ∈ xs, x ≠ 0x00)
    (h8 : 8 ≤ xs.length) : pkcs1Unpad ([0x00, ty] ++ xs ++ [0x00] ++ msg) = some msg := by
  have hf : (xs ++ [0x00] ++ msg).findIdx? (fun x => decide (x = 0x00)) = some xs.length := by
    rw [List.append_assoc, List.findIdx?_append, List.findIdx?_eq_none_iff.mpr (by simpa using hx)]
    simp [List.findIdx?_cons]
  have hd : ([0x00, ty] ++ xs ++ [0x00] ++ msg).drop 2 = xs ++ [0x00] ++ msg := rfl
  have ht' : ¬ ¬ (([0x00, ty] ++ xs ++ [0x00] ++ msg).getD 1 0 = 0x01 ∨
    ([0x00, ty] ++ xs ++ [0x00] ++ msg).getD 1 0 = 0x02) := not_not.mpr ht
  rw [pkcs1Unpad, if_neg (by simp), if_neg (by simp), if_neg ht', hd, hf]
  simp only
  rw [if_neg (by omega)]
  have h : [0x00, ty] ++ xs ++ [0x00] ++ msg = ([0x00, ty] ++ xs ++ [0x00]) ++ msg := rfl
  rw [h, List.drop_append_of_le_length (by simp)]
  simp

/-- Unpadding fails on every other block (41_rsa.md R143). -/
theorem pkcs1Unpad_eq_none {em : List Byte}
    (h : ¬ ∃ (ty : Byte) (xs msg : List Byte), em = [0x00, ty] ++ xs ++ [0x00] ++ msg ∧ (ty = 0x01 ∨ ty = 0x02) ∧
      (∀ x ∈ xs, x ≠ 0x00) ∧ 8 ≤ xs.length) : pkcs1Unpad em = none := by
  match em with
  | [] => rfl
  | [_] => rfl
  | z :: ty :: rest =>
    unfold pkcs1Unpad
    split; · rfl
    split; · rfl
    split; · rfl
    split; · rfl
    next h0 h1 _ i hi =>
      split; · rfl
      next h10 =>
        exfalso; apply h
        have h0 : z = 0x00 := by simpa using h0
        have h1 := not_not.mp h1
        subst h0
        simp only [List.drop_succ_cons, List.drop_zero] at hi
        rw [List.findIdx?_eq_some_iff_getElem] at hi
        obtain ⟨hl, hz, hb⟩ := hi
        refine ⟨ty, rest.take i, rest.drop (i + 1), ?_, h1, ?_, ?_⟩
        · have hr : rest = rest.take i ++ rest[i] :: rest.drop (i + 1) := by simp
          have hz' : rest[i] = 0x00 := by simpa using hz
          rw [hz'] at hr
          simp only [List.cons_append, List.nil_append, List.append_assoc]
          rw [← hr]
        · intro x hx
          obtain ⟨j, hj, rfl⟩ := List.mem_iff_getElem.mp hx
          rw [List.length_take] at hj
          have := hb j (by omega)
          simpa using this
        · rw [List.length_take]; omega

end Sys2Proof.Machine
end

