-- ==== Sys2Proof/Tests/Slice0.lean ====
section
/-! SUPPORT. Tests of one step each, with expected results from the spec (95_test_vectors.md and the rules named),
and for every obligation with hypotheses a witness that meets them. -/

namespace Sys2Proof.Tests

set_option Elab.async false

open Sys2Proof.Machine

/-! ### Small states and what is looked at -/

/-- The reset state with the given latched arguments and byte string in DMEM. -/
def scene (arg0 arg1 arg2 arg3 : Word) (a : Nat) (bs : List Byte) : State :=
  { State.reset with larg := ⟨arg0, arg1, arg2, arg3⟩, dmem := Memory.writeBytes [] a bs }

/-- The reset state with the given registers. -/
def regs (l : List (RegIdx × Int)) : State := l.foldl (fun s p => s.setB p.1 p.2) State.reset

/-- The state with a command word pending. -/
def pendingOn (w : Word) (s : State) : State :=
  { s with lcmd := w, cmdreg := w, status := { s.status with busy := true }, pending := true }

/-- A byte string from its hexadecimal digits. -/
def hex (x n : Nat) : List Byte := i2osp x n

/-- The outcome is a next state. -/
def isNext : Host.Outcome State Fault Refusal → Bool
  | .next _ => true
  | .fault _ => false
  | .refused _ => false

/-- The next state of an outcome, the reset state if there is none. -/
def after : Host.Outcome State Fault Refusal → State
  | .next t => t
  | .fault _ => State.reset
  | .refused _ => State.reset

/-- ERRCODE after an outcome, none unless it is a next state with DONE. -/
def code (o : Host.Outcome State Fault Refusal) : Option Nat :=
  match o with
  | .next t => if t.status.done then some t.errcode.toNat else none
  | .fault _ => none
  | .refused _ => none

/-- The fault of an outcome. -/
def faultOf : Host.Outcome State Fault Refusal → Option Fault
  | .next _ => none
  | .fault f => some f
  | .refused _ => none

theorem next_of {o : Host.Outcome State Fault Refusal} (h : isNext o = true) : ∃ t, o = .next t := by
  cases o with
  | next t => exact ⟨t, rfl⟩
  | fault f => cases h
  | refused r => cases h

theorem fault_of {o : Host.Outcome State Fault Refusal} {f : Fault} (h : faultOf o = some f) : o = .fault f := by
  cases o with
  | next t => cases h
  | fault g => cases h; rfl
  | refused r => cases h

theorem holds_of {s : State} {a : Nat} {bs : List Byte} (h : s.dmem.readBytes? a bs.length = some bs) :
    s.holds a bs := by
  intro i hi
  rw [(Memory.readBytes?_eq_some.mp h).2 i hi, List.getElem?_eq_getElem hi]

theorem scene_holds {a0 a1 a2 a3 : Word} {a : Nat} {bs : List Byte} : (scene a0 a1 a2 a3 a bs).holds a bs :=
  (Memory.stores_writeBytes [] a bs).1

/-! ### WellFormed refuses each kind of ill-formed term -/

theorem test_wf_divrem_same_destination : (Instr.divrem 3 1 2 3).wellFormed = false := by decide
theorem test_wf_strict_without_dec : (Instr.aescrypt false true true true).wellFormed = false := by decide
theorem test_wf_strict_without_pad : (Instr.aescrypt true true false true).wellFormed = false := by decide
theorem test_wf_alg : (Instr.hinit 2).wellFormed = false ∧ (Instr.hupdate 3).wellFormed = false ∧
    (Instr.hfinal 2).wellFormed = false := by decide
theorem test_wf_legal : (Instr.divrem 3 1 2 4).wellFormed = true ∧ (Instr.aescrypt true false true true).wellFormed = true ∧
    (Instr.hfinal 1).wellFormed = true := by decide

/-! ### Decoding of words written bit by bit: FN RC RB RA RD OP (30_encoding.md R81, R88) -/

theorem test_decode_nop : decode 0b00000000_0000_0000_0000_0000_00000000 = .ok .nop := rfl
theorem test_decode_ldi : decode 0b00000000_0000_0000_0000_1001_00000001 = .ok (.ldi 9) := rfl
theorem test_decode_mov : decode 0b00000000_0000_0000_0110_1001_00000010 = .ok (.mov 9 6) := rfl
theorem test_decode_ldb : decode 0b00000000_0000_0000_0000_1100_00000011 = .ok (.ldb 12) := rfl
theorem test_decode_ldu : decode 0b00000000_0000_0000_0000_1111_00000100 = .ok (.ldu 15) := rfl
theorem test_decode_stb : decode 0b00000000_0000_0000_0101_0000_00000101 = .ok (.stb 5) := rfl
theorem test_decode_stu : decode 0b00000000_0000_0000_1010_0000_00000110 = .ok (.stu 10) := rfl
theorem test_decode_add : decode 0b00000000_0000_0010_0001_0011_00010000 = .ok (.add 3 1 2) := rfl
theorem test_decode_sub : decode 0b00000000_0000_0100_1000_0001_00010001 = .ok (.sub 1 8 4) := rfl
theorem test_decode_mul : decode 0b00000000_0000_0011_0010_0001_00010010 = .ok (.mul 1 2 3) := rfl
theorem test_decode_div : decode 0b00000000_0000_0111_0110_0101_00010011 = .ok (.div 5 6 7) := rfl
theorem test_decode_rem : decode 0b00000000_0000_1001_1010_1000_00010100 = .ok (.rem 8 10 9) := rfl
theorem test_decode_divrem : decode 0b00000000_0100_0010_0001_0011_00010101 = .ok (.divrem 3 1 2 4) := rfl
theorem test_decode_mod : decode 0b00000000_0000_1110_1101_1100_00010110 = .ok (.mod 12 13 14) := rfl
theorem test_decode_modpow : decode 0b00000000_0011_0010_0001_0100_00010111 = .ok (.modpow 4 1 2 3) := rfl
theorem test_decode_modinv : decode 0b00000000_0000_0010_0001_0011_00011000 = .ok (.modinv 3 1 2) := rfl
theorem test_decode_cmp : decode 0b00000000_0000_0010_0001_0000_00011001 = .ok (.cmp 1 2) := rfl
theorem test_decode_bitlen : decode 0b00000000_0000_0000_1011_0000_00011010 = .ok (.bitlen 11) := rfl
theorem test_decode_rsaenc : decode 0b00000001_0000_0010_0001_0000_00100000 = .ok (.rsaenc 1 2 true) := rfl
theorem test_decode_rsadec : decode 0b00000000_0000_0011_0001_0000_00100001 = .ok (.rsadec 1 3) := rfl
theorem test_decode_aeskey : decode 0b00000000_0000_0000_0000_0000_00110000 = .ok .aeskey := rfl
theorem test_decode_aesiv : decode 0b00000000_0000_0000_0000_0000_00110001 = .ok .aesiv := rfl
theorem test_decode_aescrypt :
    decode 0b00001101_0000_0000_0000_0000_00110010 = .ok (.aescrypt true false true true) ∧
    decode 0b00000010_0000_0000_0000_0000_00110010 = .ok (.aescrypt false true false false) := ⟨rfl, rfl⟩
theorem test_decode_hinit : decode 0b00000001_0000_0000_0000_0000_01000000 = .ok (.hinit 1) := rfl
theorem test_decode_hupdate : decode 0b00000000_0000_0000_0000_0000_01000001 = .ok (.hupdate 0) := rfl
theorem test_decode_hfinal : decode 0b00000001_0000_0000_0000_0000_01000010 = .ok (.hfinal 1) := rfl

/-- The illegal words of 95_test_vectors.md §2. -/
theorem test_decode_illegal :
    decode 0x00000100 = .error .illegalCommand ∧ decode 0x00000007 = .error .illegalCommand ∧
    decode 0x000000FF = .error .illegalCommand ∧ decode 0x01000013 = .error .illegalCommand ∧
    decode 0x00331315 = .error .illegalCommand ∧ decode 0x08000032 = .error .illegalCommand ∧
    decode 0x09000032 = .error .illegalCommand ∧ decode 0x10000032 = .error .illegalCommand ∧
    decode 0x02000040 = .error .unsupportedAlgorithm ∧ decode 0x03000041 = .error .unsupportedAlgorithm ∧
    decode 0x06000040 = .error .illegalCommand ∧ decode 0x02000020 = .error .illegalCommand ∧
    decode 0x01031021 = .error .illegalCommand ∧ decode 0x00000505 = .error .illegalCommand :=
  ⟨rfl, rfl, rfl, rfl, rfl, rfl, rfl, rfl, rfl, rfl, rfl, rfl, rfl, rfl⟩

theorem test_decodeTableWord : decodeTableWord 32 0x00421315 = some (.divrem 3 1 2 4) ∧
    decodeTableWord 32 0x00000007 = none := by decide

/-! ### BigInt commands (95_test_vectors.md §3) -/

theorem test_nop : code (exec .nop State.reset) = some 0 := by decide +kernel
theorem test_ldi : (after (exec (.ldi 9) (scene 0x80000000 0 0 0 0 []))).getB 9 = -2147483648 := by decide +kernel
theorem test_mov : (after (exec (.mov 1 2) (regs [(1, 5), (2, -7)]))).getB 1 = -7 := by decide +kernel
theorem test_ldb : (after (exec (.ldb 1) (scene 0x100 2 0 0 0x100 [0xff, 0x7f]))).getB 1 = -129 := by decide +kernel
theorem test_ldb_range : code (exec (.ldb 1) (scene 0xFFF 2 0 0 0 [])) = some 9 := by decide +kernel
theorem test_ldu : (after (exec (.ldu 1) (scene 0x100 2 0 0 0x100 [0xff, 0x7f]))).getB 1 = 65407 := by decide +kernel
theorem test_ldu_empty : (after (exec (.ldu 1) ((scene 0x1000 0 0 0 0 []).setB 1 5))).getB 1 = 0 := by decide +kernel
theorem test_stb : (after (exec (.stb 1) ((scene 0 0 0xFFE 0 0 []).setB 1 128))).dmem = [(0xFFE, 0x00), (0xFFF, 0x80)] := by
  decide +kernel
theorem test_stb_negative : (after (exec (.stb 1) ((scene 0 0 0x10 0 0 []).setB 1 (-32769)))).dmem =
    [(0x10, 0xff), (0x11, 0x7f), (0x12, 0xff)] := by decide +kernel
theorem test_stu : (after (exec (.stu 1) ((scene 0 4 0x10 0 0 []).setB 1 445))).dmem =
    [(0x10, 0x00), (0x11, 0x00), (0x12, 0x01), (0x13, 0xbd)] := by decide +kernel
theorem test_stu_range : code (exec (.stu 1) ((scene 0 1 0x10 0 0 []).setB 1 256)) = some 9 := by decide +kernel
theorem test_add : (after (exec (.add 1 1 2) (regs [(1, 0xFFFFFFFF), (2, 1)]))).getB 1 = 0x100000000 := by decide +kernel
theorem test_add_capacity : code (exec (.add 3 1 2) (regs [(1, 2 ^ 4096 - 1), (2, 1)])) = some 10 := by decide +kernel
theorem test_sub : (after (exec (.sub 3 1 2) (regs [(1, 3), (2, 10)]))).getB 3 = -7 := by decide +kernel
theorem test_sub_capacity : code (exec (.sub 3 1 2) (regs [(1, 1 - 2 ^ 4096), (2, 1)])) = some 10 := by decide +kernel
theorem test_mul : (after (exec (.mul 3 1 2) (regs [(1, -3), (2, 7)]))).getB 3 = -21 := by decide +kernel
theorem test_mul_capacity : code (exec (.mul 3 1 2) (regs [(1, 2 ^ 2048), (2, 2 ^ 2048)])) = some 10 ∧
    code (exec (.mul 3 1 2) (regs [(1, 2 ^ 2047), (2, 2 ^ 2048)])) = some 0 := by decide +kernel
theorem test_div : (after (exec (.div 3 1 2) (regs [(1, -(2 ^ 100 + 5)), (2, 2 ^ 33)]))).getB 3 = -(2 ^ 67) := by
  decide +kernel
theorem test_div_zero : code (exec (.div 3 1 2) (regs [(1, 1)])) = some 1 := by decide +kernel
theorem test_rem : (after (exec (.rem 3 1 2) (regs [(1, -(2 ^ 100 + 5)), (2, 2 ^ 33)]))).getB 3 = -5 := by decide +kernel
theorem test_divrem : (after (exec (.divrem 1 1 2 2) (regs [(1, -(2 ^ 128)), (2, 3)]))).getB 1 =
      -113427455640312821154458202477256070485 ∧
    (after (exec (.divrem 1 1 2 2) (regs [(1, -(2 ^ 128)), (2, 3)]))).getB 2 = -1 := by decide +kernel
theorem test_mod : (after (exec (.mod 3 1 2) (regs [(1, -(2 ^ 100 + 5)), (2, 2 ^ 33)]))).getB 3 = 8589934587 := by
  decide +kernel
theorem test_mod_negative : (after (exec (.mod 3 1 2) (regs [(1, -3), (2, -5)]))).getB 3 = -8 := by decide +kernel
theorem test_modpow : (after (exec (.modpow 4 1 2 3) (regs [(1, 4), (2, 13), (3, 497)]))).getB 4 = 445 := by
  decide +kernel
theorem test_modpow_negative : (after (exec (.modpow 4 1 2 3) (regs [(1, -2), (2, 3), (3, 5)]))).getB 4 = 2 ∧
    code (exec (.modpow 4 1 2 3) (regs [(1, 2), (2, -1), (3, 5)])) = some 2 := by decide +kernel
theorem test_modinv : (after (exec (.modinv 3 1 2) (regs [(1, 17), (2, 3120)]))).getB 3 = 2753 := by decide +kernel
theorem test_modinv_none : (after (exec (.modinv 3 1 2) (regs [(1, 4), (2, 8), (3, 9)]))).status.noinv = true ∧
    (after (exec (.modinv 3 1 2) (regs [(1, 4), (2, 8), (3, 9)]))).getB 3 = 9 := by decide +kernel
theorem test_cmp : (after (exec (.cmp 1 2) (regs [(1, -5), (2, -3)]))).result = 0xFFFFFFFF ∧
    (after (exec (.cmp 1 2) (regs [(1, -5), (2, -3)]))).status.lt = true := by decide +kernel
theorem test_cmp_equal : (after (exec (.cmp 1 2) (regs [(1, 7), (2, 7)]))).result = 0 ∧
    (after (exec (.cmp 1 2) (regs [(1, 7), (2, 7)]))).status.eq = true := by decide +kernel
theorem test_bitlen : (after (exec (.bitlen 1) (regs [(1, -256)]))).result = 9 ∧
    (after (exec (.bitlen 1) (regs []))).result = 0 := by decide +kernel

/-! ### RSA commands (95_test_vectors.md §4) -/

/-- The toy key of §4 in B1 (n), B2 (e), B3 (d), "Hi!" at 0, the ten padding bytes at 0x20, the output at 0x100. -/
def rsaScene : State :=
  (((scene 0 3 0x100 0x20 0 (hex 0x486921 3)).memWrite 0x20 (hex 0x0102030405060708090a 10)).setB 1
    0x7fffffffffffffff7ffffffffffff951 |>.setB 2 65537).setB 3 0x268e5971a68e59710c54f3ab0c54f1b1

/-- The ciphertext of "Hi!" at 0, to be decrypted to 0x100. -/
def rsaCipherScene : State :=
  ((scene 0 16 0x100 0 0 (hex 0x394137ca922bd3f7fb3e181a6a2ba5ef 16)).setB 1
    0x7fffffffffffffff7ffffffffffff951 |>.setB 2 65537).setB 3 0x268e5971a68e59710c54f3ab0c54f1b1

theorem test_rsaenc : (after (exec (.rsaenc 1 2 true) rsaScene)).dmem.readBytes? 0x100 16 =
    some (hex 0x394137ca922bd3f7fb3e181a6a2ba5ef 16) := by decide +kernel
theorem test_rsaenc_ps_zero : code (exec (.rsaenc 1 2 true) (rsaScene.memWrite 0x29 [0])) = some 14 := by decide +kernel
theorem test_rsadec : (after (exec (.rsadec 1 3) rsaCipherScene)).dmem.readBytes? 0x100 3 = some (hex 0x486921 3) ∧
    (after (exec (.rsadec 1 3) rsaCipherScene)).result = 3 := by decide +kernel
theorem test_rsadec_wrong_exponent : code (exec (.rsadec 1 2) rsaCipherScene) = some 6 := by decide +kernel

/-! ### AES commands (95_test_vectors.md §5) -/

/-- A state with the key of 16 zero bytes loaded and 16 zero bytes at 0, to be encrypted to 0x100. -/
def aesScene : State := (scene 0 16 0x100 0 0 (List.replicate 16 0)).loadKey (List.replicate 16 0)

/-- A state with the key and IV 000102…0f of §5.4 and the given input. -/
def aesScene54 (bs : List Byte) : State :=
  ((scene 0 (BitVec.ofNat 32 bs.length) 0x100 0 0 bs).loadKey
    (hex 0x000102030405060708090a0b0c0d0e0f 16)).loadIv (hex 0x000102030405060708090a0b0c0d0e0f 16)

theorem test_aeskey : ((after (exec .aeskey (scene 0 24 0 0 0
    (hex 0x8e73b0f7da0e6452c810f32b809079e562f8ead2522c6b7b 24)))).aes.keyw[6],
    (after (exec .aeskey (scene 0 24 0 0 0
    (hex 0x8e73b0f7da0e6452c810f32b809079e562f8ead2522c6b7b 24)))).aes.keyw[51]) = (0xfe0c91f7, 0x01002202) := by
  decide +kernel
theorem test_aeskey_length : code (exec .aeskey (scene 0 20 0 0 0 (List.replicate 20 0))) = some 11 := by decide +kernel
theorem test_aesiv : (after (exec .aesiv (scene 0 0 0 0 0 (hex 0x000102030405060708090a0b0c0d0e0f 16)))).aes.iv[1] = 1 := by
  decide +kernel
theorem test_aesiv_range : code (exec .aesiv (scene 0xFF1 0 0 0 0 [])) = some 9 := by decide +kernel
theorem test_aescrypt_ecb : (after (exec (.aescrypt false false false false) aesScene)).dmem.readBytes? 0x100 16 =
    some (hex 0x66e94bd4ef8a2c3b884cfa59ca342b2e 16) := by decide +kernel
theorem test_aescrypt_cbc_pad :
    (after (exec (.aescrypt false true true false) (aesScene54 (hex 0x616263 3)))).dmem.readBytes? 0x100 16 =
      some (hex 0xe717d9be0bd90f750b58e38385f082ab 16) ∧
    (after (exec (.aescrypt true false true false) (aesScene54 (hex 0xf662388a8a33596227d688d904beac4c 16)))).status.padbad =
      true ∧
    code (exec (.aescrypt true false true true) (aesScene54 (hex 0xf662388a8a33596227d688d904beac4c 16))) = some 6 := by
  decide +kernel

/-! ### Hash commands (95_test_vectors.md §6) -/

theorem test_hinit : (after (exec (.hinit 1) ((scene 0 1 0 0 0 [0]).ctxAbsorb 1 [0x61]))).sha.buf = [] := by decide +kernel
theorem test_hupdate : (after (exec (.hupdate 1) (scene 0 64 0 0 0 (List.replicate 64 0x61)))).sha.h =
    #v[0xdf5bb81c, 0xe81e0626, 0xfb45a894, 0x4fd40f31, 0xb25e6816, 0xd6d499c1, 0xab904929, 0x00635e66] := by
  decide +kernel
theorem test_hupdate_range : code (exec (.hupdate 0) (scene 0x1001 0 0 0 0 [])) = some 9 := by decide +kernel
theorem test_hfinal_md5 : (after (exec (.hfinal 0) (scene 0 0 0xFF0 0 0 []))).dmem.readBytes? 0xFF0 16 =
    some (hex 0xd41d8cd98f00b204e9800998ecf8427e 16) := by decide +kernel
theorem test_hfinal_sha256 : (after (exec (.hfinal 1) ((scene 0 0 0xFE0 0 0 []).ctxAbsorb 1 (hex 0x616263 3)))).dmem.readBytes?
    0xFE0 32 = some (hex 0xba7816bf8f01cfea414140de5dae2223b00361a396177a9cb410ff61f20015ad 32) := by decide +kernel

/-! ### The host port and steps (95_test_vectors.md §7) -/

theorem test_host_uninit : faultOf (hostRead .byte 0x1000 State.reset) = some .uninitRead := by decide +kernel
theorem test_host_lanes : (after (hostRead .byte 0x1002 (after (hostWrite .word 0x1000 0x04030201 State.reset)))).rdata = 3 := by
  decide +kernel
theorem test_host_misaligned : faultOf (hostRead .word 0x1002 State.reset) = some .hostBusError ∧
    faultOf (hostRead .byte 0x008 State.reset) = some .hostBusError := by decide +kernel
/-- A legal read of an unmarked byte while busy is HOST_HAZARD, a misaligned one HOST_BUS_ERROR (log entry 11). -/
theorem test_host_fault_order : faultOf (hostRead .byte 0x1000 (pendingOn 0 State.reset)) = some .hostHazard ∧
    faultOf (hostRead .half 0x1001 (pendingOn 0 State.reset)) = some .hostBusError := by decide +kernel
theorem test_host_caps : (after (hostRead .word 0x034 State.reset)).rdata = 0x00100080 ∧
    (after (hostRead .word 0x030 State.reset)).rdata = 0x00001000 := by decide +kernel

/-- A host write of CMD, then the engine's turn: STATUS 1, then 2 (95_test_vectors.md §7). -/
theorem test_step_nop :
    (after (step { State.reset with host := [.write .word 0x010 0x00000000] })).statusWord = 1 ∧
    (after (step (after (step { State.reset with host := [.write .word 0x010 0x00000000] })))).statusWord = 2 := by
  decide +kernel

/-- withFetchWord runs the word as the first command after reset: HFINAL.md5 of the empty message. -/
theorem test_withFetchWord : (after (step (State.reset.withFetchWord 32 0x00000042))).dmem.readBytes? 0 16 =
    some (hex 0xd41d8cd98f00b204e9800998ecf8427e 16) := by decide +kernel

/-! ### Witnesses: states and operands that meet the hypotheses of the obligations -/

theorem pendingOn_scene_inv {w a0 a1 a2 a3 : Word} {a : Nat} {bs : List Byte} (h : a + bs.length ≤ 4096) :
    (pendingOn w (scene a0 a1 a2 a3 a bs)).Inv where
  dmem_wf := Memory.writeBytes_wf Memory.nil_wf h
  regs_fit r := by
    have h0 : (pendingOn w (scene a0 a1 a2 a3 a bs)).getB r = 0 := by
      simp [State.getB, pendingOn, scene, State.reset, Vector.get]
    rw [h0]; decide +kernel
  pending_eq_busy := rfl
  pending_clear _ := ⟨rfl, rfl, rfl⟩
  cmdreg_eq_lcmd := rfl
  errcode_legal := ⟨Nat.zero_le _, fun h => absurd h (by decide : (0 : BitVec 8) ≠ 4)⟩
  err_code h := by cases h
  flags_exclusive := ⟨(fun h => nomatch h.1), (fun h => nomatch h.1), (fun h => nomatch h.1)⟩
  key_shape h := by cases h
  md5_buf := rfl
  sha_buf := rfl
  rst_held h := by cases h

theorem witness_ResetValues : ∃ s : State, s.pending = false ∧ s.dmem ≠ [] :=
  ⟨scene 0 0 0 0 0xFFF [1], by decide⟩

theorem witness_StepKeepsInvariant : ∃ s t : State, s.Inv ∧ step s = .next t := by
  obtain ⟨t, h⟩ := next_of (o := step (pendingOn 0x01000042 (scene 0 0 0xFE0 0 5 [1]))) (by decide +kernel)
  exact ⟨_, t, pendingOn_scene_inv (by decide), h⟩

/-- Each kind of pending command, and a soft reset; the lengths are those of R255 (log entry 12). -/
theorem witness_SoftResetWhileBusy : (2#32).getLsbD 1 = true ∧
    (∀ w, (pendingOn w rsaScene).pending = true) ∧
    (decode 0x00002005 = .ok (.stb 2) ∧ (tcEncode (rsaScene.getB 2)).length = 3) ∧
    (decode 0x00001006 = .ok (.stu 1) ∧ rsaScene.larg.arg1.toNat = 3) ∧
    (decode 0x00021020 = .ok (.rsaenc 1 2 false) ∧ (bitlen (rsaScene.getB 1).natAbs + 7) / 8 = 16) ∧
    (decode 0x00021021 = .ok (.rsadec 1 2) ∧ (bitlen (rsaScene.getB 1).natAbs + 7) / 8 - 11 = 5) ∧
    decode 0x04000032 = .ok (.aescrypt false false true false) ∧ decode 0x00000032 = .ok (.aescrypt false false false false) ∧
    decode 0x01000042 = .ok (.hfinal 1) ∧ decode 0x00000042 = .ok (.hfinal 0) ∧ decode 0x00000007 = .error .illegalCommand ∧
    decode 0x02000042 = .error .unsupportedAlgorithm :=
  ⟨rfl, fun _ => rfl, ⟨rfl, by decide +kernel⟩, ⟨rfl, by decide +kernel⟩, ⟨rfl, by decide +kernel⟩,
    ⟨rfl, by decide +kernel⟩, rfl, rfl, rfl, rfl, rfl, rfl⟩

/-- A soft reset while an HFINAL word with ALG = 2 is pending unmarks nothing (log entry 12). -/
theorem test_soft_reset_undecodable :
    (after (hostWrite .word 0x004 2 (pendingOn 0x02000042 (scene 0 0 0x100 0 0x100 [7])))).dmem = [(0x100, 7)] := by
  decide +kernel

/-- A soft reset while HFINAL.md5 to 0x100 is pending unmarks 0x100 to 0x10F only. -/
theorem test_soft_reset_unmarks :
    (after (hostWrite .word 0x004 2 (pendingOn 0x00000042 (scene 0 0 0x100 0 0xFF (List.replicate 18 7))))).dmem =
      [(0xFF, 7), (0x110, 7)] := by decide +kernel

theorem witness_HardwareReset : ∃ s : State, s.rst = true := ⟨{ State.reset with rst := true }, rfl⟩

theorem witness_ReservedAndReadOnly : ∀ off ∈ [0x018, 0x01C, 0x038, 0xFFC],
    off % 4 = 0 ∧ (off = 0x018 ∨ off = 0x01C ∨ (0x038 ≤ off ∧ off ≤ 0xFFC)) := by decide

theorem witness_CtrlRegister : (3#32).getLsbD 1 = true ∧ (1#32).getLsbD 1 = false := by decide

theorem witness_CommandIssue : State.reset.status.busy = false ∧ (pendingOn 0 State.reset).status.busy = true := ⟨rfl, rfl⟩

theorem witness_ArgRegisters :
    (State.reset.status.busy = false ∧ ∃ t, hostWrite .word 0x010 0x101 State.reset = .next t) ∧
    ∃ t, engineStep (pendingOn 0x101 State.reset) = .next t :=
  ⟨⟨rfl, next_of (by decide +kernel)⟩, next_of (by decide +kernel)⟩

theorem witness_HostReadsHaveNoSideEffect : (∃ t, hostAccess (.read .word 0xFFC) State.reset = .next t) ∧
    ∃ t, hostAccess (.read .byte 0x1FFF) (scene 0 0 0 0 0xFFF [1]) = .next t :=
  ⟨next_of (by decide +kernel), next_of (by decide +kernel)⟩

/-- Registers, the window and illegal accesses at the ends of their ranges; a busy and an idle engine. -/
theorem witness_HostBusRules :
    (∀ off ∈ [0x000, 0xFFC], off < 0x1000 ∧ off % 4 = 0) ∧
    (0x1000 ≤ 0x1FFF ∧ 0x1FFF < 0x2000) ∧ (0x1FFE % 2 = 0 ∧ 0x1FFE < 0x2000) ∧ (0x1FFC % 4 = 0 ∧ 0x1FFC < 0x2000) ∧
    ¬ ((0xFFE < 0x1000 ∧ Width.half = .word ∧ 0xFFE % 4 = 0) ∨
      (0x1000 ≤ 0xFFE ∧ (Width.half = .byte ∨ (Width.half = .half ∧ 0xFFE % 2 = 0) ∨ (Width.half = .word ∧ 0xFFE % 4 = 0)))) ∧
    ¬ ((0x1002 < 0x1000 ∧ Width.word = .word ∧ 0x1002 % 4 = 0) ∨
      (0x1000 ≤ 0x1002 ∧ (Width.word = .byte ∨ (Width.word = .half ∧ 0x1002 % 2 = 0) ∨
        (Width.word = .word ∧ 0x1002 % 4 = 0)))) ∧
    State.reset.status.busy = false ∧
    ∃ s : State, s.Inv ∧ s.status.busy = true :=
  ⟨by decide, by decide, by decide, by decide, by decide, by decide, rfl,
    _, pendingOn_scene_inv (w := 0) (a0 := 0) (a1 := 0) (a2 := 0) (a3 := 0) (a := 0) (bs := []) (by decide), rfl⟩

theorem witness_InitialisedMarks_host :
    (∃ t, hostWrite .word 0x1FFC 1 State.reset = .next t) ∧ 3 < Width.word.bytes ∧ State.reset.pending = false ∧
    (State.reset.status.busy = false ∧ 0x1FFC % Width.word.bytes = 0 ∧
      (scene 0 0 0 0 0xFFC [1, 2, 3]).dmem.read? (0x1FFC - 0x1000 + 3) = none) :=
  ⟨next_of (by decide +kernel), by decide, rfl, rfl, by decide, by decide +kernel⟩

/-- Ranges whose last byte is unmarked, source or destination ending with DMEM: the IV, one whole block without padding (a
destination of exactly 16 bytes), a message, a ciphertext whose plaintext may take exactly the k - 11 = 5 bytes. -/
theorem witness_InitialisedMarks_commands :
    ((scene 0xFF0 16 0 0 0 []).dmem.read? (0xFF0 + 15) = none ∧ inDmem 0xFF0 16) ∧
    (∃ s : State, s.aes.keyValid = true ∧ s.larg.arg1.toNat % 16 = 0 ∧ s.larg.arg2.toNat + s.larg.arg1.toNat = 4096 ∧
      inDmem s.larg.arg0.toNat s.larg.arg1.toNat ∧ s.dmem.read? (s.larg.arg0.toNat + 15) = none) ∧
    (∃ s : State, (256 : Int) ^ (16 - 1) ≤ s.getB 1 ∧ s.getB 1 < 256 ^ 16 ∧ 0 ≤ s.getB 2 ∧
      inDmem s.larg.arg2.toNat 16 ∧ inDmem s.larg.arg0.toNat s.larg.arg1.toNat ∧ s.larg.arg1.toNat + 11 ≤ 16 ∧
      s.dmem.read? (s.larg.arg0.toNat + 2) = none) ∧
    (∃ s : State, (256 : Int) ^ (16 - 1) ≤ s.getB 1 ∧ s.getB 1 < 256 ^ 16 ∧ 0 ≤ s.getB 3 ∧
      s.larg.arg2.toNat + (16 - 11) = 4096 ∧ inDmem s.larg.arg0.toNat s.larg.arg1.toNat ∧
      s.dmem.read? (s.larg.arg0.toNat + 15) = none) :=
  ⟨by decide +kernel,
    ⟨(scene 0xFF0 16 0xFF0 0 0 []).loadKey (List.replicate 16 0), by decide +kernel⟩,
    ⟨{ rsaScene with dmem := [] }, by decide +kernel⟩,
    ⟨{ rsaCipherScene with dmem := [], larg := ⟨0, 16, 0xFFB, 0⟩ }, by decide +kernel⟩⟩

/-- RSAENC with PSSRC = 1: the padding bytes held and the last message byte unmarked; the last padding byte unmarked. -/
theorem witness_InitialisedMarks_padding :
    (∃ s : State, (256 : Int) ^ (16 - 1) ≤ s.getB 1 ∧ s.getB 1 < 256 ^ 16 ∧ 0 ≤ s.getB 2 ∧
      inDmem s.larg.arg2.toNat 16 ∧ inDmem s.larg.arg0.toNat s.larg.arg1.toNat ∧ s.larg.arg1.toNat + 11 ≤ 16 ∧
      s.dmem.read? (s.larg.arg0.toNat + 2) = none ∧
      ∃ ps : List Byte, s.holds s.larg.arg3.toNat ps ∧ ps.length = 16 - s.larg.arg1.toNat - 3 ∧
        (∀ x ∈ ps, x ≠ 0x00) ∧ inDmem s.larg.arg3.toNat ps.length) ∧
    (∃ s : State, (256 : Int) ^ (16 - 1) ≤ s.getB 1 ∧ s.getB 1 < 256 ^ 16 ∧ 0 ≤ s.getB 2 ∧
      inDmem s.larg.arg0.toNat s.larg.arg1.toNat ∧ inDmem s.larg.arg2.toNat 16 ∧ s.larg.arg1.toNat + 11 ≤ 16 ∧
      inDmem s.larg.arg3.toNat (16 - s.larg.arg1.toNat - 3) ∧ 9 < 16 - s.larg.arg1.toNat - 3 ∧
      s.dmem.read? (s.larg.arg3.toNat + 9) = none) := by
  refine ⟨⟨{ rsaScene with dmem := Memory.writeBytes [] 0x20 (List.replicate 10 7) }, ?_⟩,
    ⟨{ rsaScene with dmem := Memory.writeBytes [] 0 [0x48, 0x69, 0x21] }, by decide +kernel⟩⟩
  have held : State.holds { rsaScene with dmem := Memory.writeBytes [] 0x20 (List.replicate 10 7) } 0x20
      (List.replicate 10 7) := holds_of (by decide +kernel)
  simp only [← and_assoc]
  exact ⟨by decide +kernel, List.replicate 10 7, by exact ⟨⟨⟨held, by decide⟩, by decide⟩, by decide⟩⟩

theorem witness_WindowByteLanes : 0xFFC < 0x1000 ∧ 0xFFC % Width.word.bytes = 0 ∧ State.reset.status.busy = false ∧
    (scene 0 0 0 0 0xFFC [1, 2, 3, 4]).holds 0xFFC [1, 2, 3, 4] :=
  ⟨by decide, by decide, rfl, holds_of (by decide +kernel)⟩

theorem witness_InterruptOutput : (∃ t, hostWrite .word 0x004 1 State.reset = .next t) ∧
    (∃ t, hostWrite .word 0x008 2 State.reset = .next t) ∧ State.reset.status.busy = false ∧
    ∃ t, hostWrite .word 0x010 2 State.reset = .next t :=
  ⟨next_of (by decide +kernel), next_of (by decide +kernel), rfl, next_of (by decide +kernel)⟩

theorem witness_OpcodeMap : (0 : RegIdx) ≠ 15 ∧ ((true = true → true = true ∧ true = true)) ∧ (1#2).toNat < 2 := by decide

theorem witness_DecodeAfterEncode : (Instr.divrem 15 0 1 14).wellFormed = true ∧
    (Instr.aescrypt true true true true).wellFormed = true ∧ (Instr.hupdate 1).wellFormed = true := by decide

theorem witness_EncodeAfterDecode : decode 0x00E10F15 = .ok (.divrem 15 0 1 14) ∧
    decode 0x0F000032 = .ok (.aescrypt true true true true) := ⟨rfl, rfl⟩

theorem witness_SboxTables : (1 : Byte) ≠ 0 := by decide

/-- A reserved opcode at each end of its ranges, pending; and a word of a legal opcode for each clause. -/
theorem witness_IllegalWords :
    (reservedOpcode 0x07 ∧ reservedOpcode 0x43 ∧ reservedOpcode 0xFF) ∧
    ((pendingOn 0xFF State.reset).pending = true ∧ (pendingOn 0xFF State.reset).lcmd = 0xFF) ∧
    (⟨0x32, 0x0F0000FF⟩ ∈ opcodeMap ∧ (0x09000032#32).getLsbD 27 = true ∧ (0x09000032#32).getLsbD 26 = false) ∧
    (⟨0x15, 0x00FFFFFF⟩ ∈ opcodeMap ∧ (0x00331315#32).extractLsb' 8 4 = (0x00331315#32).extractLsb' 20 4) ∧
    (⟨0x42, 0x030000FF⟩ ∈ opcodeMap ∧ (0x02000042#32) &&& ~~~0x030000FF = 0 ∧ (0x02000042#32).getLsbD 25 = true) ∧
    (⟨0x42, 0x030000FF⟩ ∈ opcodeMap ∧ (0x01000042#32) &&& ~~~0x030000FF = 0 ∧ (0x01000042#32).getLsbD 25 = false) := by
  unfold reservedOpcode
  refine ⟨by decide, ⟨rfl, rfl⟩, by decide, by decide, by decide, by decide⟩

theorem witness_EngineStep : (pendingOn 0x42 State.reset).pending = true ∧
    decode (pendingOn 0x42 State.reset).lcmd = .ok (.hfinal 0) ∧
    decode (pendingOn 0x07 State.reset).lcmd = .error .illegalCommand ∧ State.reset.pending = false :=
  ⟨rfl, rfl, rfl, rfl⟩

/-- The engine is next with an empty schedule and with its turn scheduled. -/
theorem witness_StepRunsTheDecodedCommand :
    (pendingOn 0x42 State.reset).engineNext ∧ ({ pendingOn 0x07 State.reset with sched := [.engine, .host] }).engineNext ∧
    decode (pendingOn 0x42 State.reset).lcmd = .ok (.hfinal 0) ∧
    decode (pendingOn 0x07 State.reset).lcmd = .error .illegalCommand :=
  ⟨⟨rfl, .inr ⟨rfl, rfl⟩⟩, ⟨rfl, .inl rfl⟩, rfl, rfl⟩

/-- The host is next with an empty schedule and an idle engine, and with its turn scheduled while a command is pending. -/
theorem witness_StepRunsTheDecodedCommand_host :
    ({ State.reset with host := [.read .word 0] }).hostNext ∧ State.reset.hostNext ∧ State.reset.host = [] ∧
    ({ pendingOn 0x42 State.reset with sched := [.host], host := [.write .word 0x004 2] }).hostNext :=
  ⟨⟨rfl, .inr ⟨rfl, rfl⟩⟩, ⟨rfl, .inr ⟨rfl, rfl⟩⟩, rfl, ⟨rfl, .inl rfl⟩⟩

/-- A command that completes, and one that completes with an error; for the statements about `exec i s = next t`. -/
theorem witness_Completion : (∃ t, exec (.ldi 1) State.reset = .next t) ∧
    (∃ t, engineStep (pendingOn 0x101 State.reset) = .next t) ∧
    ∃ t, exec (.div 1 2 3) State.reset = .next t ∧ t.status.err = true := by
  refine ⟨next_of (by decide +kernel), next_of (by decide +kernel), ?_⟩
  obtain ⟨t, h⟩ := next_of (o := exec (.div 1 2 3) State.reset) (by decide +kernel)
  have : (after (exec (.div 1 2 3) State.reset)).status.err = true := by decide +kernel
  exact ⟨t, h, by rwa [h] at this⟩

/-- Registers whose MOD does not fit: −2 modulo −(2^4096 − 1). -/
def modScene : State := regs [(1, -2), (2, 1 - 2 ^ 4096)]

theorem witness_ErrorsOfEachCommand : (Instr.mod 3 1 2).wellFormed = true ∧
    (∀ r, (modScene.getB r).natAbs < 2 ^ 4096) ∧ (∃ t, exec (.mod 3 1 2) modScene = .next t ∧ t.errcode = 10) := by
  refine ⟨rfl, by decide +kernel, ?_⟩
  obtain ⟨t, h⟩ := next_of (o := exec (.mod 3 1 2) modScene) (by decide +kernel)
  have : (after (exec (.mod 3 1 2) modScene)).errcode = 10 := by decide +kernel
  exact ⟨t, h, by rwa [h] at this⟩

theorem read?_filled (n : Nat) : ∀ a x : Nat, a ≤ x → x < a + n →
    Memory.read? ((List.range' a n).map fun k => (k, 0x00)) x = some 0x00 := by
  induction n with
  | zero => intro a x h1 h2; omega
  | succ n ih =>
    intro a x h1 h2
    simp only [List.range'_succ, List.map_cons, Memory.read?]
    split
    · rfl
    · exact ih (a + 1) x (by omega) (by omega)

theorem witness_CommandsAlwaysAnswer : ∃ s : State, ∀ a, a < 4096 → (s.dmem.read? a).isSome = true :=
  ⟨{ State.reset with dmem := (List.range' 0 4096).map fun k => (k, 0x00) }, fun a h => by
    rw [read?_filled 4096 0 a (Nat.zero_le a) (by omega)]; rfl⟩

/-- A command of each kind the frames tell apart, each completing. -/
theorem witness_Frames : (∃ t, exec (.cmp 1 2) State.reset = .next t) ∧ (∃ t, exec (.modinv 1 2 3) State.reset = .next t) ∧
    (∃ t, exec (.aescrypt false false false false) aesScene = .next t) ∧
    (∃ t, exec .aeskey (scene 0xFF0 16 0 0 0xFF0 (List.replicate 16 0)) = .next t) ∧
    (∃ t, exec .aesiv (scene 0xFF0 16 0 0 0xFF0 (List.replicate 16 0)) = .next t) ∧
    (∃ t, exec (.hinit 0) State.reset = .next t) ∧ (∃ t, exec (.hupdate 1) (scene 0xFFF 1 0 0 0xFFF [1]) = .next t) ∧
    (∃ t, exec (.hfinal 1) (scene 0 0 0xFE0 0 0 []) = .next t) ∧
    (∃ t, exec (.rsaenc 1 2 true) rsaScene = .next t) :=
  ⟨next_of (by decide +kernel), next_of (by decide +kernel), next_of (by decide +kernel), next_of (by decide +kernel),
    next_of (by decide +kernel), next_of (by decide +kernel), next_of (by decide +kernel), next_of (by decide +kernel),
    next_of (by decide +kernel)⟩

theorem witness_EngineFrame : ∃ t, exec (.cmp 1 2) State.reset = .next t := witness_Frames.1

theorem witness_CommandsReadNeitherArgsNorFlags : ∃ t, exec (.modinv 1 2 3) State.reset = .next t := witness_Frames.2.1

theorem witness_EngineFrame_flags : (∃ t, exec (.cmp 1 2) State.reset = .next t) ∧
    (∀ ra rb, Instr.hinit 0 ≠ .cmp ra rb) ∧ (∀ rd ra rb, Instr.hinit 0 ≠ .modinv rd ra rb) ∧
    (∀ dec cbc pad strict, Instr.hinit 0 ≠ .aescrypt dec cbc pad strict) ∧ ∃ t, exec (.hinit 0) State.reset = .next t :=
  ⟨witness_Frames.1, by intros; simp, by intros; simp, by intros; simp, witness_Frames.2.2.2.2.2.1⟩

theorem witness_CryptoStateFrame : aesScene.aes.keyValid = true ∧
    (aesScene54 []).aes.ivValid = true ∧ Instr.aescrypt false false false false ≠ .aeskey ∧
    Instr.aescrypt false false false false ≠ .aesiv ∧ (∃ t, exec (.aescrypt false false false false) aesScene = .next t) ∧
    (∃ t, exec (.hupdate 1) (scene 0xFFF 1 0 0 0xFFF [1]) = .next t) ∧ ∃ t, exec (.hinit 0) State.reset = .next t :=
  ⟨rfl, rfl, by decide, by decide, witness_Frames.2.2.1, witness_Frames.2.2.2.2.2.2.1, witness_Frames.2.2.2.2.2.1⟩

theorem witness_ResultAndRegisterFrame : (Instr.ldi 1).writesResult = false ∧ (0 : RegIdx) ∉ (Instr.ldi 1).destRegs ∧
    (∃ t, exec (.ldi 1) State.reset = .next t) ∧ ∃ t, exec (.div 1 2 3) State.reset = .next t ∧ t.status.err = true :=
  ⟨rfl, by decide, witness_Completion.1, witness_Completion.2.2⟩

/-- Sums, differences, products and byte strings just beyond the capacity. -/
theorem witness_CapacityOfRegisters_others : (2 : Nat) ^ 4096 ≤ ((2 : Int) ^ 4096 - 1 + 1).natAbs ∧
    (2 : Nat) ^ 4096 ≤ (1 - (2 : Int) ^ 4096 - 1).natAbs ∧ (2 : Nat) ^ 4096 ≤ ((2 : Int) ^ 2048 * 2 ^ 2048).natAbs ∧
    2 ^ 4096 ≤ (tcDecode (0x01 :: List.replicate 512 0x00)).natAbs ∧ 2 ^ 4096 ≤ os2ip (0x01 :: List.replicate 512 0x00) ∧
    inDmem 0xDFF (0x01 :: List.replicate 512 (0x00 : Byte)).length ∧
    (scene 0xDFF 513 0 0 0xDFF (0x01 :: List.replicate 512 0x00)).larg.arg1.toNat =
      (0x01 :: List.replicate 512 (0x00 : Byte)).length ∧
    (scene 0xDFF 513 0 0 0xDFF (0x01 :: List.replicate 512 0x00)).holds 0xDFF (0x01 :: List.replicate 512 0x00) :=
  ⟨by decide +kernel, by decide +kernel, by decide +kernel, by decide +kernel, by decide +kernel, by decide +kernel,
    by decide +kernel, scene_holds⟩

theorem witness_CapacityOfRegisters : (∀ r, (modScene.getB r).natAbs < 2 ^ 4096) ∧ modScene.getB 2 ≠ 0 ∧
    2 ^ 4096 ≤ (if (modScene.getB 1).tmod (modScene.getB 2) < 0 then (modScene.getB 1).tmod (modScene.getB 2) + modScene.getB 2
      else (modScene.getB 1).tmod (modScene.getB 2)).natAbs := by decide +kernel

/-- STB of 128 to the last two bytes stores; to the last byte it does not. -/
theorem witness_MemoryFrame :
    (∃ t, exec (.stb 1) ((scene 0 0 0xFFE 0 0 []).setB 1 128) = .next t ∧ t.status.err = false) ∧
    ∃ t, exec (.stb 1) ((scene 0 0 0xFFF 0 0 []).setB 1 128) = .next t ∧ t.status.err = true := by
  obtain ⟨t, h⟩ := next_of (o := exec (.stb 1) ((scene 0 0 0xFFE 0 0 []).setB 1 128)) (by decide +kernel)
  obtain ⟨u, h'⟩ := next_of (o := exec (.stb 1) ((scene 0 0 0xFFF 0 0 []).setB 1 128)) (by decide +kernel)
  have e : (after (exec (.stb 1) ((scene 0 0 0xFFE 0 0 []).setB 1 128))).status.err = false := by decide +kernel
  have e' : (after (exec (.stb 1) ((scene 0 0 0xFFF 0 0 []).setB 1 128))).status.err = true := by decide +kernel
  exact ⟨⟨t, h, by rwa [h] at e⟩, u, h', by rwa [h'] at e'⟩

theorem witness_LoadFromBytes : ¬ inDmem 0xFFF 2 ∧ inDmem 0xE00 512 ∧
    (scene 0xE00 512 0 0 0xE00 (List.replicate 512 0xFF)).larg.arg1.toNat = (List.replicate 512 (0xFF : Byte)).length ∧
    (scene 0xE00 512 0 0 0xE00 (List.replicate 512 0xFF)).holds 0xE00 (List.replicate 512 0xFF) :=
  ⟨by decide, by decide, by rw [List.length_replicate]; decide, scene_holds⟩

theorem witness_StoreTwosComplement : (modScene.getB 2).natAbs < 2 ^ 4096 ∧ inDmem 0xFFE 2 ∧ ¬ inDmem 0xFFF 2 := by
  decide +kernel

theorem witness_StoreUnsigned :
    (inDmem 0xFFC 4 ∧ (0 : Int) ≤ 1 ∧ (1 : Int) < 256 ^ 4) ∧ (inDmem 0x1000 0 ∧ (0 : Int) ≤ 0 ∧ (0 : Int) < 256 ^ 0) ∧
    ¬ inDmem 0xFFE 4 ∧ (-1 : Int) < 0 ∧ (256 : Int) ^ 1 ≤ 256 := by decide +kernel

theorem witness_TwosComplementRoundTrip : ∃ s : State, (s.getB 1).natAbs < 2 ^ 4096 ∧ inDmem s.larg.arg2.toNat 513 :=
  ⟨(scene 0 0 3583 0 0 []).setB 1 (2 ^ 4096 - 1), by decide +kernel⟩

theorem witness_DivRemDivrem : modScene.getB 2 ≠ 0 ∧ modScene.getB 3 = 0 ∧ (4 : RegIdx) ≠ 3 ∧ (3 : RegIdx) = 3 := by
  decide +kernel

theorem witness_ModOperation :
    ((-5 : Int) ≠ 0 ∧ (if (-3 : Int).tmod (-5) < 0 then (-3 : Int).tmod (-5) + -5 else (-3 : Int).tmod (-5)).natAbs < 2 ^ 4096) ∧
    ((0 : Int) < 2 ^ 4096 - 1 ∧ (2 : Int) ^ 4096 - 1 < 2 ^ 4096) ∧ (State.reset.getB 2 = 0) := by decide +kernel

theorem witness_ModularExponentiation : ((0 : Int) < 1 ∧ (0 : Int) ≤ 0) ∧ (0 : Int) ≤ 0 ∧ (-1 : Int) < 0 := by decide

theorem witness_ModularInverse : ((0 : Int) ≤ 0) ∧ ((0 : Int) < 8 ∧ Int.gcd (4 % 8) 8 ≠ 1) ∧
    ((0 : Int) < 1 ∧ Int.gcd (5 % 1) 1 = 1) ∧
    ((0 : Int) < 7 ∧ (0 : Int) ≤ 5 ∧ (5 : Int) < 7 ∧ (3 * 5 % 7 : Int) = 1 % 7) := by decide +kernel

/-- The toy key's message "Hi!", with its padding in DMEM; the longest message, with eight padding bytes. -/
theorem witness_RsaEncrypt : (256 : Int) ^ (16 - 1) ≤ rsaScene.getB 1 ∧ rsaScene.getB 1 < 256 ^ 16 ∧ 0 ≤ rsaScene.getB 2 ∧
    rsaScene.larg.arg1.toNat = 3 ∧ 5 + 11 ≤ 16 ∧ inDmem rsaScene.larg.arg0.toNat 3 ∧ inDmem rsaScene.larg.arg2.toNat 16 ∧
    rsaScene.holds 0 (hex 0x486921 3) ∧
    ((hex 0x0102030405060708090a 10).length = 16 - 3 - 3 ∧ (∀ x ∈ hex 0x0102030405060708090a 10, x ≠ 0x00) ∧
      inDmem rsaScene.larg.arg3.toNat 10 ∧ rsaScene.holds 0x20 (hex 0x0102030405060708090a 10)) :=
  ⟨by decide +kernel, by decide +kernel, by decide +kernel, by decide +kernel, by decide, by decide +kernel,
    by decide +kernel, holds_of (by decide +kernel), by decide +kernel, by decide +kernel, by decide +kernel,
    holds_of (by decide +kernel)⟩

/-- "Hi!" decrypted with d is a block of type 2; with e it is no block (95_test_vectors.md §4). -/
theorem witness_RsaDecrypt : (256 : Int) ^ (16 - 1) ≤ rsaCipherScene.getB 1 ∧ rsaCipherScene.getB 1 < 256 ^ 16 ∧
    0 ≤ rsaCipherScene.getB 3 ∧ 0 ≤ rsaCipherScene.getB 2 ∧ inDmem rsaCipherScene.larg.arg0.toNat 16 ∧
    inDmem rsaCipherScene.larg.arg2.toNat (16 - 11) ∧ rsaCipherScene.holds 0 (hex 0x394137ca922bd3f7fb3e181a6a2ba5ef 16) ∧
    ([0x00, 0x02] ++ hex 0x0102030405060708090a 10 ++ [0x00] ++ hex 0x486921 3).length = 16 ∧
    (os2ip ([0x00, 0x02] ++ hex 0x0102030405060708090a 10 ++ [0x00] ++ hex 0x486921 3) : Int) =
      modPow 0x394137ca922bd3f7fb3e181a6a2ba5ef 0x268e5971a68e59710c54f3ab0c54f1b1 0x7fffffffffffffff7ffffffffffff951 ∧
    (os2ip (hex 0x1192e5e76ad61c6ab333c05675c1094e 16) : Int) =
      modPow 0x394137ca922bd3f7fb3e181a6a2ba5ef 65537 0x7fffffffffffffff7ffffffffffff951 ∧
    ¬ ∃ (ty : Byte) (xs msg : List Byte),
      hex 0x1192e5e76ad61c6ab333c05675c1094e 16 = [0x00, ty] ++ xs ++ [0x00] ++ msg ∧ (ty = 0x01 ∨ ty = 0x02) ∧
        (∀ x ∈ xs, x ≠ 0x00) ∧ 8 ≤ xs.length := by
  refine ⟨by decide +kernel, by decide +kernel, by decide +kernel, by decide +kernel, by decide +kernel, by decide +kernel,
    holds_of (by decide +kernel), by decide +kernel, by decide +kernel, by decide +kernel, ?_⟩
  rintro ⟨ty, xs, msg, h, -⟩
  have h0 : some (0x11 : Byte) = some 0x00 := (congrArg List.head? h :)
  exact absurd h0 (by decide)

/-- The checks of RSAENC and RSADEC failing one after another, at the ends of their ranges. -/
theorem witness_RsaErrorPriority : (State.reset.getB 1 ≤ 0 ∧ (-1 : Int) < 0) ∧
    (0 < 16 ∧ (256 : Int) ^ (16 - 1) ≤ rsaScene.getB 1 ∧ rsaScene.getB 1 < 256 ^ 16 ∧ 0 ≤ rsaScene.getB 2) ∧
    (¬ inDmem 0xFFE 3 ∧ ¬ inDmem 0xFF1 16 ∧ ¬ inDmem 0xFFC (16 - 11)) ∧ (16 < 6 + 11 ∧ 5 + 11 ≤ 16) ∧
    (¬ inDmem 0xFF8 (16 - 3 - 3)) ∧
    (inDmem (rsaScene.memWrite 0x29 [0]).larg.arg3.toNat 10 ∧
      (rsaScene.memWrite 0x29 [0]).holds 0x20 (hex 0x01020304050607080900 10) ∧
      (0x00 : Byte) ∈ hex 0x01020304050607080900 10) :=
  ⟨by decide +kernel, by decide +kernel, by decide, by decide, by decide, by decide +kernel,
    holds_of (by decide +kernel), by decide +kernel⟩

/-- A key pair of the primes 3 and 2^89 − 1 (Lucas–Lehmer), k = 12, with a message of one byte. -/
def pairScene : State :=
  (((scene 0 1 0xFF4 0x20 0 [0x41]).memWrite 0x20 (hex 0x0101010101010102 8)).setB 1 (3 * (2 ^ 89 - 1)) |>.setB 2 7).setB 3
    0x2db6db6db6db6db6db6db6b

theorem witness_RsaRoundTrip : Nat.Prime 3 ∧ Nat.Prime (mersenne 89) ∧ 3 ≠ mersenne 89 ∧
    pairScene.getB 1 = (3 : Nat) * (mersenne 89 : Nat) ∧ 0 ≤ pairScene.getB 2 ∧ 0 ≤ pairScene.getB 3 ∧
    pairScene.getB 2 * pairScene.getB 3 % ((3 - 1) * (mersenne 89 - 1) : Nat) = 1 ∧
    (256 : Int) ^ (12 - 1) ≤ pairScene.getB 1 ∧ pairScene.getB 1 < 256 ^ 12 ∧
    pairScene.larg.arg1.toNat = 1 ∧ 1 + 11 ≤ 12 ∧ inDmem pairScene.larg.arg0.toNat 1 ∧
    inDmem pairScene.larg.arg2.toNat 12 ∧ pairScene.holds 0 [0x41] ∧
    ((hex 0x0101010101010102 8).length = 12 - 1 - 3 ∧ (∀ x ∈ hex 0x0101010101010102 8, x ≠ 0x00) ∧
      inDmem pairScene.larg.arg3.toNat 8 ∧ pairScene.holds 0x20 (hex 0x0101010101010102 8)) ∧
    (⟨0xFF4, 12, 0xFFF, 0⟩ : Args).arg0 = pairScene.larg.arg2 ∧ inDmem 0xFFF (12 - 11) := by
  have small : ∀ r ∈ [1, 2, 3], 0 ≤ pairScene.getB r := by decide +kernel
  have modulus : pairScene.getB 1 = (3 : Nat) * (mersenne 89 : Nat) ∧ (256 : Int) ^ (12 - 1) ≤ pairScene.getB 1 ∧
      pairScene.getB 1 < 256 ^ 12 := by decide +kernel
  have inverse : pairScene.getB 2 * pairScene.getB 3 % ((3 - 1) * (mersenne 89 - 1) : Nat) = 1 := by decide +kernel
  have ranges : pairScene.larg.arg1.toNat = 1 ∧ inDmem pairScene.larg.arg0.toNat 1 ∧ inDmem pairScene.larg.arg2.toNat 12 ∧
      inDmem pairScene.larg.arg3.toNat 8 := by decide +kernel
  have message : pairScene.holds 0 [0x41] := holds_of (by decide +kernel)
  have padding : pairScene.holds 0x20 (hex 0x0101010101010102 8) := holds_of (by decide +kernel)
  exact ⟨Nat.prime_three, lucas_lehmer_sufficiency _ (by simp) (by norm_num), by decide +kernel, modulus.1,
    small 2 (by decide), small 3 (by decide), inverse, modulus.2.1, modulus.2.2, ranges.1, by decide, ranges.2.1,
    ranges.2.2.1, message, ⟨by decide +kernel, by decide +kernel, ranges.2.2.2, padding⟩, rfl, by decide⟩

theorem witness_AesKeyAndIvLoad :
    (¬ ((15 : Nat) = 16 ∨ (15 : Nat) = 24 ∨ (15 : Nat) = 32)) ∧ ¬ inDmem 0xFF8 16 ∧ ¬ inDmem 0xFF1 16 ∧
    (∀ n ∈ [16, 24, 32], (scene 0xFE0 (BitVec.ofNat 32 n) 0 0 0xFE0 (List.replicate 32 7)).holds 0xFE0 (List.replicate n 7) ∧
      inDmem 0xFE0 n) := by
  refine ⟨by decide, by decide, by decide, fun n hn => ⟨holds_of ?_, ?_⟩⟩
  · revert n; decide +kernel
  · revert n; decide

theorem witness_AesBlockTransform : (List.replicate 16 (7 : Byte)).length = 16 := rfl

theorem witness_AesRoundSteps : (List.replicate 16 (7 : Byte)).length = 16 ∧ 3 < 4 := by decide

/-- "abc" with padding in CBC mode; a whole block without padding whose output ends DMEM. -/
theorem witness_AesEncrypt :
    (∃ s : State, s.aes.keyValid = true ∧ s.aes.ivValid = true ∧ s.larg.arg1.toNat = 3 ∧ inDmem s.larg.arg0.toNat 3 ∧
      s.holds s.larg.arg0.toNat [0x61, 0x62, 0x63] ∧ inDmem s.larg.arg2.toNat 16) ∧
    (∃ s : State, s.aes.keyValid = true ∧ s.larg.arg1.toNat = 16 ∧ inDmem s.larg.arg0.toNat 16 ∧
      s.holds s.larg.arg0.toNat (List.replicate 16 0) ∧ s.larg.arg2.toNat + 16 = 4096) :=
  ⟨⟨aesScene54 [0x61, 0x62, 0x63], by decide +kernel, by decide +kernel, by decide +kernel, by decide +kernel,
      holds_of (by decide +kernel), by decide +kernel⟩,
    ⟨(scene 0 16 0xFF0 0 0 (List.replicate 16 0)).loadKey (List.replicate 16 0), by decide +kernel, by decide +kernel,
      by decide +kernel, holds_of (by decide +kernel), by decide +kernel⟩⟩

/-- A block that decrypts to 41 × 15, 01 and one that decrypts to 00 × 16 (95_test_vectors.md §5.5). -/
theorem witness_AesDecrypt :
    (∃ s : State, s.aes.keyValid = true ∧ s.aes.ivValid = true ∧ s.larg.arg1.toNat = 16 ∧ inDmem s.larg.arg0.toNat 16 ∧
      s.holds s.larg.arg0.toNat (hex 0x31e33487089e8df9770b33365557aba9 16) ∧ inDmem s.larg.arg2.toNat 16 ∧
      decryptBlock s.aes.keyw.toList s.aes.nr.toNat (hex 0x31e33487089e8df9770b33365557aba9 16) =
        List.replicate 15 0x41 ++ List.replicate 1 (BitVec.ofNat 8 1) ∧
      decryptBlock s.aes.keyw.toList s.aes.nr.toNat (hex 0xc6a13b37878f5b826f4f8162a1c8d879 16) = List.replicate 16 0) ∧
    ¬ ∃ (y : List Byte) (p : Nat), 1 ≤ p ∧ p ≤ 16 ∧
      List.replicate 16 (0 : Byte) = y ++ List.replicate p (BitVec.ofNat 8 p) := by
  refine ⟨⟨aesScene54 (hex 0x31e33487089e8df9770b33365557aba9 16), by decide +kernel, by decide +kernel, by decide +kernel,
    by decide +kernel, holds_of (by decide +kernel), by decide +kernel, by decide +kernel, by decide +kernel⟩, ?_⟩
  rintro ⟨y, p, h1, h16, h⟩
  have hm : BitVec.ofNat 8 p ∈ List.replicate 16 (0 : Byte) := by
    rw [h]; exact List.mem_append_right _ (List.mem_replicate.mpr ⟨by omega, rfl⟩)
  have h0 := congrArg BitVec.toNat (List.mem_replicate.mp hm).2
  simp at h0
  omega

theorem witness_AesErrorPriority : State.reset.aes.keyValid = false ∧
    (aesScene.aes.keyValid = true ∧ aesScene.aes.ivValid = false) ∧ ¬ inDmem 0xFF1 16 ∧ (3 % 16 ≠ 0 ∧ 17 % 16 ≠ 0) ∧
    ¬ inDmem 0xFF0 (16 + 16 - 16 % 16) := by decide +kernel

theorem witness_AesRoundTrip : ∃ s : State, s.aes.keyValid = true ∧ s.aes.ivValid = true ∧
    s.larg.arg1.toNat = 3 ∧ inDmem s.larg.arg0.toNat 3 ∧ s.holds s.larg.arg0.toNat [0x61, 0x62, 0x63] ∧
    inDmem s.larg.arg2.toNat (3 + 16 - 3 % 16) ∧ (⟨s.larg.arg2, 16, 0xFF0, 0⟩ : Args).arg0 = s.larg.arg2 ∧
    inDmem 0xFF0 (3 + 16 - 3 % 16) :=
  ⟨aesScene54 [0x61, 0x62, 0x63], by decide +kernel, by decide +kernel, by decide +kernel, by decide +kernel,
    holds_of (by decide +kernel), by decide +kernel, rfl, by decide⟩

/-- The last prime of the table of K, its sixty-fourth (44_sha256.md R194). -/
theorem witness_Sha256Compression : Nat.Prime 311 ∧ 311 ≤ 311 ∧ Nat.count Nat.Prime 311 = 63 :=
  ⟨by norm_num, by decide, by decide +kernel⟩

theorem witness_HashInit : (0#2).toNat < 2 ∧ (1#2).toNat < 2 ∧ 2 ≤ (2#2).toNat ∧ 2 ≤ (3#2).toNat := by decide

theorem witness_HashUpdate : ¬ inDmem 0x1001 0 ∧ (1#2).toNat < 2 ∧ 2 ≤ (2#2).toNat ∧
    ∃ s : State, s.Inv ∧ s.larg.arg1.toNat = 3 ∧ inDmem s.larg.arg0.toNat 3 ∧ s.holds s.larg.arg0.toNat [0x61, 0x62, 0x63] :=
  ⟨by decide, by decide, by decide, pendingOn 0x41 (scene 0xFFD 3 0 0 0xFFD [0x61, 0x62, 0x63]), pendingOn_scene_inv (by decide),
    by decide +kernel, by decide +kernel, holds_of (by decide +kernel)⟩

/-- "abc" in one HUPDATE beside "a" and then "bc". -/
theorem witness_HashUpdate_split : ∃ s t u v w x : State,
    (s.larg.arg1.toNat = 3 ∧ inDmem s.larg.arg0.toNat 3 ∧ s.holds s.larg.arg0.toNat ([0x61] ++ [0x62, 0x63])) ∧
    exec (.hupdate 1) s = .next t ∧ State.sameCtx 1 s u ∧
    (u.larg.arg1.toNat = 1 ∧ inDmem u.larg.arg0.toNat 1 ∧ u.holds u.larg.arg0.toNat [0x61]) ∧
    exec (.hupdate 1) u = .next v ∧ State.sameCtx 1 v w ∧
    (w.larg.arg1.toNat = 2 ∧ inDmem w.larg.arg0.toNat 2 ∧ w.holds w.larg.arg0.toNat [0x62, 0x63]) ∧
    exec (.hupdate 1) w = .next x := by
  let u := scene 0xFFD 1 0 0 0xFFD [0x61, 0x62, 0x63]
  obtain ⟨t, ht⟩ := next_of (o := exec (.hupdate 1) (scene 0xFFD 3 0 0 0xFFD [0x61, 0x62, 0x63])) (by decide +kernel)
  obtain ⟨v, hv⟩ := next_of (o := exec (.hupdate 1) u) (by decide +kernel)
  obtain ⟨x, hx⟩ := next_of (o := exec (.hupdate 1)
    { after (exec (.hupdate 1) u) with larg := ⟨0xFFE, 2, 0, 0⟩ }) (by decide +kernel)
  refine ⟨_, t, u, v, _, x, ⟨by decide +kernel, by decide +kernel, holds_of (by decide +kernel)⟩, ht, rfl,
    ⟨by decide +kernel, by decide +kernel, holds_of (by decide +kernel)⟩, hv, ?_,
    ⟨by decide +kernel, by decide +kernel, holds_of (by decide +kernel)⟩, hx⟩
  rw [hv]
  rfl

theorem witness_HashFinal : ¬ inDmem 0xFF1 16 ∧ ¬ inDmem 0xFE1 32 ∧
    ∃ s : State, s.Inv ∧ inDmem s.larg.arg2.toNat 16 ∧ inDmem s.larg.arg2.toNat 32 :=
  ⟨by decide, by decide, pendingOn 0x42 (scene 0 0 0xFE0 0 0 []), pendingOn_scene_inv (by decide), by decide +kernel,
    by decide +kernel⟩

/-- "a" absorbed by one HUPDATE.sha256, the context untouched since. -/
theorem witness_DigestOfWholeMessage : ∃ s : State, Absorbed 1 s [0x61] ∧ State.sameCtx 1 s s ∧
    inDmem s.larg.arg2.toNat 32 := by
  obtain ⟨t, h⟩ := next_of (o := exec (.hupdate 1) (scene 0xFFF 1 0xFE0 0 0xFFF [0x61])) (by decide +kernel)
  have e : (after (exec (.hupdate 1) (scene 0xFFF 1 0xFE0 0 0xFFF [0x61]))).larg.arg2 = 0xFE0 := by decide +kernel
  rw [h] at e
  refine ⟨t, .update (bs := [0x61]) (m := []) State.reset (scene 0xFFF 1 0xFE0 0 0xFFF [0x61]) t
    (.start _ rfl) rfl (by decide +kernel) (by decide +kernel)
    (holds_of (by decide +kernel)) h, rfl, ?_⟩
  change t.larg.arg2.toNat + 32 ≤ 4096
  rw [show t.larg.arg2 = 0xFE0 from e]
  decide

end Sys2Proof.Tests
end

section
/-! PROOF. The two resets and the invariant of Safety.lean (O1, O2, O3). Every reset goes through `State.resetEngine`,
every command through `Effect.kept`, every host access through `hostAccess_next`, so each way a step can end has one
lemma here that says it keeps the invariant. -/

namespace Sys2Proof.Machine

/-! ### The engine's reset state -/

/-- Whatever memory it is given, a reset leaves the engine in its reset state (10_state.md R48). -/
theorem State.resetEngine_isReset (s : State) (m : Memory) : (s.resetEngine m).IsReset where
  ctrl := rfl
  status := (by decide : State.reset.statusWord = 0)
  errcode := rfl
  cmdreg := rfl
  result := rfl
  args := ⟨rfl, rfl, rfl, rfl⟩
  latched := ⟨rfl, rfl, rfl, rfl, rfl⟩
  pending := rfl
  regs := State.resetEngine_getB s m
  valid := ⟨rfl, rfl⟩
  md5 := ⟨rfl, rfl, rfl⟩
  sha := ⟨rfl, rfl, rfl⟩
  irq := rfl

/-- A reset to a canonical memory meets the invariant; with rst asserted that memory is the unmarked one. -/
theorem State.Inv.resetEngine {s : State} {m : Memory} (hm : m.wf = true) (hr : s.rst = true → m = []) :
    (s.resetEngine m).Inv where
  dmem_wf := hm
  regs_fit r := by rw [State.resetEngine_getB]; exact Nat.two_pow_pos _
  pending_eq_busy := rfl
  pending_clear h := by cases h
  cmdreg_eq_lcmd := rfl
  errcode_legal := ⟨Nat.zero_le _, (by decide : (0 : BitVec 8) ≠ 4)⟩
  err_code h := by cases h
  flags_exclusive := by simp [State.reset, Status.reset]
  key_shape h := by cases h
  md5_buf := rfl
  sha_buf := rfl
  rst_held h := by rw [hr h]; rfl

/-- Settles O2: the reset state is a reset of itself to the unmarked memory. -/
theorem invariantAtReset : Obligations.InvariantAtReset :=
  State.Inv.resetEngine (s := State.reset) Memory.nil_wf fun _ => rfl

/-- Settles O1: State.reset, the hardware reset and the soft reset are all `State.resetEngine`, with no memory, no memory
and the abandoned command's memory. -/
theorem resetValues : Obligations.ResetValues :=
  ⟨State.reset.resetEngine_isReset [], fun s => ⟨s.resetEngine_isReset [], s.resetEngine_isReset s.abandonedDmem⟩,
    fun _ => rfl, fun _ _ => rfl, fun s hp => by simp [softReset, State.abandonedDmem, hp], fun _ => ⟨rfl, rfl, rfl⟩⟩

/-! ### What keeps the invariant -/

/-- The invariant does not speak of the environment: host accesses, turns and read data. -/
theorem State.Inv.setEnvironment {s : State} (h : s.Inv) (host : List HostAccess) (sched : List Turn) (rdata : Word) :
    State.Inv { s with host := host, sched := sched, rdata := rdata } :=
  { h with
    rst_held := fun hr =>
      congrArg (fun u : State => { u with host := host, sched := sched, rdata := rdata }) (h.rst_held hr) }

/-- A reset with rst released meets the invariant again. -/
theorem State.Inv.softReset {s : State} (h : s.Inv) (hr : s.rst = false) : (softReset s).Inv := by
  refine State.Inv.resetEngine ?_ (by simp [hr])
  unfold State.abandonedDmem
  split
  · exact Memory.unmark_wf h.dmem_wf
  · exact h.dmem_wf

/-- An accepted command word leaves the engine busy, with the completion state cleared (10_state.md R30). -/
theorem State.Inv.acceptCommand {s : State} (h : s.Inv) (hr : s.rst = false) (w : Word) : (acceptCommand s w).Inv :=
  { h with
    pending_eq_busy := rfl
    pending_clear := fun _ => ⟨rfl, rfl, rfl⟩
    cmdreg_eq_lcmd := rfl
    errcode_legal := ⟨Nat.zero_le _, (by decide : (0 : BitVec 8) ≠ 4)⟩
    err_code := fun he => by cases he
    rst_held := by simp [hr] }

/-- Write-1-to-clear only clears DONE, ERR and CMDOVR, so it keeps every clause about them. -/
theorem State.Inv.writeStatus {s : State} (h : s.Inv) (hr : s.rst = false) (w : Word) : (writeStatus s w).Inv :=
  { h with
    pending_clear := fun hp => by
      obtain ⟨hd, he, hc⟩ := h.pending_clear hp
      exact ⟨by simp [hd], by simp [he], hc⟩
    err_code := fun he => h.err_code (Bool.and_elim_left he)
    rst_held := by simp [hr] }

/-- A register write while rst is released keeps the invariant. -/
theorem State.Inv.writeReg {s : State} (h : s.Inv) (hr : s.rst = false) (off : Nat) (v : Word) :
    (s.writeReg off v).Inv := by
  have released {p : Prop} : s.rst = true → p := by simp [hr]
  rcases writeReg_cases s off v with e | e | e | e | ⟨-, e⟩ | ⟨-, e⟩ | ⟨a, e⟩ <;> rw [e]
  · exact h
  · exact { h with rst_held := released }
  · exact h.softReset hr
  · exact h.writeStatus hr v
  · exact h.acceptCommand hr v
  · exact { h with rst_held := released }
  · exact { h with rst_held := released }

/-- A host access while rst is released keeps the invariant. -/
theorem State.Inv.hostAccess {a : HostAccess} {s t : State} (h : s.Inv) (hr : s.rst = false)
    (ht : hostAccess a s = .next t) : t.Inv := by
  rcases hostAccess_next ht with ⟨d, rfl⟩ | ⟨off, v, rfl⟩ | ⟨w, off, v, -, rfl⟩
  · exact h.setEnvironment s.host s.sched d
  · exact h.writeReg hr off v
  · exact { h with dmem_wf := windowWrite_wf h.dmem_wf, rst_held := by simp [hr] }

/-- No error a command raises has the code 0, one above 14, or the reserved code 4 (60_exceptions.md R226). -/
theorem ErrKind.code_legal {e : ErrKind} (h : e ≠ .invalidKeySpec) :
    (ErrKind.code e).toNat ≤ 14 ∧ ErrKind.code e ≠ 4 ∧ ErrKind.code e ≠ 0 := by
  cases e with
  | invalidKeySpec => exact absurd rfl h
  | _ => decide

/-- A completion keeps the invariant when what the command did before it keeps every clause (60_exceptions.md R229). -/
theorem State.Inv.complete {s u : State} (h : s.Inv) (hr : s.rst = false) (hk : Kept s u) {err : Option ErrKind}
    (he : err ≠ some .invalidKeySpec) : (complete err u).Inv where
  dmem_wf := hk.wf h.dmem_wf
  regs_fit := hk.fit h.regs_fit
  pending_eq_busy := rfl
  pending_clear hp := by cases hp
  cmdreg_eq_lcmd := by
    obtain ⟨-, hc, hl, -⟩ := hk.hostSide
    rw [complete_cmdreg, complete_lcmd, hc, hl, h.cmdreg_eq_lcmd]
  errcode_legal := by
    cases err with
    | none => exact ⟨Nat.zero_le _, (by decide : (0 : BitVec 8) ≠ 4)⟩
    | some e =>
      obtain ⟨hle, h4, -⟩ := ErrKind.code_legal (e := e) (by simpa using he)
      exact ⟨hle, h4⟩
  err_code hs := by
    cases err with
    | none => cases hs
    | some e =>
      obtain ⟨-, -, h0⟩ := ErrKind.code_legal (e := e) (by simpa using he)
      exact h0
  flags_exclusive := hk.flags h.flags_exclusive
  key_shape := hk.key h.key_shape
  md5_buf := hk.md5 h.md5_buf
  sha_buf := hk.sha h.sha_buf
  rst_held hs := by
    obtain ⟨-, -, -, hrst⟩ := hk.hostSide
    rw [complete_rst, hrst, hr] at hs
    cases hs

/-- An engine step while rst is released keeps the invariant. -/
theorem State.Inv.engineStep {s t : State} (h : s.Inv) (hr : s.rst = false) (ht : engineStep s = .next t) : t.Inv := by
  rcases engineStep_next ht with ⟨-, rfl⟩ | ⟨e, -, he, rfl⟩ | ⟨i, u, -, -, rfl, hu⟩
  · exact h
  · exact h.complete hr Kept.refl (by simpa using he)
  · exact h.complete hr hu.kept nofun

/-- Driving the reset input keeps the invariant: a new level is a hardware reset, the old one changes nothing. -/
theorem State.Inv.driveRst {s : State} (h : s.Inv) (level : Bool) : (driveRst level s).Inv := by
  unfold Machine.driveRst
  split
  · exact h
  · exact State.Inv.resetEngine (s := { s with rst := level }) Memory.nil_wf fun _ => rfl

/-- Settles O3: each way a step can answer a next state keeps the invariant. -/
theorem stepKeepsInvariant : Obligations.StepKeepsInvariant := by
  intro s t h ht
  have env (host : List HostAccess) (sched : List Turn) := h.setEnvironment host sched s.rdata
  obtain ⟨ts, ⟨hr, he⟩ | ⟨a, rest, hr, ha⟩ | ⟨level, rfl⟩ | rfl⟩ := step_next ht
  · exact (env s.host ts).engineStep hr he
  · exact (env rest ts).hostAccess hr ha
  · exact (env s.host ts).driveRst level
  · exact env s.host ts

end Sys2Proof.Machine
end

section
/-! PROOF. The host port (O6, O7, O8, O9, O11): below 0x1000 an aligned word access is a read or write of the register file,
so each statement is about `State.readReg` or `State.writeReg` at one offset. -/

namespace Sys2Proof.Machine

/-- A legal register read returns the register (20_memory.md R70). -/
theorem hostRead_register (s : State) {off : Nat} (h : off < 0x1000) (h4 : off % 4 = 0) :
    hostRead .word off s = .next { s with rdata := s.readReg off } := by
  simp [hostRead, accessLegal, h, h4]

/-- A legal register write writes the register (20_memory.md R70). -/
theorem hostWrite_register (s : State) (v : Word) {off : Nat} (h : off < 0x1000) (h4 : off % 4 = 0) :
    hostWrite .word off v s = .next (s.writeReg off v) := by
  simp [hostWrite, accessLegal, h, h4]

/-- A reserved offset reads 0 (10_state.md R18). -/
theorem State.readReg_reserved (s : State) {off : Nat} (h : off = 0x018 ∨ off = 0x01C ∨ 0x038 ≤ off) :
    s.readReg off = 0 := by
  unfold State.readReg
  repeat rw [if_neg (by omega)]

/-- Reserved offsets and read-only registers ignore writes (10_state.md R18). -/
theorem State.writeReg_ignored (s : State) (v : Word) {off : Nat}
    (h : off ∉ [0x004, 0x008, 0x010, 0x020, 0x024, 0x028, 0x02C]) : s.writeReg off v = s := by
  simp only [List.mem_cons, List.not_mem_nil, or_false, not_or] at h
  obtain ⟨h1, h2, h3, h4, h5, h6, h7⟩ := h
  simp only [State.writeReg, if_neg h1, if_neg h2, if_neg h3, if_neg h4, if_neg h5, if_neg h6, if_neg h7]

/-- A CTRL write looks at bits 1 and 0 only (10_state.md R27). -/
theorem writeCtrl_mask (s : State) (v : Word) : writeCtrl s (v &&& 0x00000003) = writeCtrl s v := by
  simp [writeCtrl]

/-- A STATUS write looks at bits 3 to 1 only (10_state.md R28). -/
theorem writeStatus_mask (s : State) (v : Word) : writeStatus s (v &&& 0x0000000E) = writeStatus s v := by
  simp [writeStatus]

/-- The bits of STATUS from 11 up are 0 (10_state.md R28). -/
theorem State.statusWord_getLsbD_reserved (s : State) {i : Nat} (h : 11 ≤ i) : s.statusWord.getLsbD i = false := by
  rw [s.statusWord_getLsbD, List.getD_eq_getElem?_getD, List.getElem?_eq_none (by simpa using h), Option.getD_none]

/-- A word whose bits stop below `k` has none in common with a mask that starts at `k`. -/
theorem and_mask_eq_zero {v m : Word} (k : Nat) (hv : ∀ i, k ≤ i → v.getLsbD i = false)
    (hm : ∀ i < k, m.getLsbD i = false) : v &&& m = 0#32 := by
  refine BitVec.eq_of_getLsbD_eq fun i _ => ?_
  rw [BitVec.getLsbD_and, BitVec.getLsbD_zero]
  rcases Nat.lt_or_ge i k with h | h
  · rw [hm i h, Bool.and_false]
  · rw [hv i h, Bool.false_and]

/-- The reserved bits of STATUS, 31 to 11, read 0 (10_state.md R28). -/
theorem State.statusWord_reserved (s : State) : s.statusWord &&& 0xFFFFF800 = 0 :=
  and_mask_eq_zero 11 (fun _ h => s.statusWord_getLsbD_reserved h) (by decide)

/-- The reserved bits of ERRCODE, 31 to 8, read 0 (10_state.md R29). -/
theorem errcode_reserved (c : BitVec 8) : c.setWidth 32 &&& 0xFFFFFF00 = 0 :=
  and_mask_eq_zero 8 (fun i h => by rw [BitVec.getLsbD_setWidth, BitVec.getLsbD_of_ge c i h, Bool.and_false]) (by decide)

/-- Settles O6, offset by offset: reads by `State.readReg`, ignored writes by `State.writeReg_ignored`, and the bits a
write ignores by the two mask lemmas. -/
theorem reservedAndReadOnly : Obligations.ReservedAndReadOnly := by
  refine ⟨fun s => ⟨rfl, rfl, rfl⟩, fun s off v h4 ho => ?_, fun s off v ho => ?_, fun s => ⟨?_, ?_, ?_, ?_⟩,
    fun s v => ⟨?_, ?_⟩⟩
  · rw [hostRead_register s (by omega) h4, hostWrite_register s v (by omega) h4, s.readReg_reserved (by omega),
      s.writeReg_ignored v (by simp; omega)]
    exact ⟨rfl, rfl⟩
  · rw [hostWrite_register s v (by omega) (by omega), s.writeReg_ignored v (by simp; omega)]
  · change s.ctrlWord &&& _ = 0
    rw [s.ctrlWord_eq]; split <;> decide
  · exact s.statusWord_reserved
  · exact errcode_reserved s.errcode
  · exact (by decide : caps1Value &&& 0xFF000000 = 0)
  · exact congrArg Host.Outcome.next (writeCtrl_mask s v).symm
  · exact congrArg Host.Outcome.next (writeStatus_mask s v).symm

/-- Settles O7, by the two cases of `writeCtrl` on bit 1. -/
theorem ctrlRegister : Obligations.CtrlRegister := by
  intro s v
  have hw : hostWrite .word 0x004 v s = .next (writeCtrl s v) := rfl
  refine ⟨?_, fun h => ?_, fun h => ?_⟩
  · rw [← s.ctrlWord_eq]; rfl
  · rw [hw, writeCtrl, if_pos h]
    exact ⟨rfl, rfl⟩
  · rw [hw, writeCtrl, if_neg (by rw [h]; decide)]

/-- Settles O8: `State.statusWord_getLsbD` gives the bits read, and the write clears by `&& !`. -/
theorem statusRegister : Obligations.StatusRegister := by
  intro s v
  have bit (i : Nat) := s.statusWord_getLsbD i
  refine ⟨⟨s.statusWord, rfl, bit 0, bit 1, bit 2, bit 3, bit 4, bit 5, bit 6, bit 7, bit 8, bit 9, bit 10,
    fun i hi => s.statusWord_getLsbD_reserved hi⟩, ?_⟩
  have clear (x b : Bool) : (x && !b) = if b then false else x := by cases b <;> simp
  rw [← clear, ← clear, ← clear]
  rfl

/-- Settles O9, by the two cases of `writeCmd` on BUSY. -/
theorem commandIssue : Obligations.CommandIssue := by
  intro s w
  have hw : hostWrite .word 0x010 w s = .next (writeCmd s w) := rfl
  refine ⟨rfl, fun hb => ?_, fun hb => ?_⟩
  · rw [hw, writeCmd, if_pos hb]
  · rw [hw, writeCmd, if_neg (by simp [hb])]
    rfl

/-- A host read that answers has stored its data and nothing else (10_state.md R20). -/
theorem hostRead_next {w : Width} {off : Nat} {s t : State} (h : hostRead w off s = .next t) :
    t = { s with rdata := t.rdata } := by
  unfold hostRead at h
  split at h
  · cases h
  split at h
  · cases h; rfl
  split at h
  · cases h
  split at h
  · cases h
  · cases h; rfl

/-- Settles O11: a host access that reads is `hostRead`. -/
theorem hostReadsHaveNoSideEffect : Obligations.HostReadsHaveNoSideEffect :=
  fun _ _ _ _ h => hostRead_next h

end Sys2Proof.Machine
end

section
/-! PROOF. What each command may write (O26, O28, O31). `Frame i s u` lists what command `i` leaves as it was from `s` to
`u`; each elementary write keeps it when `i` is a command that makes that write, so one line per command follows. -/

namespace Sys2Proof

/-- The ALG of a hash command (45_hash_commands.md R205). -/
def Instr.hashAlg : Instr → Option (BitVec 2)
  | .hinit alg | .hupdate alg | .hfinal alg => some alg
  | _ => none

namespace Machine

/-- What command `i` leaves unchanged from `s` to `u`. -/
structure Frame (i : Instr) (s u : State) : Prop where
  /-- The host's side, the latched command and the environment (10_state.md R27, R30, R33). -/
  hostSide : u.ie = s.ie ∧ u.cmdreg = s.cmdreg ∧ u.lcmd = s.lcmd ∧ u.larg = s.larg ∧ u.arg = s.arg ∧
    u.status.cmdovr = s.status.cmdovr ∧ u.rst = s.rst ∧ u.host = s.host ∧ u.sched = s.sched ∧ u.rdata = s.rdata
  /-- LT, EQ and GT are CMP's (10_state.md R38). -/
  cmpFlags : (∀ ra rb, i ≠ .cmp ra rb) →
    u.status.lt = s.status.lt ∧ u.status.eq = s.status.eq ∧ u.status.gt = s.status.gt
  /-- NOINV is MODINV's (10_state.md R38). -/
  noinv : (∀ rd ra rb, i ≠ .modinv rd ra rb) → u.status.noinv = s.status.noinv
  /-- PADBAD is AESCRYPT's (10_state.md R38). -/
  padbad : (∀ dec cbc pad strict, i ≠ .aescrypt dec cbc pad strict) → u.status.padbad = s.status.padbad
  /-- RESULT belongs to the commands of 10_state.md R31. -/
  result : i.writesResult = false → u.result = s.result
  /-- A BigInt register changes only as a destination. -/
  regs : ∀ r, r ∉ i.destRegs → u.getB r = s.getB r
  /-- The key is AESKEY's (10_state.md R40). -/
  key : i ≠ .aeskey → u.aes.keyw = s.aes.keyw ∧ u.aes.nr = s.aes.nr ∧ u.aes.keyValid = s.aes.keyValid
  /-- The initialisation vector is AESIV's (10_state.md R41). -/
  iv : i ≠ .aesiv → u.aes.iv = s.aes.iv ∧ u.aes.ivValid = s.aes.ivValid
  /-- Neither valid bit is cleared (10_state.md R42). -/
  valid : (s.aes.keyValid = true → u.aes.keyValid = true) ∧ (s.aes.ivValid = true → u.aes.ivValid = true)
  /-- The MD5 context changes by a hash command with ALG = 0 only. -/
  md5 : i.hashAlg ≠ some 0#2 → u.md5 = s.md5
  /-- The SHA-256 context changes by a hash command with another ALG only. -/
  sha : (∀ alg, i.hashAlg = some alg → alg = 0#2) → u.sha = s.sha
  /-- Only RSAENC with PSSRC = 0 draws (41_rsa.md R139). -/
  rng : (∀ ra rb, i ≠ .rsaenc ra rb false) → u.rng = s.rng

/-! ### The elementary writes -/

section Writes
variable {i : Instr} {s u : State}

theorem Frame.refl : Frame i s s where
  hostSide := ⟨rfl, rfl, rfl, rfl, rfl, rfl, rfl, rfl, rfl, rfl⟩
  cmpFlags _ := ⟨rfl, rfl, rfl⟩
  noinv _ := rfl
  padbad _ := rfl
  result _ := rfl
  regs _ _ := rfl
  key _ := ⟨rfl, rfl, rfl⟩
  iv _ := ⟨rfl, rfl⟩
  valid := ⟨id, id⟩
  md5 _ := rfl
  sha _ := rfl
  rng _ := rfl

theorem Frame.setB (h : Frame i s u) {r : RegIdx} (hr : r ∈ i.destRegs) (v : Int) : Frame i s (u.setB r v) :=
  { h with
    regs := fun r' hr' => by
      rw [State.setB_getB, if_neg fun e : r' = r => hr' (e ▸ hr)]
      exact h.regs r' hr' }

/-- A write of a command's only destination. -/
theorem Frame.setDest {rd : RegIdx} (hi : i.destRegs = [rd]) (v : Int) : Frame i s (s.setB rd v) :=
  Frame.refl.setB (by simp [hi]) v

theorem Frame.memWrite (h : Frame i s u) (addr : Word) (bs : List Byte) : Frame i s (u.memWrite addr bs) := { h with }

theorem Frame.setResult (h : Frame i s u) (hi : i.writesResult = true) (v : Nat) : Frame i s (u.setResult v) :=
  { h with result := fun hn => by rw [hi] at hn; cases hn }

theorem Frame.setRng (h : Frame i s u) {n : Nat} (hn : (∀ ra rb, i ≠ .rsaenc ra rb false) → n = s.rng) :
    Frame i s (u.setRng n) :=
  { h with rng := hn }

theorem Frame.setCmpFlags {ra rb : RegIdx} (h : Frame (.cmp ra rb) s u) (x y : Int) :
    Frame (.cmp ra rb) s (u.setCmpFlags x y) :=
  { h with cmpFlags := fun hn => absurd rfl (hn ra rb) }

theorem Frame.setNoinv {rd ra rb : RegIdx} (h : Frame (.modinv rd ra rb) s u) (v : Bool) :
    Frame (.modinv rd ra rb) s (u.setNoinv v) :=
  { h with noinv := fun hn => absurd rfl (hn rd ra rb) }

theorem Frame.setPadbad {dec cbc pad strict : Bool} (h : Frame (.aescrypt dec cbc pad strict) s u) (v : Bool) :
    Frame (.aescrypt dec cbc pad strict) s (u.setPadbad v) :=
  { h with padbad := fun hn => absurd rfl (hn dec cbc pad strict) }

theorem Frame.loadKey (h : Frame .aeskey s u) (key : List Byte) : Frame .aeskey s (u.loadKey key) :=
  { h with key := fun hn => absurd rfl hn, valid := ⟨fun _ => rfl, h.valid.2⟩ }

theorem Frame.loadIv (h : Frame .aesiv s u) (iv : List Byte) : Frame .aesiv s (u.loadIv iv) :=
  { h with iv := fun hn => absurd rfl hn, valid := ⟨h.valid.1, fun _ => rfl⟩ }

theorem Frame.ctxInit (h : Frame i s u) {alg : BitVec 2} (hi : i.hashAlg = some alg) : Frame i s (u.ctxInit alg) := by
  unfold State.ctxInit
  split
  · next ha => exact { h with md5 := fun hn => absurd (ha ▸ hi) hn }
  · next ha => exact { h with sha := fun hn => absurd (hn alg hi) ha }

theorem Frame.ctxAbsorb (h : Frame i s u) {alg : BitVec 2} (hi : i.hashAlg = some alg) (bs : List Byte) :
    Frame i s (u.ctxAbsorb alg bs) := by
  unfold State.ctxAbsorb
  split
  · next ha => exact { h with md5 := fun hn => absurd (ha ▸ hi) hn }
  · next ha => exact { h with sha := fun hn => absurd (hn alg hi) ha }

/-- A completion writes DONE, ERR, BUSY, PENDING and ERRCODE only. -/
theorem Frame.complete (h : Frame i s u) (err : Option ErrKind) : Frame i s (complete err u) := { h with }

end Writes

/-! ### Every command -/

/-- With PSSRC = 1 the padding string takes no draw (41_rsa.md R139). -/
theorem paddingString_rng {pssrc : Bool} {s : State} {n : Nat} {ps : List Byte × Nat}
    (h : paddingString pssrc s n = .ok ps) (hp : pssrc = true) : ps.2 = s.rng := by
  rcases paddingString_eq_ok.mp h with ⟨hf, -⟩ | ⟨-, -, -, -, hr⟩
  · rw [hp] at hf; cases hf
  · exact hr

/-- A command's effect writes only what the command may write. -/
theorem Effect.frame {i : Instr} {s u : State} (h : Effect i s u) : Frame i s u := by
  cases i <;> simp only [Effect] at h
  case nop => subst h; exact Frame.refl
  case ldi => subst h; exact Frame.setDest rfl _
  case mov => subst h; exact Frame.setDest rfl _
  case ldb => obtain ⟨_, _, _, rfl⟩ := h; exact Frame.setDest rfl _
  case ldu => obtain ⟨_, _, _, rfl⟩ := h; exact Frame.setDest rfl _
  case stb => obtain ⟨_, rfl⟩ := h; exact (Frame.refl.memWrite _ _).setResult rfl _
  case stu => obtain ⟨_, rfl⟩ := h; exact (Frame.refl.memWrite _ _).setResult rfl _
  case add => obtain ⟨_, rfl⟩ := h; exact Frame.setDest rfl _
  case sub => obtain ⟨_, rfl⟩ := h; exact Frame.setDest rfl _
  case mul => obtain ⟨_, rfl⟩ := h; exact Frame.setDest rfl _
  case div => obtain ⟨_, rfl⟩ := h; exact Frame.setDest rfl _
  case rem => obtain ⟨_, rfl⟩ := h; exact Frame.setDest rfl _
  case divrem rd ra rb rc =>
    obtain ⟨_, _, rfl⟩ := h
    exact (Frame.refl.setB (by simp [Instr.destRegs]) _).setB (by simp [Instr.destRegs]) _
  case mod => obtain ⟨_, _, rfl⟩ := h; exact Frame.setDest rfl _
  case modpow => obtain ⟨_, rfl⟩ := h; exact Frame.setDest rfl _
  case modinv =>
    obtain ⟨_, ⟨_, rfl⟩ | ⟨_, _, rfl⟩⟩ := h
    · exact Frame.refl.setNoinv _
    · exact (Frame.setDest rfl _).setNoinv _
  case cmp => subst h; exact (Frame.refl.setCmpFlags _ _).setResult rfl _
  case bitlen => subst h; exact Frame.refl.setResult rfl _
  case rsaenc ra rb pssrc =>
    obtain ⟨ps, _, _, hps, rfl⟩ := h
    refine ((Frame.refl.memWrite _ _).setResult rfl _).setRng fun hn => paddingString_rng hps ?_
    cases pssrc with
    | false => exact absurd rfl (hn ra rb)
    | true => rfl
  case rsadec => obtain ⟨_, _, _, _, rfl⟩ := h; exact (Frame.refl.memWrite _ _).setResult rfl _
  case aeskey => obtain ⟨_, _, rfl⟩ := h; exact Frame.refl.loadKey _
  case aesiv => obtain ⟨_, rfl⟩ := h; exact Frame.refl.loadIv _
  case aescrypt => obtain ⟨_, _, _, _, _, rfl⟩ := h; exact ((Frame.refl.memWrite _ _).setPadbad _).setResult rfl _
  case hinit => subst h; exact Frame.refl.ctxInit rfl
  case hupdate => obtain ⟨_, rfl⟩ := h; exact Frame.refl.ctxAbsorb rfl _
  case hfinal => obtain ⟨_, rfl⟩ := h; exact ((Frame.refl.memWrite _ _).ctxInit rfl).setResult rfl _

/-- A command that answers writes only what it may write, whether it succeeds or not. -/
theorem exec_frame {i : Instr} {s t : State} (h : exec i s = .next t) : Frame i s t := by
  rcases exec_next h with ⟨e, -, rfl⟩ | ⟨u, rfl, hu⟩
  · exact Frame.refl.complete _
  · exact hu.frame.complete _

/-- CMP always completes, with exactly one of LT, EQ and GT set (10_state.md R38). -/
theorem exec_cmp_flags {ra rb : RegIdx} {s t : State} (h : exec (.cmp ra rb) s = .next t) :
    t.status.lt.toNat + t.status.eq.toNat + t.status.gt.toNat = 1 := by
  have ht := execCmp_next.mp h
  subst ht
  simp only [complete_status_lt, complete_status_eq, complete_status_gt]
  change (decide _).toNat + (decide _).toNat + (decide _).toNat = 1
  rcases lt_trichotomy (s.getB ra) (s.getB rb) with hlt | heq | hgt
  · simp [hlt, hlt.ne, hlt.le]
  · simp [heq]
  · simp [hgt, hgt.ne', hgt.le]

/-- Settles O26: the frame of every command, and CMP's own flags. -/
theorem engineFrame : Obligations.EngineFrame := by
  intro i s t h
  have f := exec_frame h
  refine ⟨f.hostSide, f.cmpFlags, ?_, f.noinv, f.padbad⟩
  rintro ra rb rfl
  exact exec_cmp_flags h

/-- Settles O28: a completion with an error has written nothing. -/
theorem resultAndRegisterFrame : Obligations.ResultAndRegisterFrame := by
  intro i s t h
  refine ⟨?_, (exec_frame h).regs⟩
  rintro (hi | he)
  · exact (exec_frame h).result hi
  · rcases exec_next h with ⟨e, -, rfl⟩ | ⟨u, rfl, -⟩
    · rfl
    · cases he

/-- Settles O31: the two context clauses are `Frame.md5` and `Frame.sha` read through `Instr.hashAlg`. -/
theorem cryptoStateFrame : Obligations.CryptoStateFrame := by
  intro i s t h
  have f := exec_frame h
  refine ⟨f.key, f.iv, f.valid.1, f.valid.2, fun hn => ?_, fun alg hi => ?_, f.rng⟩
  · have noAlg : i.hashAlg = none := by
      cases i with
      | hinit alg => exact absurd rfl (hn alg).1
      | hupdate alg => exact absurd rfl (hn alg).2.1
      | hfinal alg => exact absurd rfl (hn alg).2.2
      | _ => rfl
    exact ⟨f.md5 (by simp [noAlg]), f.sha (by simp [noAlg])⟩
  · have hasAlg : i.hashAlg = some alg := by rcases hi with rfl | rfl | rfl <;> rfl
    exact ⟨fun h0 => f.sha (by simp [hasAlg, h0]), fun h0 => f.md5 (by simp [hasAlg, h0])⟩

end Machine
end Sys2Proof
end

section
/-! PROOF. The capacity of the BigInt registers (O29): `Kept.fit` for what a success writes, the commands' `_next` lemmas
for the results that do not fit. -/

namespace Sys2Proof.Machine

/-- The capacity is 4096 bits (00_scope.md R8). -/
theorem fits_iff {v : Int} : fits v ↔ v.natAbs < 2 ^ 4096 := by
  simp only [fits, Config.bigintMaxLimbs, Nat.reduceMul]

theorem not_fits_of_le {v : Int} (h : 2 ^ 4096 ≤ v.natAbs) : ¬ fits v := fun hf => absurd (fits_iff.mp hf) h.not_gt

/-- MOD's value is the truncating remainder, plus the modulus when that is negative (40_bigint.md R106). -/
theorem modop_eq_ite_tmod (a b : Int) : modop a b = if a.tmod b < 0 then a.tmod b + b else a.tmod b := by
  rw [modop, tdivRem_eq_tmod]

/-- Every command leaves registers within the capacity within it (10_state.md R36). -/
theorem exec_keeps_fits {i : Instr} {s t : State} (hs : ∀ r, fits (s.getB r)) (h : exec i s = .next t) (r : RegIdx) :
    fits (t.getB r) := by
  rcases exec_next h with ⟨e, -, rfl⟩ | ⟨u, rfl, hu⟩
  · exact hs r
  · exact hu.kept.fit hs r

/-- Settles O29: a result beyond the capacity takes each command's CAPACITY case. -/
theorem capacityOfRegisters : Obligations.CapacityOfRegisters := by
  refine ⟨fun i s t hs h r => fits_iff.mp (exec_keeps_fits (fun r => fits_iff.mpr (hs r)) h r),
    fun rd ra rb s hb hc => ?_, fun rd ra rb s => ⟨?_, ?_, ?_⟩, fun rd s bs hin hlen hbs => ?_⟩
  · rw [← modop_eq_ite_tmod] at hc
    exact execMod_next.mpr (.inr (.inr ⟨hb, not_fits_of_le hc, rfl⟩))
  · exact fun hc => execAdd_next.mpr (.inr ⟨not_fits_of_le hc, rfl⟩)
  · exact fun hc => execSub_next.mpr (.inr ⟨not_fits_of_le hc, rfl⟩)
  · exact fun hc => execMul_next.mpr (.inr ⟨not_fits_of_le hc, rfl⟩)
  · rw [← hlen] at hin
    have hr := hbs.readBytes? hlen
    exact ⟨fun hc => execLdb_next.mpr (.inr (.inr ⟨bs, hin, hr, not_fits_of_le hc, rfl⟩)),
      fun hc => execLdu_next.mpr (.inr (.inr ⟨bs, hin, hr, not_fits_of_le hc, rfl⟩))⟩

end Sys2Proof.Machine
end

section
/-! PROOF. No command reads ARG0–ARG3 or a flag (O10, O27). `Twin` relates two states that differ only there; each
elementary write and each completion keeps it, and a command's checks and reads answer the same in both, so the two runs
stay twins. -/

namespace Sys2Proof.Machine

/-- The state with ARG0–ARG3 and the flags LT, EQ, GT, NOINV and PADBAD as given. -/
def State.relabel (s : State) (a : Args) (lt eq gt noinv padbad : Bool) : State :=
  { s with
    arg := a
    status := { s.status with lt := lt, eq := eq, gt := gt, noinv := noinv, padbad := padbad } }

/-- The state with ARG0–ARG3 and the flags put out of sight. -/
def State.hideLabels (s : State) : State := s.relabel Args.reset false false false false false

section Relabel
variable (s : State) (a : Args) (lt eq gt noinv padbad : Bool)
@[simp] theorem State.relabel_getB (r : RegIdx) : (s.relabel a lt eq gt noinv padbad).getB r = s.getB r := rfl
@[simp] theorem State.relabel_aes : (s.relabel a lt eq gt noinv padbad).aes = s.aes := rfl
end Relabel

/-- `s'` has `a` in ARG0–ARG3 and differs from `s` there and in the flags only; not in the flags when `sameFlags`. -/
structure Twin (a : Args) (sameFlags : Prop) (s s' : State) : Prop where
  arg : s'.arg = a
  rest : s'.hideLabels = s.hideLabels
  flags : sameFlags → s'.status = s.status

theorem Twin.relabel (s : State) (a : Args) (lt eq gt noinv padbad : Bool) :
    Twin a (s.relabel s.arg lt eq gt noinv padbad = s) s (s.relabel a lt eq gt noinv padbad) where
  arg := rfl
  rest := rfl
  flags h := (congrArg State.status h : (s.relabel s.arg lt eq gt noinv padbad).status = s.status)

/-- Twins with the same flags differ in ARG0–ARG3 only. -/
theorem Twin.eq_of_sameFlags {a : Args} {s s' : State} (h : Twin a True s s') : s' = { s with arg := a } := by
  obtain ⟨harg, hrest, hflags⟩ := h
  have hstatus := hflags trivial
  cases s
  cases s'
  simp only [State.hideLabels, State.relabel, State.mk.injEq] at hrest harg hstatus ⊢
  tauto

/-! ### The elementary writes -/

section Writes
variable {a : Args} {p : Prop} {u u' : State}

theorem Twin.setB (h : Twin a p u u') (r : RegIdx) (v : Int) : Twin a p (u.setB r v) (u'.setB r v) :=
  ⟨h.arg, congrArg (State.setB · r v) h.rest, h.flags⟩

theorem Twin.memWrite (h : Twin a p u u') (addr : Word) (bs : List Byte) :
    Twin a p (u.memWrite addr bs) (u'.memWrite addr bs) :=
  ⟨h.arg, congrArg (State.memWrite · addr bs) h.rest, h.flags⟩

theorem Twin.setResult (h : Twin a p u u') (v : Nat) : Twin a p (u.setResult v) (u'.setResult v) :=
  ⟨h.arg, congrArg (State.setResult · v) h.rest, h.flags⟩

theorem Twin.setRng (h : Twin a p u u') (n : Nat) : Twin a p (u.setRng n) (u'.setRng n) :=
  ⟨h.arg, congrArg (State.setRng · n) h.rest, h.flags⟩

theorem Twin.loadKey (h : Twin a p u u') (key : List Byte) : Twin a p (u.loadKey key) (u'.loadKey key) :=
  ⟨h.arg, congrArg (State.loadKey · key) h.rest, h.flags⟩

theorem Twin.loadIv (h : Twin a p u u') (iv : List Byte) : Twin a p (u.loadIv iv) (u'.loadIv iv) :=
  ⟨h.arg, congrArg (State.loadIv · iv) h.rest, h.flags⟩

theorem Twin.ctxInit (h : Twin a p u u') (alg : BitVec 2) : Twin a p (u.ctxInit alg) (u'.ctxInit alg) := by
  unfold State.ctxInit
  split
  · exact ⟨h.arg, congrArg (fun x : State => { x with md5 := HashCtx.initial md5Init }) h.rest, h.flags⟩
  · exact ⟨h.arg, congrArg (fun x : State => { x with sha := HashCtx.initial sha256Init }) h.rest, h.flags⟩

theorem Twin.ctxAbsorb (h : Twin a p u u') (alg : BitVec 2) (bs : List Byte) :
    Twin a p (u.ctxAbsorb alg bs) (u'.ctxAbsorb alg bs) := by
  unfold State.ctxAbsorb
  split
  · exact ⟨h.arg, congrArg (fun x : State => { x with md5 := absorb md5Compress x.md5 bs }) h.rest, h.flags⟩
  · exact ⟨h.arg, congrArg (fun x : State => { x with sha := absorb sha256Compress x.sha bs }) h.rest, h.flags⟩

theorem Twin.setCmpFlags (h : Twin a p u u') (x y : Int) : Twin a p (u.setCmpFlags x y) (u'.setCmpFlags x y) :=
  ⟨h.arg, h.rest, fun hp => congrArg
    (fun st : Status => { st with lt := decide (x < y), eq := decide (x = y), gt := decide (y < x) }) (h.flags hp)⟩

theorem Twin.setNoinv (h : Twin a p u u') (v : Bool) : Twin a p (u.setNoinv v) (u'.setNoinv v) :=
  ⟨h.arg, h.rest, fun hp => congrArg (fun st : Status => { st with noinv := v }) (h.flags hp)⟩

theorem Twin.setPadbad (h : Twin a p u u') (v : Bool) : Twin a p (u.setPadbad v) (u'.setPadbad v) :=
  ⟨h.arg, h.rest, fun hp => congrArg (fun st : Status => { st with padbad := v }) (h.flags hp)⟩

theorem Twin.complete (h : Twin a p u u') (err : Option ErrKind) : Twin a p (complete err u) (complete err u') :=
  ⟨h.arg, congrArg (Machine.complete err) h.rest, fun hp =>
    congrArg (fun st : Status => { st with busy := false, done := true, err := err.isSome }) (h.flags hp)⟩

end Writes

/-! ### A command's pseudocode -/

/-- Two runs of a pseudocode end alike: in twins, or with the same stop. -/
inductive TwinResult (a : Args) (p : Prop) : Except Stop State → Except Stop State → Prop where
  | ok {u u' : State} (h : Twin a p u u') : TwinResult a p (.ok u) (.ok u')
  | error (z : Stop) : TwinResult a p (.error z) (.error z)

/-- Two runs of a command answer alike: twins, or the same fault or refusal. -/
inductive TwinOutcome (a : Args) (p : Prop) :
    Host.Outcome State Fault Refusal → Host.Outcome State Fault Refusal → Prop where
  | next {t t' : State} (h : Twin a p t t') : TwinOutcome a p (.next t) (.next t')
  | fault (f : Fault) : TwinOutcome a p (.fault f) (.fault f)
  | refused (r : Refusal) : TwinOutcome a p (.refused r) (.refused r)

section Pseudocode
variable {a : Args} {p : Prop}

/-- A check or a read that answers the same in both runs. -/
theorem TwinResult.bind {α : Type} {x : Except Stop α} {f f' : α → Except Stop State}
    (h : ∀ v, TwinResult a p (f v) (f' v)) : TwinResult a p (x >>= f) (x >>= f') := by
  cases x with
  | error z => exact .error z
  | ok v => exact h v

theorem TwinResult.writeFitting {s s' : State} (h : Twin a p s s') (rd : RegIdx) {v v' : Int} (hv : v' = v) :
    TwinResult a p (writeFitting rd v s) (writeFitting rd v' s') :=
  hv ▸ .bind fun _ => .ok (h.setB rd v')

theorem TwinResult.finish {s s' : State} {c c' : Except Stop State} (hs : Twin a p s s') (h : TwinResult a p c c') :
    TwinOutcome a p (finish s c) (finish s' c') := by
  cases h with
  | ok h => exact .next (h.complete none)
  | error z =>
    cases z with
    | raise e => exact .next (hs.complete (some e))
    | fault f => exact .fault f

theorem TwinOutcome.of_next {o o' : Host.Outcome State Fault Refusal} {t : State} (h : TwinOutcome a p o o')
    (ho : o = .next t) : ∃ t', o' = .next t' ∧ Twin a p t t' := by
  cases h with
  | next h => cases ho; exact ⟨_, rfl, h⟩
  | fault f => cases ho
  | refused r => cases ho

end Pseudocode

/-- A command run in a state and in its twin. -/
theorem exec_relabel (i : Instr) (s : State) (a : Args) (lt eq gt noinv padbad : Bool) :
    TwinOutcome a (s.relabel s.arg lt eq gt noinv padbad = s) (exec i s)
      (exec i (s.relabel a lt eq gt noinv padbad)) := by
  have h := Twin.relabel s a lt eq gt noinv padbad
  have run {c c' : Except Stop State} (hc : TwinResult a (s.relabel s.arg lt eq gt noinv padbad = s) c c') := hc.finish h
  cases i with
  | nop => exact run (.ok h)
  | ldi => exact run (.ok (h.setB _ _))
  | mov => exact run (.ok (h.setB _ _))
  | ldb => exact run (.bind fun _ => .bind fun _ => .bind fun _ => .ok (h.setB _ _))
  | ldu => exact run (.bind fun _ => .bind fun _ => .bind fun _ => .ok (h.setB _ _))
  | stb => exact run (.bind fun _ => .ok ((h.memWrite _ _).setResult _))
  | stu => exact run (.bind fun _ => .bind fun _ => .ok ((h.memWrite _ _).setResult _))
  | add rd ra rb =>
    change TwinOutcome _ _ (execAdd rd ra rb s) (execAdd rd ra rb _)
    exact run (.writeFitting h rd (by simp only [State.relabel_getB]))
  | sub rd ra rb =>
    change TwinOutcome _ _ (execSub rd ra rb s) (execSub rd ra rb _)
    exact run (.writeFitting h rd (by simp only [State.relabel_getB]))
  | mul rd ra rb =>
    change TwinOutcome _ _ (execMul rd ra rb s) (execMul rd ra rb _)
    exact run (.writeFitting h rd (by simp only [State.relabel_getB]))
  | div => exact run (.bind fun _ => .ok (h.setB _ _))
  | rem => exact run (.bind fun _ => .ok (h.setB _ _))
  | divrem => exact run (.bind fun _ => .bind fun _ => .ok ((h.setB _ _).setB _ _))
  | mod => exact run (.bind fun _ => .writeFitting h _ (by simp only [State.relabel_getB]))
  | modpow => exact run (.bind fun _ => .bind fun _ => .ok (h.setB _ _))
  | modinv rd ra rb =>
    refine run (.bind fun _ => ?_)
    simp only [State.relabel_getB]
    cases modInverse (s.getB ra) (s.getB rb) with
    | none => exact .ok (h.setNoinv true)
    | some x => exact .ok ((h.setB rd x).setNoinv false)
  | cmp => exact run (.ok ((h.setCmpFlags _ _).setResult _))
  | bitlen => exact run (.ok (h.setResult _))
  | rsaenc => exact run (.bind fun _ => .bind fun _ => .bind fun _ => .bind fun _ => .bind fun _ =>
      .ok (((h.memWrite _ _).setResult _).setRng _))
  | rsadec ra rb =>
    refine run (.bind fun _ => .bind fun _ => .bind fun bs => ?_)
    simp only [State.relabel_getB]
    cases pkcs1Unpad (i2osp (modPow (os2ip bs) (s.getB rb).toNat (s.getB ra)).toNat (keyLen (s.getB ra))) with
    | none => exact .error _
    | some m => exact .ok ((h.memWrite _ m).setResult _)
  | aeskey => exact run (.bind fun _ => .bind fun _ => .bind fun _ => .ok (h.loadKey _))
  | aesiv => exact run (.bind fun _ => .bind fun _ => .ok (h.loadIv _))
  | aescrypt dec cbc pad strict =>
    refine run (.bind fun _ => .bind fun _ => .bind fun _ => .bind fun _ => .bind fun _ => .bind fun _ =>
      .bind fun xs => ?_)
    simp only [State.relabel_aes]
    cases s.aes.crypt dec cbc pad strict xs with
    | none => exact .error _
    | some y => exact .ok (((h.memWrite _ y.1).setPadbad y.2).setResult _)
  | hinit => exact run (.bind fun _ => .ok (h.ctxInit _))
  | hupdate => exact run (.bind fun _ => .bind fun _ => .bind fun _ => .ok (h.ctxAbsorb _ _))
  | hfinal => exact run (.bind fun _ => .bind fun _ => .ok (((h.memWrite _ _).ctxInit _).setResult _))

/-- Settles O27: the two runs end in twins. -/
theorem commandsReadNeitherArgsNorFlags : Obligations.CommandsReadNeitherArgsNorFlags := by
  intro i s t a lt eq gt noinv padbad h
  obtain ⟨t', ht', twin⟩ := (exec_relabel i s a lt eq gt noinv padbad).of_next h
  exact ⟨t', ht', twin.arg, congrArg (fun u : State => { u with arg := t.arg }) twin.rest⟩

/-- Running a command after ARG0–ARG3 are rewritten gives the same state with those arguments (10_state.md R32). -/
theorem exec_setArg {i : Instr} {s t : State} (a : Args) (h : exec i s = .next t) :
    exec i { s with arg := a } = .next { t with arg := a } := by
  obtain ⟨t', ht', twin⟩ := (exec_relabel i s a s.status.lt s.status.eq s.status.gt s.status.noinv
    s.status.padbad).of_next h
  have same : t' = { t with arg := a } := Twin.eq_of_sameFlags ⟨twin.arg, twin.rest, fun _ => twin.flags rfl⟩
  exact same ▸ ht'

/-- The engine never writes ARG0–ARG3 (10_state.md R32). -/
theorem engineStep_arg {s t : State} (h : engineStep s = .next t) : t.arg = s.arg := by
  rcases engineStep_next h with ⟨-, rfl⟩ | ⟨e, -, -, rfl⟩ | ⟨i, u, -, -, rfl, hu⟩
  · rfl
  · rfl
  · obtain ⟨-, -, -, -, harg, -⟩ := hu.frame.hostSide
    exact harg

/-- Settles O10: the host's accesses compute, issue is O9's, the engine's part is `engineStep_arg` and `exec_setArg`. -/
theorem argRegisters : Obligations.ArgRegisters := by
  refine ⟨fun s v => ⟨rfl, rfl, rfl, rfl, rfl, rfl, rfl, rfl⟩, fun s t w hb h => ?_, fun s t h => engineStep_arg h,
    fun i s t a h => exec_setArg a h⟩
  obtain ⟨-, -, accepted⟩ := commandIssue s w
  rw [accepted hb] at h
  cases h
  rfl

end Sys2Proof.Machine
end

section
/-! PROOF. The DMEM window of the host port (O12, O14): a legal access of an idle engine is a read or write of a byte string
inside DMEM, with the bytes of the value in little-endian order. -/

namespace Sys2Proof.Machine

/-! ### Which accesses are legal (20_memory.md R70) -/

/-- Natural alignment, width by width. -/
theorem Width.aligned_iff (w : Width) (off : Nat) :
    off % w.bytes = 0 ↔ w = .byte ∨ (w = .half ∧ off % 2 = 0) ∨ (w = .word ∧ off % 4 = 0) := by
  cases w <;> simp [Width.bytes, Nat.mod_one]

/-- Below the window only aligned words are legal, in it every aligned access. -/
theorem accessLegal_iff {w : Width} {off : Nat} :
    accessLegal w off = true ↔
      (off < 0x1000 ∧ w = .word ∧ off % 4 = 0) ∨ (0x1000 ≤ off ∧ off % w.bytes = 0) := by
  unfold accessLegal
  split
  · next h => simp [h]
  · next h => simp [Nat.le_of_not_lt h, h]

/-- An aligned access that begins in the window ends in it. -/
theorem Width.window_end {w : Width} {off : Nat} (hlt : off < 0x2000) (ha : off % w.bytes = 0) :
    off - 0x1000 + w.bytes ≤ Config.dmemSize := by
  cases w <;> simp only [Width.bytes, Config.dmemSize] at * <;> omega

section Access
variable {s : State} {w : Width} {off : Nat}

theorem hostRead_illegal (h : accessLegal w off = false) : hostRead w off s = .fault .hostBusError := if_pos h

theorem hostWrite_illegal (v : Word) (h : accessLegal w off = false) : hostWrite w off v s = .fault .hostBusError :=
  if_pos h

/-- A window read is HOST_HAZARD while busy, else a read of DMEM's bytes. -/
theorem hostRead_window (hge : 0x1000 ≤ off) (hlt : off < 0x2000) (ha : off % w.bytes = 0) :
    hostRead w off s =
      if s.status.busy then .fault .hostHazard
      else (s.dmem.readBytes? (off - 0x1000) w.bytes).elim (.fault .uninitRead)
        fun bs => .next { s with rdata := BitVec.ofNat 32 (leToNat bs) } := by
  have hl : accessLegal w off = true := accessLegal_iff.mpr (.inr ⟨hge, ha⟩)
  rw [hostRead, if_neg (by simp [hl]), if_neg (by omega), windowRead?_eq_readBytes? (Width.window_end hlt ha)]
  cases s.dmem.readBytes? (off - 0x1000) w.bytes <;> rfl

/-- A window write is HOST_HAZARD while busy, else a write of DMEM's bytes. -/
theorem hostWrite_window (v : Word) (hge : 0x1000 ≤ off) (hlt : off < 0x2000) (ha : off % w.bytes = 0) :
    hostWrite w off v s =
      if s.status.busy then .fault .hostHazard
      else .next { s with dmem := s.dmem.writeBytes (off - 0x1000) (leBytes v.toNat w.bytes) } := by
  have hl : accessLegal w off = true := accessLegal_iff.mpr (.inr ⟨hge, ha⟩)
  have hend : off - 0x1000 + (leBytes v.toNat w.bytes).length ≤ Config.dmemSize := by
    rw [leBytes_length]; exact Width.window_end hlt ha
  rw [hostWrite, if_neg (by simp [hl]), if_neg (by omega), windowWrite_eq_writeBytes hend]

end Access

/-! ### RESULT and ERRCODE -/

theorem State.readReg_errcode_toNat (s : State) : (s.readReg 0x00C).toNat = s.errcode.toNat := by
  have := s.errcode.isLt
  change (s.errcode.setWidth 32).toNat = _
  rw [BitVec.toNat_setWidth]
  omega

/-- While a command is pending ERRCODE reads 0 (10_state.md R29, R30). -/
theorem State.Inv.readReg_errcode_busy {s : State} (h : s.Inv) (hb : s.status.busy = true) : s.readReg 0x00C = 0 := by
  obtain ⟨-, -, hc⟩ := h.pending_clear (h.pending_eq_busy.trans hb)
  exact BitVec.eq_of_toNat_eq (by rw [s.readReg_errcode_toNat, hc]; rfl)

/-- Settles O12: the legal accesses of `accessLegal_iff` are O6's register accesses and the window accesses. -/
theorem hostBusRules : Obligations.HostBusRules := by
  refine ⟨fun s w off v hlt => ?_, fun s => ⟨rfl, ⟨_, rfl, s.readReg_errcode_toNat⟩, fun hi hb => ?_⟩⟩
  · intro register window
    have hwin : window ↔ 0x1000 ≤ off ∧ off % w.bytes = 0 := by rw [w.aligned_iff]
    refine ⟨fun h => ?_, ?_, fun h hb => ?_, fun h hb => ?_⟩
    · rw [hwin, ← accessLegal_iff, Bool.not_eq_true] at h
      exact ⟨hostRead_illegal h, hostWrite_illegal v h⟩
    · rintro ⟨h, rfl, h4⟩
      exact ⟨⟨_, hostRead_register s h h4⟩, _, hostWrite_register s v h h4⟩
    · obtain ⟨hge, ha⟩ := hwin.mp h
      rw [hostRead_window hge hlt ha, hostWrite_window v hge hlt ha, if_pos hb, if_pos hb]
      exact ⟨rfl, rfl⟩
    · obtain ⟨hge, ha⟩ := hwin.mp h
      rw [hostRead_window hge hlt ha, hostWrite_window v hge hlt ha, if_neg (by simp [hb]), if_neg (by simp [hb])]
      refine ⟨?_, _, rfl⟩
      cases s.dmem.readBytes? (off - 0x1000) w.bytes with
      | none => exact .inr rfl
      | some bs => exact .inl ⟨_, rfl⟩
  · rw [← hi.readReg_errcode_busy hb]; rfl

/-! ### The byte lanes (20_memory.md R74) -/

/-- The little-endian bytes of a word are its lanes, bits 8i to 8i+7. -/
theorem leBytes_eq_lanes (v : Word) (n : Nat) :
    leBytes v.toNat n = (List.range n).map fun i => v.extractLsb' (8 * i) 8 := by
  have lane (i : Nat) : v.extractLsb' (8 * i) 8 = BitVec.ofNat 8 (v.toNat / 256 ^ i) := by
    rw [BitVec.extractLsb', Nat.shiftRight_eq_div_pow, pow_mul]; norm_num
  refine List.ext_getElem? fun i => ?_
  rw [leBytes_getElem?, List.getElem?_map]
  split
  · next h => rw [List.getElem?_range h, Option.map_some, lane]
  · next h => rw [List.getElem?_eq_none (by simpa using h), Option.map_none]

/-- A little-endian string as a sum, byte i weighing 256^i. -/
theorem leToNat_eq_sum (bs : List Byte) :
    leToNat bs = ∑ i ∈ Finset.range bs.length, (bs.getD i 0).toNat * 256 ^ i := by
  induction bs with
  | nil => rfl
  | cons x xs ih =>
    simp only [leToNat, ih, List.length_cons, Finset.sum_range_succ', List.getD_cons_succ, List.getD_cons_zero,
      Finset.mul_sum, pow_succ']
    rw [add_comm]
    congr 1
    · exact Finset.sum_congr rfl fun i _ => by ring
    · ring

/-- A value of an access's width fits the 32-bit data. -/
theorem Width.pow_bytes_le (w : Width) : 256 ^ w.bytes ≤ 2 ^ 32 := by cases w <;> decide

/-- Settles O14: a write puts `leBytes`, the lanes, and a read of bytes that stand there gives their `leToNat`. -/
theorem windowByteLanes : Obligations.WindowByteLanes := by
  intro s w a v hlt ha hb
  have hal : (0x1000 + a) % w.bytes = 0 := by cases w <;> simp only [Width.bytes] at * <;> omega
  have hoff : 0x1000 + a - 0x1000 = a := by omega
  refine ⟨?_, fun bs hlen hbs => ?_⟩
  · rw [hostWrite_window v (by omega) (by omega) hal, if_neg (by simp [hb]), hoff, leBytes_eq_lanes]
    exact ⟨_, rfl, Memory.stores_writeBytes _ _ _⟩
  · rw [hostRead_window (by omega) (by omega) hal, if_neg (by simp [hb]), hoff, hbs.readBytes? hlen.symm]
    refine ⟨_, rfl, ?_⟩
    have hval : leToNat bs < 256 ^ w.bytes := hlen ▸ leToNat_lt bs
    rw [BitVec.toNat_ofNat, Nat.mod_eq_of_lt (hval.trans_le w.pow_bytes_le), Nat.mod_eq_of_lt hval, ← hlen,
      leToNat_eq_sum]

end Sys2Proof.Machine
end

section
/-! PROOF. The "initialised" marks (O13): a write marks its bytes, and a read of a range with an unmarked byte is UNINIT_READ
in every command whose checks above the read pass. -/

namespace Sys2Proof.Machine

/-! ### Bytes with and without a value -/

/-- A byte string written marks every byte it covers. -/
theorem Memory.isSome_read?_writeBytes (m : Memory) (a : Nat) {bs : List Byte} {i : Nat} (h : i < bs.length) :
    ((m.writeBytes a bs).read? (a + i)).isSome = true := by
  obtain ⟨stored, -⟩ := Memory.stores_writeBytes m a bs
  rw [stored i h]; rfl

/-- A range with an unmarked byte cannot be read. -/
theorem Memory.readBytes?_eq_none {m : Memory} {a n i : Nat} (hi : i < n) (h : m.read? (a + i) = none) :
    m.readBytes? a n = none := by
  refine Option.eq_none_iff_forall_ne_some.mpr fun bs hbs => ?_
  obtain ⟨hlen, hread⟩ := Memory.readBytes?_eq_some.mp hbs
  have := hread i hi
  rw [h, List.getElem?_eq_getElem (by omega)] at this
  cases this

/-- An idle host write to the window marks the bytes it covers. -/
theorem hostWrite_marks {s t : State} {w : Width} {off i : Nat} {v : Word} (hge : 0x1000 ≤ off) (hlt : off < 0x2000)
    (h : hostWrite w off v s = .next t) (hi : i < w.bytes) : (t.dmem.read? (off - 0x1000 + i)).isSome = true := by
  cases hl : accessLegal w off with
  | false => rw [hostWrite_illegal v hl] at h; cases h
  | true =>
    obtain ⟨hreg, -⟩ | ⟨-, ha⟩ := accessLegal_iff.mp hl
    · omega
    · rw [hostWrite_window v hge hlt ha] at h
      split at h
      · cases h
      · cases h
        exact Memory.isSome_read?_writeBytes _ _ (by rwa [leBytes_length])

/-! ### A command's pseudocode up to its read -/

section Pseudocode
variable {α β : Type} {f : α → Except Stop β}

/-- A step that answers passes on to the next. -/
theorem Except.bind_error_of_ok {x : Except Stop α} {a : α} {z : Stop} (hx : x = .ok a) (hf : f a = .error z) :
    (x >>= f) = .error z :=
  Except.bind_eq_error.mpr (.inr ⟨a, hx, hf⟩)

/-- A check that passes. -/
theorem require_bind_error {c : Prop} [Decidable c] {e : ErrKind} {g : Unit → Except Stop β} {z : Stop} (hc : c)
    (hg : g () = .error z) : (require c e >>= g) = .error z :=
  Except.bind_error_of_ok (require_eq_ok.mpr hc) hg

/-- A read of a range that cannot be read. -/
theorem memRead_bind_fault {s : State} {addr : Word} {n : Nat} {g : List Byte → Except Stop β}
    (h : s.dmem.readBytes? addr.toNat n = none) : (memRead s addr n >>= g) = .error (.fault .uninitRead) :=
  Except.bind_eq_error.mpr (.inl (memRead_eq_error.mpr ⟨h, rfl⟩))

end Pseudocode

/-! ### Every command that reads DMEM -/

section Commands
variable {s : State}

theorem exec_aesiv_fault (hin : inRange s.larg.arg0 16) (hr : s.dmem.readBytes? s.larg.arg0.toNat 16 = none) :
    exec .aesiv s = .fault .uninitRead :=
  finish_eq_fault.mpr (require_bind_error hin (memRead_bind_fault hr))

theorem exec_aescrypt_fault {dec cbc pad strict : Bool} (hc : aescryptChecks dec cbc pad strict s)
    (hr : s.dmem.readBytes? s.larg.arg0.toNat s.larg.arg1.toNat = none) :
    exec (.aescrypt dec cbc pad strict) s = .fault .uninitRead := by
  obtain ⟨hstrict, hkey, hiv, hsrc, hlen, hdst⟩ := hc
  exact finish_eq_fault.mpr (require_bind_error hstrict (require_bind_error hkey (require_bind_error hiv
    (require_bind_error hsrc (require_bind_error hlen (require_bind_error hdst (memRead_bind_fault hr)))))))

section Source
variable (hin : inRange s.larg.arg0 s.larg.arg1.toNat)
  (hr : s.dmem.readBytes? s.larg.arg0.toNat s.larg.arg1.toNat = none)
include hin hr

theorem exec_ldb_fault (rd : RegIdx) : exec (.ldb rd) s = .fault .uninitRead :=
  finish_eq_fault.mpr (require_bind_error hin (memRead_bind_fault hr))

theorem exec_ldu_fault (rd : RegIdx) : exec (.ldu rd) s = .fault .uninitRead :=
  finish_eq_fault.mpr (require_bind_error hin (memRead_bind_fault hr))

theorem exec_hupdate_fault {alg : BitVec 2} (ha : alg = 0#2 ∨ alg = 1#2) :
    exec (.hupdate alg) s = .fault .uninitRead :=
  finish_eq_fault.mpr (require_bind_error ha (require_bind_error hin (memRead_bind_fault hr)))

theorem exec_aeskey_fault (hl : s.larg.arg1.toNat = 16 ∨ s.larg.arg1.toNat = 24 ∨ s.larg.arg1.toNat = 32) :
    exec .aeskey s = .fault .uninitRead :=
  finish_eq_fault.mpr (require_bind_error hl (require_bind_error hin (memRead_bind_fault hr)))

theorem exec_rsadec_fault {ra rb : RegIdx} (hpos : 0 < s.getB ra ∧ 0 ≤ s.getB rb)
    (hdst : inRange s.larg.arg2 (keyLen (s.getB ra) - 11)) : exec (.rsadec ra rb) s = .fault .uninitRead :=
  finish_eq_fault.mpr (require_bind_error hpos (require_bind_error ⟨hin, hdst⟩ (memRead_bind_fault hr)))

end Source

/-! ### RSAENC: its checks, its padding string, then its message (41_rsa.md R140) -/

section Rsaenc
variable {ra rb : RegIdx} (hpos : 0 < s.getB ra ∧ 0 ≤ s.getB rb) (hin : inRange s.larg.arg0 s.larg.arg1.toNat)
  (hdst : inRange s.larg.arg2 (keyLen (s.getB ra))) (hlen : s.larg.arg1.toNat + 11 ≤ keyLen (s.getB ra))
include hpos hin hdst hlen

theorem exec_rsaenc_fault_of_message {pssrc : Bool} {ps : List Byte × Nat}
    (hps : paddingString pssrc s (keyLen (s.getB ra) - s.larg.arg1.toNat - 3) = .ok ps)
    (hr : s.dmem.readBytes? s.larg.arg0.toNat s.larg.arg1.toNat = none) :
    exec (.rsaenc ra rb pssrc) s = .fault .uninitRead :=
  finish_eq_fault.mpr (require_bind_error hpos (require_bind_error ⟨hin, hdst⟩ (require_bind_error hlen
    (Except.bind_error_of_ok hps (memRead_bind_fault hr)))))

theorem exec_rsaenc_fault_of_padding (hps : inRange s.larg.arg3 (keyLen (s.getB ra) - s.larg.arg1.toNat - 3))
    (hr : s.dmem.readBytes? s.larg.arg3.toNat (keyLen (s.getB ra) - s.larg.arg1.toNat - 3) = none) :
    exec (.rsaenc ra rb true) s = .fault .uninitRead :=
  finish_eq_fault.mpr (require_bind_error hpos (require_bind_error ⟨hin, hdst⟩ (require_bind_error hlen
    (Except.bind_eq_error.mpr (.inl (paddingString_eq_error.mpr ⟨rfl, .inr (.inl ⟨hps, hr, rfl⟩)⟩))))))

end Rsaenc

end Commands

/-- ALG 0 and 1 are the hash algorithms (45_hash_commands.md R205). -/
theorem alg_of_toNat_lt {alg : BitVec 2} (h : alg.toNat < 2) : alg = 0#2 ∨ alg = 1#2 := by bv_omega

/-- A modulus of `k` bytes is positive. -/
theorem pos_of_pow_le {n : Int} {k : Nat} (h : 256 ^ k ≤ n) : 0 < n := lt_of_lt_of_le (by positivity) h

/-- Settles O13: the marks of a write and of a reset, then one fault lemma per command. -/
theorem initialisedMarks : Obligations.InitialisedMarks := by
  refine ⟨fun _ _ => rfl, fun s hp => ?_, fun s t w off v hge hlt h i hi => hostWrite_marks hge hlt h hi,
    fun s addr bs i hi => Memory.isSome_read?_writeBytes _ _ hi, fun s w off i hb hge hlt ha hi hn => ?_,
    fun s addr n i hi hn => memRead_eq_error.mpr ⟨Memory.readBytes?_eq_none hi hn, rfl⟩,
    fun s j hn => ⟨fun hj hin => exec_aesiv_fault hin (Memory.readBytes?_eq_none hj hn), fun hj hin => ?_⟩,
    fun ra rb s k j hlo hhi he hin hdst hlen hps hj hn => ?_⟩
  · obtain ⟨-, -, -, -, idle, -⟩ := resetValues
    exact idle s hp
  · rw [hostRead_window hge hlt ha, if_neg (by simp [hb]), Memory.readBytes?_eq_none hi hn]
    rfl
  · have hr := Memory.readBytes?_eq_none hj hn
    refine ⟨fun rd => ⟨exec_ldb_fault hin hr rd, exec_ldu_fault hin hr rd⟩,
      fun alg ha => exec_hupdate_fault hin hr (alg_of_toNat_lt ha), exec_aeskey_fault hin hr,
      fun dec cbc pad strict hstrict hkey hiv hblk hdst =>
        exec_aescrypt_fault ⟨hstrict, hkey, hiv, hin, hblk, hdst⟩ hr,
      fun ra rb k hlo hhi he hk => ?_⟩
    have hpos : 0 < s.getB ra ∧ 0 ≤ s.getB rb := ⟨pos_of_pow_le hlo, he⟩
    obtain rfl := keyLen_eq hk hlo hhi
    refine ⟨fun hdst hlen => ⟨?_, fun ps hpl hnz hpin hheld => ?_⟩, exec_rsadec_fault hin hr hpos⟩
    · exact exec_rsaenc_fault_of_message hpos hin hdst hlen (paddingString_eq_ok.mpr (.inl ⟨rfl, rfl⟩)) hr
    · rw [hpl] at hpin
      exact exec_rsaenc_fault_of_message (ps := (ps, s.rng)) hpos hin hdst hlen
        (paddingString_eq_ok.mpr (.inr ⟨rfl, hpin, hheld.readBytes? hpl.symm, hnz, rfl⟩)) hr
  · obtain rfl := keyLen_eq (by omega) hlo hhi
    exact exec_rsaenc_fault_of_padding ⟨pos_of_pow_le hlo, he⟩ hin hdst hlen hps (Memory.readBytes?_eq_none hj hn)

end Sys2Proof.Machine
end

section
/-! PROOF. Which DMEM bytes a command changes (O30): a command that stores writes one byte string at LARG2, inside DMEM, with
its length in RESULT, and no other command writes DMEM. -/

namespace Sys2Proof.Machine

/-- From `s` to `u` the byte string `bs` was stored at LARG2, inside DMEM, and its length left in RESULT. -/
structure StoredAtDest (s u : State) (bs : List Byte) : Prop where
  inside : s.larg.arg2.toNat + bs.length ≤ Config.dmemSize
  dmem : u.dmem = s.dmem.writeBytes s.larg.arg2.toNat bs
  result : u.result = BitVec.ofNat 32 bs.length

/-- A length inside DMEM is RESULT's value itself. -/
theorem StoredAtDest.result_toNat {s u : State} {bs : List Byte} (h : StoredAtDest s u bs) :
    u.result.toNat = bs.length := by
  have hin := h.inside
  rw [h.result, BitVec.toNat_ofNat]
  exact Nat.mod_eq_of_lt (by unfold Config.dmemSize at hin; omega)

/-- A command that stores and succeeds has stored its output at LARG2. -/
theorem Effect.storedAtDest {i : Instr} {s u : State} (h : Effect i s u) (hi : i.stores = true) :
    ∃ bs, StoredAtDest s u bs := by
  cases i with
  | stb ra =>
    obtain ⟨hr, rfl⟩ := h
    exact ⟨_, by rwa [tcEncode_length], rfl, by rw [tcEncode_length]; rfl⟩
  | stu ra =>
    obtain ⟨hr, rfl⟩ := h
    exact ⟨_, by rwa [i2osp_length], rfl, by rw [i2osp_length]; rfl⟩
  | rsaenc ra rb pssrc =>
    obtain ⟨ps, m, hr, -, rfl⟩ := h
    exact ⟨_, by rwa [i2osp_length], rfl, by rw [i2osp_length]; rfl⟩
  | rsadec ra rb =>
    obtain ⟨bs, m, hr, hm, rfl⟩ := h
    have hle := pkcs1Unpad_length hm
    rw [i2osp_length] at hle
    exact ⟨m, le_trans (by omega) hr, rfl, rfl⟩
  | aescrypt dec cbc pad strict =>
    obtain ⟨xs, y, ⟨-, -, -, -, hblk, hdst⟩, hlen, hy, rfl⟩ := h
    rw [← hlen] at hblk hdst
    have hle := Aes.crypt_length_le hblk hy
    exact ⟨y.1, le_trans (by omega) hdst, rfl, rfl⟩
  | hfinal alg =>
    obtain ⟨hr, rfl⟩ := h
    exact ⟨s.ctxDigest alg, by rwa [ctxDigest_length], by simp, by rw [ctxDigest_length]; rfl⟩
  | _ => cases hi

/-- A command that does not store leaves DMEM as it is. -/
theorem Effect.dmem_eq {i : Instr} {s u : State} (h : Effect i s u) (hi : i.stores = false) : u.dmem = s.dmem := by
  cases i <;> simp only [Effect] at h
  case stb | stu | rsaenc | rsadec | aescrypt | hfinal => cases hi
  case nop | ldi | mov | cmp | bitlen => subst h; rfl
  case add | sub | mul | div | rem | modpow => obtain ⟨-, rfl⟩ := h; rfl
  case divrem | mod => obtain ⟨-, -, rfl⟩ := h; rfl
  case ldb | ldu => obtain ⟨_, -, -, rfl⟩ := h; rfl
  case modinv => obtain ⟨-, ⟨-, rfl⟩ | ⟨_, -, rfl⟩⟩ := h <;> rfl
  case aeskey => obtain ⟨_, -, rfl⟩ := h; rfl
  case aesiv => obtain ⟨_, rfl⟩ := h; rfl
  case hinit => subst h; exact s.ctxInit_dmem _
  case hupdate => obtain ⟨bs, rfl⟩ := h; exact s.ctxAbsorb_dmem _ bs

/-- Settles O30: a completion with an error has written nothing; a success has the effect of the command. -/
theorem memoryFrame : Obligations.MemoryFrame := by
  intro i s t h
  rcases exec_next h with ⟨e, -, rfl⟩ | ⟨u, rfl, hu⟩
  · exact ⟨fun _ _ => rfl, fun _ he => by cases he⟩
  · refine ⟨fun hn a => ?_, fun hi _ => ?_⟩
    · have hi : i.stores = false := hn.resolve_right nofun
      rw [complete_dmem, hu.dmem_eq hi]
    · obtain ⟨bs, stored⟩ := hu.storedAtDest hi
      rw [complete_result, stored.result_toNat, complete_dmem, stored.dmem]
      exact ⟨stored.inside, fun a ha => Memory.read?_writeBytes_of_outside ha⟩

end Sys2Proof.Machine
end

section
/-! PROOF. Decoding what was encoded (O16, O17, O18). Decoding a packed word is decoding its fields (Laws/Decode.lean), so
O18 is a split over the commands, and the words of O16 and O17 are encodings. -/

namespace Sys2Proof

/-- STRICT stands only with DEC = PAD = 1, as the decoder asks it (30_encoding.md R85). -/
theorem wellFormed_aescrypt {dec cbc pad strict : Bool} :
    (Instr.aescrypt dec cbc pad strict).wellFormed = true ↔ (strict = true → dec = true ∧ pad = true) := by
  cases strict <;> simp [Instr.wellFormed]

/-- ALG names MD5 or SHA-256 (30_encoding.md R84); the same statement, unfolded, for HUPDATE and HFINAL. -/
theorem wellFormed_hinit {alg : BitVec 2} : (Instr.hinit alg).wellFormed = true ↔ alg = 0#2 ∨ alg = 1#2 := by
  simp [Instr.wellFormed]

/-- A hash command's fields decode to it, whichever of the three it is. -/
theorem decodeHash_hashFn (mk : BitVec 2 → Instr) {alg : BitVec 2} (h : alg = 0#2 ∨ alg = 1#2) :
    decodeHash mk 0 0 0 0 (hashFn alg) = .ok (mk alg) := by
  obtain ⟨halg, hzero⟩ := hashFn_bits alg
  rw [decodeHash, if_neg (by simp [hzero]), halg, if_pos h]

theorem decodeAescrypt_aescryptFn {dec cbc pad strict : Bool} (h : strict = true → dec = true ∧ pad = true) :
    decodeAescrypt 0 0 0 0 (aescryptFn dec cbc pad strict) = .ok (.aescrypt dec cbc pad strict) := by
  obtain ⟨hdec, hcbc, hpad, hstrict, hzero⟩ := aescryptFn_bits dec cbc pad strict
  rw [decodeAescrypt, hdec, hcbc, hpad, hstrict]
  exact legalOr_eq_ok.mpr ⟨⟨rfl, rfl, rfl, rfl, hzero, h⟩, rfl⟩

/-- Settles O18: the fields of an encoded word are the command's. Where every unused field is a literal zero the row of the
opcode evaluates to the command; the other commands name the condition their row asks for. -/
theorem decodeAfterEncode : Obligations.DecodeAfterEncode := by
  intro i hi
  cases i with
  | nop | ldi | mov | ldb | ldu | stb | stu | add | sub | mul | div | rem | mod | modpow | modinv | cmp | bitlen
  | rsadec | aeskey | aesiv => exact decode_packWord ..
  | divrem rd ra rb rc => exact (decode_packWord ..).trans (legalOr_eq_ok.mpr ⟨⟨bne_iff_ne.mp hi, rfl⟩, rfl⟩)
  | rsaenc ra rb pssrc =>
    obtain ⟨hbit, hzero⟩ := rsaencFn_bits pssrc
    exact (decode_packWord ..).trans (legalOr_eq_ok.mpr ⟨⟨rfl, rfl, hzero⟩, congrArg (Instr.rsaenc ra rb) hbit⟩)
  | aescrypt => exact (decode_packWord ..).trans (decodeAescrypt_aescryptFn (wellFormed_aescrypt.mp hi))
  | hinit | hupdate | hfinal => exact (decode_packWord ..).trans (decodeHash_hashFn _ (wellFormed_hinit.mp hi))

theorem decode_of_encode_eq {i : Instr} {w : Word} (hi : i.wellFormed = true) (he : encode i = w) : decode w = .ok i :=
  he ▸ decodeAfterEncode i hi

/-- The word written from a well-formed command's fields decodes to the command. -/
theorem decode_commandWord_eq_ok {i : Instr} (op : BitVec 8) (rd ra rb rc : RegIdx) (fn : BitVec 8)
    (hi : i.wellFormed = true) (he : encode i = packWord fn rc rb ra rd op) :
    decode (commandWord op.toNat rd ra rb rc fn.toNat) = .ok i :=
  decode_of_encode_eq hi (he.trans (commandWord_eq_packWord op rd ra rb rc fn).symm)

/-- FN of AESCRYPT as a number (30_encoding.md R85). -/
theorem aescryptFn_toNat : ∀ dec cbc pad strict : Bool,
    (aescryptFn dec cbc pad strict).toNat = dec.toNat + 2 * cbc.toNat + 4 * pad.toNat + 8 * strict.toNat := by
  decide

/-- FN of a hash command as a number (30_encoding.md R84). -/
theorem hashFn_toNat : ∀ alg : BitVec 2, (hashFn alg).toNat = alg.toNat := by
  decide

/-- Settles O16: the word of each row is the encoding of a well-formed command, so O18 decodes it. -/
theorem decode_opcodeMap : Obligations.OpcodeMap := by
  refine ⟨decode_commandWord_eq_ok 0x00 0 0 0 0 0 rfl rfl,
    fun rd => decode_commandWord_eq_ok 0x01 rd 0 0 0 0 rfl rfl,
    fun rd ra => decode_commandWord_eq_ok 0x02 rd ra 0 0 0 rfl rfl,
    fun rd => decode_commandWord_eq_ok 0x03 rd 0 0 0 0 rfl rfl,
    fun rd => decode_commandWord_eq_ok 0x04 rd 0 0 0 0 rfl rfl,
    fun ra => decode_commandWord_eq_ok 0x05 0 ra 0 0 0 rfl rfl,
    fun ra => decode_commandWord_eq_ok 0x06 0 ra 0 0 0 rfl rfl,
    fun rd ra rb => ⟨decode_commandWord_eq_ok 0x10 rd ra rb 0 0 rfl rfl,
      decode_commandWord_eq_ok 0x11 rd ra rb 0 0 rfl rfl, decode_commandWord_eq_ok 0x12 rd ra rb 0 0 rfl rfl,
      decode_commandWord_eq_ok 0x13 rd ra rb 0 0 rfl rfl, decode_commandWord_eq_ok 0x14 rd ra rb 0 0 rfl rfl,
      decode_commandWord_eq_ok 0x16 rd ra rb 0 0 rfl rfl, decode_commandWord_eq_ok 0x18 rd ra rb 0 0 rfl rfl⟩,
    fun rd ra rb rc => ⟨fun hne => decode_commandWord_eq_ok 0x15 rd ra rb rc 0 (bne_iff_ne.mpr hne) rfl,
      decode_commandWord_eq_ok 0x17 rd ra rb rc 0 rfl rfl⟩,
    fun ra rb => ⟨decode_commandWord_eq_ok 0x19 0 ra rb 0 0 rfl rfl, decode_commandWord_eq_ok 0x20 0 ra rb 0 0 rfl rfl,
      decode_commandWord_eq_ok 0x20 0 ra rb 0 1 rfl rfl, decode_commandWord_eq_ok 0x21 0 ra rb 0 0 rfl rfl⟩,
    fun ra => decode_commandWord_eq_ok 0x1A 0 ra 0 0 0 rfl rfl,
    decode_commandWord_eq_ok 0x30 0 0 0 0 0 rfl rfl, decode_commandWord_eq_ok 0x31 0 0 0 0 0 rfl rfl,
    fun dec cbc pad strict hstrict => ?aescrypt, fun alg halg => ?hash⟩
  case aescrypt =>
    rw [← aescryptFn_toNat]
    exact decode_commandWord_eq_ok 0x32 0 0 0 0 _ (wellFormed_aescrypt.mpr hstrict) rfl
  case hash =>
    have hwf := wellFormed_hinit.mpr (Machine.alg_of_toNat_lt halg)
    rw [← hashFn_toNat]
    exact ⟨decode_commandWord_eq_ok 0x40 0 0 0 0 _ hwf rfl, decode_commandWord_eq_ok 0x41 0 0 0 0 _ hwf rfl,
      decode_commandWord_eq_ok 0x42 0 0 0 0 _ hwf rfl⟩

/-- Settles O17: each of the seven words is the encoding of the command it stands for (O18). -/
theorem decodedWords : Obligations.DecodedWords :=
  ⟨decode_of_encode_eq (i := .nop) rfl rfl, decode_of_encode_eq (i := .add 3 1 2) rfl rfl,
    decode_of_encode_eq (i := .divrem 3 1 2 4) rfl rfl, decode_of_encode_eq (i := .modpow 4 1 2 3) rfl rfl,
    decode_of_encode_eq (i := .rsaenc 1 2 true) rfl rfl, decode_of_encode_eq (i := .aescrypt true true true false) rfl rfl,
    decode_of_encode_eq (i := .hfinal 1) rfl rfl⟩

end Sys2Proof
end

section
/-! PROOF. What the decoder answers for every word (O19, O20). The decoder's chain of opcode tests and the rows of
`opcodeMap` are gone through together, once (`decodeFields_lookup`): a word whose opcode has a row gets one of the three
answers `OpcodeRow.Answers` lists, any other word ILLEGAL_COMMAND. -/

namespace Sys2Proof

/-! ### The bits a row does not use -/

theorem append_eq_zero {m n : Nat} {x : BitVec m} {y : BitVec n} : x ++ y = 0#(m + n) ↔ x = 0#m ∧ y = 0#n := by
  constructor
  · intro h
    have hy : y = 0#n := by
      rw [← BitVec.extractLsb'_append_eq_right (a := x) (b := y), h, BitVec.extractLsb'_zero]
    rw [hy, ← BitVec.zero_append_zero] at h
    exact ⟨(BitVec.append_left_inj _).mp h, hy⟩
  · rintro ⟨rfl, rfl⟩
    exact BitVec.zero_append_zero

theorem append_and_not_eq_zero {m n : Nat} {x p : BitVec m} {y q : BitVec n} :
    (x ++ y) &&& ~~~(p ++ q) = 0#(m + n) ↔ x &&& ~~~p = 0#m ∧ y &&& ~~~q = 0#n := by
  rw [BitVec.not_append, BitVec.and_append, append_eq_zero]

/-- No bit of the register field `r` stands outside the mask `m`. -/
def inMask (r m : RegIdx) : Prop := BitVec.ofFin (w := 4) r &&& ~~~BitVec.ofFin (w := 4) m = 0#4

@[simp] theorem inMask_zero : ∀ r : RegIdx, inMask r 0 ↔ r = 0 := by unfold inMask; decide

@[simp] theorem inMask_full : ∀ r : RegIdx, inMask r 15 ↔ True := by unfold inMask; decide

/-- The FN bits a row does not use are zero, as the decoder asks it (30_encoding.md R84–R86, R88). -/
theorem fn_unused_eq_zero : ∀ fn : BitVec 8,
    (fn &&& 0xFF#8 = 0#8 ↔ fn = 0#8) ∧ (fn &&& 0xFE#8 = 0#8 ↔ fn.extractLsb' 1 7 = 0#7) ∧
    (fn &&& 0xFC#8 = 0#8 ↔ fn.extractLsb' 2 6 = 0#6) ∧ (fn &&& 0xF0#8 = 0#8 ↔ fn.extractLsb' 4 4 = 0#4) := by
  decide

/-- ALG is neither MD5 nor SHA-256 exactly when its upper bit is 1 (30_encoding.md R84). -/
theorem alg_unsupported_iff : ∀ fn : BitVec 8,
    ¬ (fn.extractLsb' 0 2 = 0#2 ∨ fn.extractLsb' 0 2 = 1#2) ↔ fn.getLsbD 1 = true := by
  decide

/-! ### The three answers -/

/-- A word with the row's opcode is illegal: a bit outside the fields the row uses, STRICT without DEC = PAD = 1, or one
destination for both results of DIVREM (30_encoding.md R90). -/
def OpcodeRow.Illegal (row : OpcodeRow) (w : Word) : Prop :=
  w &&& ~~~row.used ≠ 0 ∨
  (row.op = 0x32#8 ∧ w.getLsbD 27 = true ∧ ¬ (w.getLsbD 24 = true ∧ w.getLsbD 26 = true)) ∨
  (row.op = 0x15#8 ∧ w.extractLsb' 8 4 = w.extractLsb' 20 4)

/-- A hash word with ALG 2 or 3 (30_encoding.md R91). -/
def OpcodeRow.Unsupported (row : OpcodeRow) (w : Word) : Prop :=
  (row.op = 0x40#8 ∨ row.op = 0x41#8 ∨ row.op = 0x42#8) ∧ w.getLsbD 25 = true

/-- `r` is what the decoder has to answer for `w`, a word with the row's opcode (30_encoding.md R91). -/
structure OpcodeRow.Answers (row : OpcodeRow) (w : Word) (r : Except ErrKind Instr) : Prop where
  illegal : row.Illegal w → r = .error .illegalCommand
  unsupported : ¬ row.Illegal w → row.Unsupported w → r = .error .unsupportedAlgorithm
  command : ¬ row.Illegal w → ¬ row.Unsupported w → ∃ i, r = .ok i ∧ i.wellFormed = true ∧ encode i = w

section Fields
variable {fn f : BitVec 8} {rc rb ra rd c b a d : RegIdx} {op o : BitVec 8} {row : OpcodeRow} {w : Word}

theorem packWord_and_not_eq_zero :
    packWord fn rc rb ra rd op &&& ~~~packWord f c b a d o = 0 ↔
      ((((fn &&& ~~~f = 0#8 ∧ inMask rc c) ∧ inMask rb b) ∧ inMask ra a) ∧ inMask rd d) ∧ op &&& ~~~o = 0#8 :=
  append_and_not_eq_zero.trans <| and_congr_left' <| append_and_not_eq_zero.trans <| and_congr_left' <|
    append_and_not_eq_zero.trans <| and_congr_left' <| append_and_not_eq_zero.trans <| and_congr_left' <|
    append_and_not_eq_zero

theorem packWord_getLsbD_fn {i : Nat} (hi : i < 8) : (packWord fn rc rb ra rd op).getLsbD (24 + i) = fn.getLsbD i := by
  have h : ((packWord fn rc rb ra rd op).extractLsb' 24 8).getLsbD i = fn.getLsbD i :=
    congrArg (BitVec.getLsbD · i) (fieldFn_packWord ..)
  rwa [BitVec.getLsbD_extractLsb', decide_eq_true hi, Bool.true_and] at h

/-- A word is legal by its fields, in the order in which the decoder asks for them. -/
theorem OpcodeRow.not_illegal_packWord (hu : fieldOp row.used = 255#8) :
    ¬ row.Illegal (packWord fn rc rb ra rd op) ↔
      (row.op = 0x15#8 → rd ≠ rc) ∧ inMask rd (fieldRd row.used) ∧ inMask ra (fieldRa row.used) ∧
      inMask rb (fieldRb row.used) ∧ inMask rc (fieldRc row.used) ∧ fn &&& ~~~fieldFn row.used = 0#8 ∧
      (row.op = 0x32#8 → fn.getLsbD 3 = true → fn.getLsbD 0 = true ∧ fn.getLsbD 2 = true) := by
  have hmask : packWord fn rc rb ra rd op &&& ~~~row.used = 0 ↔ ((((fn &&& ~~~fieldFn row.used = 0#8 ∧
      inMask rc (fieldRc row.used)) ∧ inMask rb (fieldRb row.used)) ∧ inMask ra (fieldRa row.used)) ∧
      inMask rd (fieldRd row.used)) ∧ op &&& ~~~fieldOp row.used = 0#8 := by
    rw [← packWord_and_not_eq_zero, packWord_fields]
  have hop : op &&& ~~~255#8 = 0#8 := by simp
  have hregs : (packWord fn rc rb ra rd op).extractLsb' 8 4 = (packWord fn rc rb ra rd op).extractLsb' 20 4 ↔ rd = rc := by
    rw [← BitVec.toFin_inj, ← fieldRd, ← fieldRc, fieldRd_packWord, fieldRc_packWord]
  rw [OpcodeRow.Illegal, not_or, not_or, ne_eq, not_not, hmask, hu, hregs, packWord_getLsbD_fn (i := 3) (by decide),
    packWord_getLsbD_fn (i := 0) (by decide), packWord_getLsbD_fn (i := 2) (by decide), ← and_assoc (a := row.op = 0x32#8),
    not_and_not_right, and_imp, not_and]
  constructor
  · rintro ⟨⟨⟨⟨⟨⟨hfn, hrc⟩, hrb⟩, hra⟩, hrd⟩, -⟩, hstrict, hne⟩
    exact ⟨hne, hrd, hra, hrb, hrc, hfn, hstrict⟩
  · rintro ⟨hne, hrd, hra, hrb, hrc, hfn, hstrict⟩
    exact ⟨⟨⟨⟨⟨⟨hfn, hrc⟩, hrb⟩, hra⟩, hrd⟩, hop⟩, hstrict, hne⟩

/-- A command without ALG: its row's answers when `p` is what the row asks of a legal word. -/
theorem OpcodeRow.answers_legalOr {p : Prop} [Decidable p] {i : Instr} (hp : ¬ row.Illegal w ↔ p)
    (hs : ¬ row.Unsupported w) (hi : p → i.wellFormed = true ∧ encode i = w) : row.Answers w (legalOr p i) where
  illegal h := legalOr_eq_error.mpr ⟨fun hlegal => hp.mpr hlegal h, rfl⟩
  unsupported _ h := absurd h hs
  command h _ := ⟨i, legalOr_eq_ok.mpr ⟨hp.mp h, rfl⟩, hi (hp.mp h)⟩

/-- The answers of the row of a hash command `mk`. -/
theorem OpcodeRow.answers_decodeHash {mk : BitVec 2 → Instr} (hw : w = packWord fn rc rb ra rd op)
    (hl : ¬ row.Illegal w ↔ rd = 0 ∧ ra = 0 ∧ rb = 0 ∧ rc = 0 ∧ fn.extractLsb' 2 6 = 0)
    (hs : row.Unsupported w ↔ fn.getLsbD 1 = true) (hwf : ∀ alg, alg = 0#2 ∨ alg = 1#2 → (mk alg).wellFormed = true)
    (henc : ∀ alg, encode (mk alg) = packWord (hashFn alg) 0 0 0 0 op) :
    row.Answers w (decodeHash mk rd ra rb rc fn) where
  illegal h := if_pos fun hlegal => hl.mpr hlegal h
  unsupported h hn := by
    rw [decodeHash, if_neg (not_not.mpr (hl.mp h)), if_neg ((alg_unsupported_iff fn).mpr (hs.mp hn))]
  command h hn := by
    have halg := not_not.mp (mt (alg_unsupported_iff fn).mp (mt hs.mpr hn))
    refine ⟨mk (fn.extractLsb' 0 2), ?_, hwf _ halg, ?_⟩
    · rw [decodeHash, if_neg (not_not.mpr (hl.mp h)), if_pos halg]
    · obtain ⟨rfl, rfl, rfl, rfl, hzero⟩ := hl.mp h
      rw [henc, hashFn_of_bits fn hzero, hw]

/-! ### The opcode map, row by row -/

/-- `r` is what the decoder has to answer for `w`, a word with opcode `op`, when its row is one of `rows` or none. -/
structure Lookup (rows : List OpcodeRow) (op : BitVec 8) (w : Word) (r : Except ErrKind Instr) : Prop where
  found : ∀ row ∈ rows, op = row.op → row.Answers w r
  missing : (∀ row ∈ rows, op ≠ row.op) → r = .error .illegalCommand

theorem Lookup.nil : Lookup [] op w (.error .illegalCommand) where
  found _ h := absurd h List.not_mem_nil
  missing _ := rfl

/-- One test of the decoder's chain against the first row. -/
theorem Lookup.cons {rows : List OpcodeRow} {k : BitVec 8} {used : Word} {x y : Except ErrKind Instr}
    (hk : ∀ row ∈ rows, k ≠ row.op) (hrest : Lookup rows op w y) (hrow : op = k → OpcodeRow.Answers ⟨k, used⟩ w x) :
    Lookup (⟨k, used⟩ :: rows) op w (if op = k then x else y) := by
  by_cases h : op = k
  · rw [if_pos h]
    refine ⟨List.forall_mem_cons.mpr ⟨hrow, fun row hmem he => absurd (h ▸ he) (hk row hmem)⟩, fun hn => ?_⟩
    exact absurd h (hn _ List.mem_cons_self)
  · rw [if_neg h]
    refine ⟨List.forall_mem_cons.mpr ⟨fun he => absurd he h, hrest.found⟩, fun hn => ?_⟩
    exact hrest.missing fun row hmem => hn row (List.mem_cons_of_mem _ hmem)

/-- The decoder looks the opcode up in the opcode map. The rows stand in reverse: after the reserved opcodes the three hash
commands, then AESCRYPT, then the commands whose row only asks for zeros (and DIVREM for two destinations). -/
theorem decodeFields_lookup : Lookup opcodeMap op (packWord fn rc rb ra rd op) (decodeFields op rd ra rb rc fn) := by
  obtain ⟨hFF, hFE, hFC, hF0⟩ := fn_unused_eq_zero fn
  unfold decodeFields decodeAescrypt opcodeMap
  iterate 26 refine Lookup.cons (by decide) ?_ ?_
  · exact Lookup.nil
  iterate 3
    · rintro rfl
      refine OpcodeRow.answers_decodeHash rfl ?_ ?_ (fun _ => wellFormed_hinit.mpr) fun _ => rfl
      · rw [OpcodeRow.not_illegal_packWord rfl]
        simp [fieldFn, fieldRc, fieldRb, fieldRa, fieldRd, hFC]
      · rw [OpcodeRow.Unsupported, packWord_getLsbD_fn (i := 1) (by decide)]
        simp
  · rintro rfl
    refine OpcodeRow.answers_legalOr ?_ (fun h => absurd h.1 (by decide)) ?_
    · rw [OpcodeRow.not_illegal_packWord rfl]
      simp [fieldFn, fieldRc, fieldRb, fieldRa, fieldRd, hF0]
    · rintro ⟨rfl, rfl, rfl, rfl, hzero, hstrict⟩
      exact ⟨wellFormed_aescrypt.mpr hstrict, by rw [encode, aescryptFn_of_bits fn hzero]⟩
  all_goals
    rintro rfl
    refine OpcodeRow.answers_legalOr ?_ (fun h => absurd h.1 (by decide)) fun h => ?_
    · rw [OpcodeRow.not_illegal_packWord rfl]
      simp [fieldFn, fieldRc, fieldRb, fieldRa, fieldRd, hFF, hFE]
    · simp [-BitVec.getLsbD_eq_getElem, Instr.wellFormed, encode, h, rsaencFn_of_bits]

end Fields

theorem decode_lookup (w : Word) : Lookup opcodeMap (w.extractLsb' 0 8) w (decode w) := by
  have h := decodeFields_lookup (fn := fieldFn w) (rc := fieldRc w) (rb := fieldRb w) (ra := fieldRa w) (rd := fieldRd w)
    (op := fieldOp w)
  rwa [packWord_fields] at h

/-- The reserved opcodes are those without a row (30_encoding.md R88, R89). -/
theorem reservedOpcode_iff : ∀ op : BitVec 8, reservedOpcode op ↔ ∀ row ∈ opcodeMap, op ≠ row.op := by
  unfold reservedOpcode
  decide

/-- Settles O19: a word that decodes to a command has a row, and of the row's three answers only the last is a command. -/
theorem encodeAfterDecode : Obligations.EncodeAfterDecode := by
  intro w i hi
  obtain ⟨found, missing⟩ := decode_lookup w
  by_cases hres : reservedOpcode (w.extractLsb' 0 8)
  · cases hi.symm.trans (missing ((reservedOpcode_iff _).mp hres))
  obtain ⟨row, hmem, hop⟩ : ∃ row ∈ opcodeMap, w.extractLsb' 0 8 = row.op := by
    simpa [reservedOpcode_iff] using hres
  obtain ⟨illegal, unsupported, command⟩ := found row hmem hop
  by_cases hl : row.Illegal w
  · cases hi.symm.trans (illegal hl)
  by_cases hs : row.Unsupported w
  · cases hi.symm.trans (unsupported hl hs)
  obtain ⟨j, hj, hencodes⟩ := command hl hs
  cases hi.symm.trans hj
  exact hencodes

/-- A pending word that decodes to an error completes with it and changes nothing else (60_exceptions.md R230, R233). -/
theorem engineStep_of_decode_error {w : Word} {e : ErrKind} (hd : decode w = .error e) {s : Machine.State}
    (hp : s.pending = true) (hw : s.lcmd = w) : Machine.engineStep s = .next (Machine.complete (some e) s) := by
  rw [Machine.engineStep, if_pos hp, hw, hd]

/-- Settles O20: a reserved opcode has no row, and the other words get the three answers of their row. -/
theorem illegalWords : Obligations.IllegalWords := by
  refine ⟨fun w hres => ?_, fun w row hmem hop => ?_⟩
  · have hd := (decode_lookup w).missing ((reservedOpcode_iff _).mp hres)
    exact ⟨hd, fun s => engineStep_of_decode_error hd⟩
  · obtain ⟨illegal, unsupported, command⟩ := (decode_lookup w).found row hmem hop
    refine ⟨fun hl => ?_, fun hl hs => ?_, fun hl hs => ?_⟩
    · exact ⟨illegal hl, fun s => engineStep_of_decode_error (illegal hl)⟩
    · exact ⟨unsupported hl hs, fun s => engineStep_of_decode_error (unsupported hl hs)⟩
    · obtain ⟨i, hi, -, he⟩ := command hl hs
      exact ⟨i, hi, he⟩

end Sys2Proof
end

section
/-! PROOF. Moving BigInts to and from DMEM (O32, O33, O34, O35, O36): what LDB and LDU make of the bytes they read, and the
bytes STB and STU write, each byte as a quotient of the register's value. -/

namespace Sys2Proof.Machine

/-! ### Ranges of integers -/

theorem natAbs_lt_two_pow_iff {v : Int} {k : Nat} : v.natAbs < 2 ^ k ↔ -(2 : Int) ^ k < v ∧ v < (2 : Int) ^ k := by
  rw [← abs_lt, Int.abs_eq_natAbs]
  exact_mod_cast Iff.rfl

/-- The immediate is ARG0 as a two's-complement number (30_encoding.md R87). -/
theorem sext32_eq_ite (w : Word) :
    sext32 w = if w.toNat < 2 ^ 31 then (w.toNat : Int) else w.toNat - 2 ^ 32 := by
  rw [sext32, BitVec.toInt_eq_toNat_cond]
  exact if_congr (by omega) rfl rfl

/-- The first byte tells the sign (40_bigint.md R107). -/
theorem tcDecode_eq_ite_getD (bs : List Byte) :
    tcDecode bs = if 128 ≤ (bs.getD 0 0).toNat then (os2ip bs : Int) - 256 ^ bs.length else os2ip bs := by
  cases bs with
  | nil => rfl
  | cons x xs => rfl

/-- At most 512 bytes stay within the capacity, read as a signed number (40_bigint.md R99). -/
theorem fits_tcDecode {bs : List Byte} (h : bs.length ≤ 512) : fits (tcDecode bs) := by
  cases bs with
  | nil => exact Nat.two_pow_pos _
  | cons x xs =>
    obtain ⟨hlo, hhi⟩ := tcDecode_bounds (x :: xs) xs.length rfl
    rw [List.length_cons] at h
    have hlt : (2 : Int) ^ (8 * xs.length + 7) < 2 ^ 4096 := pow_lt_pow_right₀ (by decide) (by omega)
    exact fits_iff.mpr (natAbs_lt_two_pow_iff.mpr ⟨(neg_lt_neg hlt).trans_le hlo, hhi.trans hlt⟩)

/-- At most 512 bytes stay within the capacity, read as an unsigned number (40_bigint.md R100). -/
theorem fits_os2ip {bs : List Byte} (h : bs.length ≤ 512) : fits (os2ip bs) := by
  have hlt : os2ip bs < 2 ^ (8 * bs.length) := by
    rw [pow_mul]
    exact os2ip_lt bs
  rw [fits_iff, Int.natAbs_natCast]
  exact hlt.trans_le (pow_le_pow_right₀ (by decide) (by omega))

/-- `tcLength v` is the least number of bytes whose two's-complement range holds v (40_bigint.md R107). -/
theorem tcLength_le_iff_of_pos (v : Int) {n : Nat} (hn : 1 ≤ n) :
    tcLength v ≤ n ↔ -(2 : Int) ^ (8 * n - 1) ≤ v ∧ v < (2 : Int) ^ (8 * n - 1) := by
  obtain ⟨k, rfl⟩ : ∃ k, n = k + 1 := ⟨n - 1, by omega⟩
  exact tcLength_le_iff v k

/-- A register within the capacity takes at most 513 bytes (40_bigint.md R101). -/
theorem tcLength_le_of_natAbs_lt {v : Int} (h : v.natAbs < 2 ^ 4096) : tcLength v ≤ 513 := by
  obtain ⟨hlo, hhi⟩ := natAbs_lt_two_pow_iff.mp h
  have hle : (2 : Int) ^ 4096 ≤ 2 ^ (8 * 512 + 7) := pow_le_pow_right₀ (by decide) (by omega)
  exact (tcLength_le_iff v 512).mpr ⟨(neg_le_neg hle).trans hlo.le, hhi.trans_le hle⟩

/-! ### The bytes of an integer -/

/-- Byte j of v mod 256^n is byte j of v, for the n bytes that are kept. -/
theorem ofNat_emod_div_pow (v : Int) {n j : Nat} (hj : j < n) :
    BitVec.ofNat 8 ((v % 256 ^ n).toNat / 256 ^ j) = BitVec.ofInt 8 (v / 256 ^ j) := by
  have hpow : (256 : Int) ^ n = 256 ^ j * (256 * 256 ^ (n - 1 - j)) := by
    rw [← pow_succ', ← pow_add]
    congr 1; omega
  have hdiv : v / 256 ^ j = v % 256 ^ n / 256 ^ j + 256 * (256 ^ (n - 1 - j) * (v / 256 ^ n)) := by
    conv_lhs => rw [← Int.emod_add_mul_ediv v (256 ^ n)]
    rw [← mul_assoc, ← Int.add_mul_ediv_left _ _ (by positivity), ← mul_assoc, ← hpow]
  have hcast : (((v % 256 ^ n).toNat / 256 ^ j : Nat) : Int) = v % 256 ^ n / 256 ^ j := by
    rw [Int.natCast_ediv, Int.toNat_of_nonneg (Int.emod_nonneg v (by positivity)), Nat.cast_pow, Nat.cast_ofNat]
  apply BitVec.eq_of_toNat_eq
  rw [← BitVec.ofInt_natCast, hcast, hdiv, BitVec.toNat_ofInt, BitVec.toNat_ofInt]
  exact congrArg Int.toNat (Int.add_mul_emod_self_left _ 256 _).symm

/-- The n-byte big-endian string of v mod 256^n, byte by byte (00_scope.md R11). -/
theorem i2osp_emod (v : Int) (n : Nat) :
    i2osp (v % 256 ^ n).toNat n = (List.range n).map fun i => BitVec.ofInt 8 (v / 256 ^ (n - 1 - i)) := by
  refine List.ext_getElem (by simp) fun i hi _ => ?_
  rw [i2osp_length] at hi
  have hbyte := leBytes_getElem? (v % 256 ^ n).toNat n (n - 1 - i)
  rw [if_pos (by omega), ofNat_emod_div_pow v (by omega)] at hbyte
  simp only [i2osp, List.getElem_reverse, leBytes_length, List.getElem_map, List.getElem_range]
  exact (List.getElem_eq_iff _).mpr hbyte

/-! ### Results that may not fit -/

/-- The two outcomes of a check, in one next state. -/
theorem eq_next_ite {o : Host.Outcome State Fault Refusal} {c : Prop} [Decidable c] {t u : State}
    (ht : c → o = .next t) (hu : ¬ c → o = .next u) : o = .next (if c then t else u) := by
  split
  · exact ht ‹_›
  · exact hu ‹_›

section Loads
variable {s : State} {bs : List Byte} {rd : RegIdx} (hin : inRange s.larg.arg0 s.larg.arg1.toNat)
  (hr : s.dmem.readBytes? s.larg.arg0.toNat s.larg.arg1.toNat = some bs)
include hin hr

/-- LDB of bytes that all have a value (40_bigint.md R99). -/
theorem exec_ldb_of_read : exec (.ldb rd) s =
    .next (if (tcDecode bs).natAbs < 2 ^ 4096 then complete none (s.setB rd (tcDecode bs))
      else complete (some .capacity) s) :=
  eq_next_ite (fun h => execLdb_next.mpr (.inl ⟨bs, hin, hr, fits_iff.mpr h, rfl⟩))
    fun h => execLdb_next.mpr (.inr (.inr ⟨bs, hin, hr, mt fits_iff.mp h, rfl⟩))

/-- LDU of bytes that all have a value (40_bigint.md R100). -/
theorem exec_ldu_of_read : exec (.ldu rd) s =
    .next (if (os2ip bs : Int).natAbs < 2 ^ 4096 then complete none (s.setB rd (os2ip bs))
      else complete (some .capacity) s) :=
  eq_next_ite (fun h => execLdu_next.mpr (.inl ⟨bs, hin, hr, fits_iff.mpr h, rfl⟩))
    fun h => execLdu_next.mpr (.inr (.inr ⟨bs, hin, hr, mt fits_iff.mp h, rfl⟩))

end Loads

/-! ### The statements -/

/-- Settles O32: the immediate is `sext32_eq_ite`, the register law `State.setB_getB`. -/
theorem nopLdiMov : Obligations.NopLdiMov := by
  refine ⟨decode_commandWord_eq_ok 0x00 0 0 0 0 0 rfl rfl, fun s => execNop_next.mpr rfl, fun rd s => ⟨?_, ?_⟩,
    fun rd ra s => ⟨decode_commandWord_eq_ok 0x02 rd ra 0 0 0 rfl rfl, execMov_next.mpr rfl⟩, State.setB_getB⟩
  · exact decode_commandWord_eq_ok 0x01 rd 0 0 0 0 rfl rfl
  · rw [← sext32_eq_ite]
    exact execLdi_next.mpr rfl

/-- Settles O33: the sum of the statement is OS2IP, and its signed reading tc_decode. -/
theorem loadFromBytes : Obligations.LoadFromBytes := by
  refine fun rd s => ⟨decode_commandWord_eq_ok 0x03 rd 0 0 0 0 rfl rfl, decode_commandWord_eq_ok 0x04 rd 0 0 0 0 rfl rfl,
    fun hout => ⟨execLdb_next.mpr (.inr (.inl ⟨hout, rfl⟩)), execLdu_next.mpr (.inr (.inl ⟨hout, rfl⟩))⟩,
    fun bs hin hlen hbs => ?_⟩
  intro n u v
  have hu : u = os2ip bs := by
    rw [os2ip_eq_sum]
    push_cast
    rfl
  have hv : v = tcDecode bs := by
    rw [tcDecode_eq_ite_getD, ← hu]
  rw [← hlen] at hin
  have hr := hbs.readBytes? hlen
  rw [hu, hv]
  exact ⟨exec_ldb_of_read hin hr, exec_ldu_of_read hin hr, fun h512 =>
    ⟨fits_iff.mp (fits_tcDecode h512), fits_iff.mp (fits_os2ip h512)⟩⟩

/-- Settles O34: the length is `tcLength`, and the bytes of tc_encode are `i2osp_emod`'s. -/
theorem storeTwosComplement : Obligations.StoreTwosComplement := by
  refine fun ra s => ⟨decode_commandWord_eq_ok 0x05 0 ra 0 0 0 rfl rfl, ?_⟩
  have hpos : 1 ≤ tcLength (s.getB ra) := tcLength_pos _
  obtain ⟨hlo, hhi⟩ := (tcLength_le_iff_of_pos _ hpos).mp le_rfl
  refine ⟨tcLength (s.getB ra), hpos, hlo, hhi, fun k hk hlt hfit => ?_, tcLength_le_of_natAbs_lt,
    fun hin => ⟨_, execStb_next.mpr (.inl ⟨hin, rfl⟩), ?_⟩, fun hout => execStb_next.mpr (.inr ⟨hout, rfl⟩)⟩
  · exact absurd ((tcLength_le_iff_of_pos _ hk).mpr hfit) hlt.not_ge
  · rw [← i2osp_emod]
    exact Memory.stores_writeBytes _ _ _

/-- Settles O35: a value below 256^ARG1 is its own residue, so its bytes are `i2osp_emod`'s. -/
theorem storeUnsigned : Obligations.StoreUnsigned := by
  refine fun ra s => ⟨decode_commandWord_eq_ok 0x06 0 ra 0 0 0 rfl rfl, fun hin h0 hlt => ?_, fun herr => ?_⟩
  · refine ⟨s.dmem.writeBytes s.larg.arg2.toNat (i2osp (s.getB ra).toNat s.larg.arg1.toNat), ?_, ?_⟩
    · refine execStu_next.mpr (.inl ⟨hin, ⟨h0, hlt⟩, ?_⟩)
      rw [State.setResult, BitVec.ofNat_toNat, BitVec.setWidth_eq]
      rfl
    · rw [← i2osp_emod, Int.emod_eq_of_lt h0 hlt]
      exact Memory.stores_writeBytes _ _ _
  · refine execStu_next.mpr (.inr ⟨?_, rfl⟩)
    rintro ⟨hin, h0, hlt⟩
    rcases herr with hout | hneg | hge
    · exact hout hin
    · exact h0.not_gt hneg
    · exact hlt.not_ge hge

/-- Settles O36: LDB reads the string just written, and tc_decode undoes tc_encode. -/
theorem twosComplementRoundTrip : Obligations.TwosComplementRoundTrip := by
  intro ra rd s hfit hin
  have hlen := tcLength_le_of_natAbs_lt hfit
  have hstb : inRange s.larg.arg2 (tcLength (s.getB ra)) := (Nat.add_le_add_left hlen _).trans hin
  refine ⟨_, execStb_next.mpr (.inl ⟨hstb, rfl⟩), rfl, fun args haddr hresult => ?_⟩
  have hcount : args.arg1.toNat = (tcEncode (s.getB ra)).length := by
    rw [hresult, tcEncode_length]
    exact Nat.mod_eq_of_lt (by omega)
  refine ⟨_, execLdb_next.mpr (.inl ⟨tcEncode (s.getB ra), ?_, ?_, ?_, rfl⟩), rfl, ?_⟩
  · change args.arg0.toNat + args.arg1.toNat ≤ Config.dmemSize
    rwa [haddr, hcount, tcEncode_length]
  · change (s.dmem.writeBytes s.larg.arg2.toNat (tcEncode (s.getB ra))).readBytes? args.arg0.toNat args.arg1.toNat = _
    rw [haddr, hcount]
    exact Memory.readBytes?_writeBytes_same _ _ _
  · rw [tcDecode_tcEncode]
    exact fits_iff.mpr hfit
  · rw [complete_getB, State.setB_getB, if_pos rfl, tcDecode_tcEncode]

end Sys2Proof.Machine
end

section
/-! PROOF. Arithmetic, modular and inspection commands (O37, O38, O39, O40, O41, O42): each command's `_next` lemma, with the
value it writes as Laws/Modular.lean and Laws/Bytes.lean characterise it. -/

namespace Sys2Proof.Machine

/-- The write of an exact result, or CAPACITY (40_bigint.md R113). -/
theorem finish_writeFitting (rd : RegIdx) (v : Int) (s : State) :
    finish s (writeFitting rd v s) =
      .next (if v.natAbs < 2 ^ 4096 then complete none (s.setB rd v) else complete (some .capacity) s) :=
  eq_next_ite (fun h => finish_writeFitting_next.mpr (.inl ⟨fits_iff.mpr h, rfl⟩))
    fun h => finish_writeFitting_next.mpr (.inr ⟨mt fits_iff.mp h, rfl⟩)

/-- A residue of a modulus within the capacity is within it. -/
theorem natAbs_emod_lt_two_pow (a : Int) {b : Int} {k : Nat} (hb : 0 < b) (hk : b < 2 ^ k) : (a % b).natAbs < 2 ^ k := by
  have h0 := Int.emod_nonneg a hb.ne'
  have h1 := (Int.emod_lt_of_pos a hb).trans hk
  exact natAbs_lt_two_pow_iff.mpr ⟨lt_of_lt_of_le (by simp) h0, h1⟩

/-- Inverses are unique in [0, m) (40_bigint.md R124). -/
theorem inverse_unique {a m x y : Int} (hx : 0 ≤ x ∧ x < m) (hy : 0 ≤ y ∧ y < m) (hax : a * x ≡ 1 [ZMOD m])
    (hay : a * y ≡ 1 [ZMOD m]) : x = y := by
  have hxy : x ≡ y [ZMOD m] :=
    calc x = x * 1 := (mul_one x).symm
      _ ≡ x * (a * y) [ZMOD m] := hay.symm.mul_left x
      _ = y * (a * x) := by ring
      _ ≡ y * 1 [ZMOD m] := hax.mul_left y
      _ = y := mul_one y
  calc x = x % m := (Int.emod_eq_of_lt hx.1 hx.2).symm
    _ = y % m := hxy
    _ = y := Int.emod_eq_of_lt hy.1 hy.2

/-- RD = RC is no DIVREM (30_encoding.md R90). -/
theorem decode_divrem_same (rd ra rb : RegIdx) : decode (commandWord 0x15 rd ra rb rd 0) = .error .illegalCommand := by
  have hill : ¬ (rd ≠ rd ∧ (0 : BitVec 8) = 0) := fun h => h.1 rfl
  exact (decode_commandWord 0x15 rd ra rb rd 0).trans (if_neg hill)

/-- Settles O37: each command is one `writeFitting`. -/
theorem addSubMul : Obligations.AddSubMul := by
  refine fun rd ra rb s => ⟨decode_commandWord_eq_ok 0x10 rd ra rb 0 0 rfl rfl,
    decode_commandWord_eq_ok 0x11 rd ra rb 0 0 rfl rfl, decode_commandWord_eq_ok 0x12 rd ra rb 0 0 rfl rfl, ?_, ?_, ?_⟩
  · exact finish_writeFitting rd (s.getB ra + s.getB rb) s
  · exact finish_writeFitting rd (s.getB ra - s.getB rb) s
  · exact finish_writeFitting rd (s.getB ra * s.getB rb) s

/-- Settles O38: the quotient and remainder of R104 are the truncating ones. -/
theorem divRemDivrem : Obligations.DivRemDivrem := by
  refine fun rd ra rb rc s => ⟨decode_commandWord_eq_ok 0x13 rd ra rb 0 0 rfl rfl,
    decode_commandWord_eq_ok 0x14 rd ra rb 0 0 rfl rfl,
    fun hne => decode_commandWord_eq_ok 0x15 rd ra rb rc 0 (bne_iff_ne.mpr hne) rfl, ?_, fun hb => ?_, fun hb => ?_⟩
  · rintro rfl
    exact decode_divrem_same rd ra rb
  · rw [← tdivQuot_eq_tdiv, ← tdivRem_eq_tmod]
    exact ⟨execDiv_next.mpr (.inl ⟨hb, rfl⟩), execRem_next.mpr (.inl ⟨hb, rfl⟩),
      fun hne => execDivrem_next.mpr (.inl ⟨hne, hb, rfl⟩)⟩
  · exact ⟨execDiv_next.mpr (.inr ⟨hb, rfl⟩), execRem_next.mpr (.inr ⟨hb, rfl⟩),
      fun hne => execDivrem_next.mpr (.inr (.inr ⟨hne, hb, rfl⟩))⟩

/-- Settles O39: MOD writes `modop`, which is the residue when the modulus is positive. -/
theorem modOperation : Obligations.ModOperation := by
  intro rd ra rb s
  have writes (hb : s.getB rb ≠ 0) (hfit : (modop (s.getB ra) (s.getB rb)).natAbs < 2 ^ 4096) :
      exec (.mod rd ra rb) s = .next (complete none (s.setB rd (modop (s.getB ra) (s.getB rb)))) :=
    execMod_next.mpr (.inl ⟨hb, fits_iff.mpr hfit, rfl⟩)
  refine ⟨decode_commandWord_eq_ok 0x16 rd ra rb 0 0 rfl rfl, ?_, fun hb hcap => ?_,
    fun hb => execMod_next.mpr (.inr (.inl ⟨hb, rfl⟩))⟩
  · rwa [modop_eq_ite_tmod] at writes
  · rw [modop_eq_emod _ hb] at writes
    exact writes hb.ne' (natAbs_emod_lt_two_pow _ hb hcap)

/-- Settles O40: the square-and-multiply loop computes the power (`modPow_eq`). -/
theorem modularExponentiation : Obligations.ModularExponentiation := by
  refine fun rd ra rb rc s => ⟨decode_commandWord_eq_ok 0x17 rd ra rb rc 0 rfl rfl, fun hm he => ?_, fun herr => ?_⟩
  · rw [← modPow_eq _ _ hm]
    exact execModpow_next.mpr (.inl ⟨hm, he, rfl⟩)
  · exact execModpow_next.mpr (.inr ⟨by omega, rfl⟩)

/-- Settles O41: of the two cases of `modInverse_spec` the greatest common divisor tells which one holds. -/
theorem modularInverse : Obligations.ModularInverse := by
  refine fun rd ra rb s => ⟨decode_commandWord_eq_ok 0x18 rd ra rb 0 0 rfl rfl,
    fun hm => execModinv_next.mpr (.inr (.inr ⟨hm.not_gt, rfl⟩)), fun hm hgcd => ?_, fun hm hgcd => ?_,
    fun _ x y hx0 hxm hax hy0 hym hay => inverse_unique ⟨hx0, hxm⟩ ⟨hy0, hym⟩ hax hay⟩
  all_goals rw [Int.gcd_emod] at hgcd
  · obtain ⟨hnone, -⟩ | ⟨_, -, hone, -⟩ := modInverse_spec (s.getB ra) hm
    · exact execModinv_next.mpr (.inl ⟨hm, hnone, rfl⟩)
    · exact absurd hone hgcd
  · obtain ⟨-, hne⟩ | ⟨x, hsome, -, hx0, hxm, hax⟩ := modInverse_spec (s.getB ra) hm
    · exact absurd hgcd hne
    · exact ⟨x, hx0, hxm, hax, execModinv_next.mpr (.inr (.inl ⟨x, hm, hsome, rfl⟩))⟩

/-- RESULT of CMP as a word (40_bigint.md R126). -/
theorem ofNat_cmpResult (x y : Int) :
    BitVec.ofNat 32 (cmpResult x y) = if x < y then 0xFFFFFFFF else if x = y then 0 else 1 := by
  rw [cmpResult, apply_ite (BitVec.ofNat 32), apply_ite (BitVec.ofNat 32)]
  rfl

/-- Settles O42: `bitlen` is the least n with |B[RA]| < 2^n. -/
theorem compareAndBitLength : Obligations.CompareAndBitLength := by
  refine ⟨fun ra rb s => ⟨decode_commandWord_eq_ok 0x19 0 ra rb 0 0 rfl rfl, ?_⟩,
    fun ra s => ⟨decode_commandWord_eq_ok 0x1A 0 ra 0 0 0 rfl rfl, bitlen (s.getB ra).natAbs, lt_two_pow_bitlen _,
      fun k => (bitlen_le_iff _ k).mpr, execBitlen_next.mpr rfl⟩⟩
  rw [← ofNat_cmpResult]
  exact execCmp_next.mpr rfl

end Sys2Proof.Machine
end

section
/-! PROOF. The RSA commands (O43, O44, O45, O46): each outcome is a case of `execRsaenc_next` or `execRsadec_next` with the
key length known; the round trip runs O44 on the state O43 leaves, by Fermat's little theorem for the two primes. -/

namespace Sys2Proof.Machine

/-! ### Blocks as integers -/

/-- The bytes RSAENC and RSADEC make of a result: k bytes of value a^e mod n (41_rsa.md R141). -/
theorem os2ip_i2osp_modPow (a : Int) (e : Nat) {n : Int} {k : Nat} (hn : 0 < n) (hk : n < 256 ^ k) :
    (os2ip (i2osp (modPow a e n).toNat k) : Int) = a ^ e % n := by
  have hval : ((modPow a e n).toNat : Int) = modPow a e n := Int.toNat_of_nonneg (modPow_nonneg a e n)
  have hlt : (modPow a e n).toNat < 256 ^ k := by
    zify
    rw [hval]
    exact (modPow_lt a e hn).trans hk
  rw [os2ip_i2osp, Nat.mod_eq_of_lt hlt, hval, modPow_eq a e hn]

/-- k bytes of value a^e mod n are the bytes RSADEC unpads. -/
theorem i2osp_modPow_eq {a n : Int} {e k : Nat} {bs : List Byte} (hn : 0 < n) (hk : n < 256 ^ k) (hlen : bs.length = k)
    (hval : (os2ip bs : Int) = a ^ e % n) : i2osp (modPow a e n).toNat k = bs := by
  refine os2ip_injective (by rw [i2osp_length, hlen]) ?_
  exact_mod_cast (os2ip_i2osp_modPow a e hn hk).trans hval.symm

/-- The block of a message and its padding string has k bytes (41_rsa.md R138). -/
theorem pkcs1Block_length {ps msg : List Byte} {k : Nat} (hlen : msg.length + 11 ≤ k)
    (hps : ps.length = k - msg.length - 3) : (pkcs1Block ps msg).length = k := by
  simp only [pkcs1Block, List.length_append, List.length_cons, List.length_nil]
  omega

/-- A block begins with 0x00, so it is below every modulus of its length (41_rsa.md R138). -/
theorem os2ip_pkcs1Block_lt {ps msg : List Byte} {n : Int} (hn : 256 ^ ((pkcs1Block ps msg).length - 1) ≤ n) :
    (os2ip (pkcs1Block ps msg) : Int) < n := by
  have hzero : os2ip (pkcs1Block ps msg) = os2ip (0x02 :: ps ++ [0x00] ++ msg) := by simp [pkcs1Block, os2ip_cons]
  have hlt := os2ip_lt (0x02 :: ps ++ [0x00] ++ msg)
  rw [← hzero] at hlt
  exact lt_of_lt_of_le (by exact_mod_cast hlt) hn

/-! ### The two commands (41_rsa.md R140, R142, R146) -/

/-- RSAENC has encrypted the block of `ps` and `msg`: k bytes of value EM^e mod n at LARG2, k in RESULT, `draws` draws taken,
and nothing else changed (41_rsa.md R140). -/
def Encrypts (ra rb : RegIdx) (pssrc : Bool) (s : State) (k : Nat) (msg ps : List Byte) (draws : Nat) : Prop :=
  ∃ (c : List Byte) (m : Memory), c.length = k ∧
    (os2ip c : Int) = (os2ip (pkcs1Block ps msg) : Int) ^ (s.getB rb).toNat % s.getB ra ∧
    Memory.Stores s.dmem m s.larg.arg2.toNat c ∧
    exec (.rsaenc ra rb pssrc) s =
      .next (complete none { s with dmem := m, result := BitVec.ofNat 32 k, rng := s.rng + draws })

/-- RSAENC of a message with a padding string stores k bytes of value EM^e mod n (41_rsa.md R140). -/
theorem exec_rsaenc_encrypts {ra rb : RegIdx} {pssrc : Bool} {s : State} {k draws : Nat} {msg ps : List Byte}
    (hk : 0 < k) (hlo : 256 ^ (k - 1) ≤ s.getB ra) (hhi : s.getB ra < 256 ^ k) (he : 0 ≤ s.getB rb)
    (harg : s.larg.arg1.toNat = msg.length) (hlen : msg.length + 11 ≤ k) (hin : inDmem s.larg.arg0.toNat msg.length)
    (hdst : inDmem s.larg.arg2.toNat k) (hmsg : s.holds s.larg.arg0.toNat msg)
    (hps : paddingString pssrc s (k - msg.length - 3) = .ok (ps, s.rng + draws)) :
    Encrypts ra rb pssrc s k msg ps draws := by
  have hn : 0 < s.getB ra := pos_of_pow_le hlo
  obtain rfl := keyLen_eq hk hlo hhi
  rw [← harg] at hlen hin hps
  exact ⟨_, _, i2osp_length _ _, os2ip_i2osp_modPow _ _ hn hhi, Memory.stores_writeBytes _ _ _,
    execRsaenc_next.mpr (.inl ⟨(ps, s.rng + draws), msg, ⟨hn, he⟩, ⟨hin, hdst⟩, hlen, hps, hmsg.readBytes? harg,
      rfl⟩)⟩

/-- The host's padding string, nonzero and in DMEM (41_rsa.md R139). -/
theorem paddingString_host {s : State} {ps : List Byte} {n : Nat} (hlen : ps.length = n) (hnz : ∀ x ∈ ps, x ≠ 0x00)
    (hin : inDmem s.larg.arg3.toNat ps.length) (hps : s.holds s.larg.arg3.toNat ps) :
    paddingString true s n = .ok (ps, s.rng) :=
  paddingString_eq_ok.mpr (.inr ⟨rfl, hlen ▸ hin, hps.readBytes? hlen.symm, hnz, rfl⟩)

/-- The RNG's padding string (41_rsa.md R139). -/
theorem paddingString_drawn (s : State) (n : Nat) : paddingString false s n = .ok (drawBytes s.rng n, s.rng + n) :=
  paddingString_eq_ok.mpr (.inl ⟨rfl, rfl⟩)

/-- Settles O43: the two sources of the padding string, both nonzero, in `exec_rsaenc_encrypts`. -/
theorem rsaEncrypt : Obligations.RsaEncrypt := by
  intro ra rb s k msg hlo hhi he harg hlen hin hdst hmsg
  have encrypts {pssrc : Bool} {ps : List Byte} {draws : Nat} :=
    exec_rsaenc_encrypts (pssrc := pssrc) (ps := ps) (draws := draws) (by omega) hlo hhi he harg hlen hin hdst hmsg
  refine ⟨fun ps hpl hnz hpin hpad => encrypts (paddingString_host hpl hnz hpin hpad),
    drawBytes s.rng (k - msg.length - 3), drawBytes_length _ _, drawBytes_ne_zero _ _, encrypts ?_⟩
  rw [drawBytes_length]
  exact paddingString_drawn s _

/-- Settles O44: the k bytes of the statement are the ones RSADEC unpads, and `pkcs1Unpad` has the two cases. -/
theorem rsaDecrypt : Obligations.RsaDecrypt := by
  intro ra rb s k c em hk hlo hhi he harg hin hdst hc hlen hval
  have hn : 0 < s.getB ra := pos_of_pow_le hlo
  have hem := i2osp_modPow_eq hn hhi hlen hval
  obtain rfl := keyLen_eq hk hlo hhi
  rw [← harg] at hin
  have hr := hc.readBytes? harg
  refine ⟨fun ty xs msg hblock hty hxs h8 => ?_, fun hno => ?_⟩
  · refine ⟨_, Memory.stores_writeBytes _ _ _,
      execRsadec_next.mpr (.inl ⟨c, msg, ⟨hn, he⟩, ⟨hin, hdst⟩, hr, ?_, rfl⟩)⟩
    rw [hem, hblock]
    exact pkcs1Unpad_block hty hxs h8
  · refine execRsadec_next.mpr (.inr (.inr (.inr ⟨c, ⟨hn, he⟩, ⟨hin, hdst⟩, hr, ?_, rfl⟩)))
    rw [hem]
    exact pkcs1Unpad_eq_none hno

/-- Settles O45: each error is the case of `execRsaenc_next` or `execRsadec_next` whose earlier checks pass. -/
theorem rsaErrorPriority : Obligations.RsaErrorPriority := by
  refine fun ra rb pssrc s => ⟨fun herr => ?_, fun k hk hlo hhi he => ?_⟩
  · have hbad : ¬ (0 < s.getB ra ∧ 0 ≤ s.getB rb) := by omega
    exact ⟨execRsaenc_next.mpr (.inr (.inl ⟨hbad, rfl⟩)), execRsadec_next.mpr (.inr (.inl ⟨hbad, rfl⟩))⟩
  · have hpos : 0 < s.getB ra ∧ 0 ≤ s.getB rb := ⟨pos_of_pow_le hlo, he⟩
    obtain rfl := keyLen_eq hk hlo hhi
    refine ⟨fun hout => execRsaenc_next.mpr (.inr (.inr (.inl ⟨hpos, not_and_or.mpr hout, rfl⟩))),
      fun hout => execRsadec_next.mpr (.inr (.inr (.inl ⟨hpos, not_and_or.mpr hout, rfl⟩))), fun hin hdst => ⟨?_, ?_⟩⟩
    · exact fun hlong => execRsaenc_next.mpr (.inr (.inr (.inr (.inl ⟨hpos, ⟨hin, hdst⟩, hlong.not_ge, rfl⟩))))
    · intro hlen
      have padding {e : ErrKind} (hps : paddingString true s _ = .error (.raise e)) :
          exec (.rsaenc ra rb true) s = .next (complete (some e) s) :=
        execRsaenc_next.mpr (.inr (.inr (.inr (.inr ⟨e, hpos, ⟨hin, hdst⟩, hlen, hps, rfl⟩))))
      refine ⟨fun hout => padding (paddingString_eq_error.mpr ⟨rfl, .inl ⟨hout, rfl⟩⟩),
        fun ps hpl hpin hps hzero => padding (paddingString_eq_error.mpr ⟨rfl, .inr (.inr ⟨ps, ?_, ?_, ?_, rfl⟩)⟩)⟩
      · exact hpl ▸ hpin
      · exact hps.readBytes? hpl.symm
      · exact fun hnz => hnz _ hzero rfl

/-! ### The round trip (41_rsa.md R145) -/

/-- Fermat: a power that is 1 more than a multiple of p − 1 changes nothing modulo p, multiples of p included. -/
theorem pow_mul_pred_succ_modEq {p : Nat} (hp : p.Prime) (x : Int) (j : Nat) :
    x ^ ((p - 1) * j + 1) ≡ x [ZMOD p] := by
  have := Fact.mk hp
  rw [← ZMod.intCast_eq_intCast_iff, Int.cast_pow, pow_succ, pow_mul]
  rcases eq_or_ne (x : ZMod p) 0 with h | h
  · rw [h, mul_zero]
  · rw [ZMod.pow_card_sub_one_eq_one h, one_pow, one_mul]

/-- With a key pair of two distinct primes the exponents e and d undo each other below the modulus. -/
theorem pow_emod_pow_emod_eq {p q : Nat} (hp : p.Prime) (hq : q.Prime) (hpq : p ≠ q) {e d x : Int} (he : 0 ≤ e)
    (hd : 0 ≤ d) (hed : e * d % ((p - 1) * (q - 1) : Nat) = 1) (hx : 0 ≤ x) (hxn : x < p * q) :
    (x ^ e.toNat % (p * q)) ^ d.toNat % (p * q) = x := by
  lift e to Nat using he
  lift d to Nat using hd
  have hed : e * d % ((p - 1) * (q - 1)) = 1 := by exact_mod_cast hed
  obtain ⟨j, hj⟩ : ∃ j, e * d = (p - 1) * (q - 1) * j + 1 := ⟨_, hed ▸ (Nat.div_add_mod _ _).symm⟩
  have hmodp : x ^ (e * d) ≡ x [ZMOD p] := by
    rw [hj, mul_assoc]
    exact pow_mul_pred_succ_modEq hp x _
  have hmodq : x ^ (e * d) ≡ x [ZMOD q] := by
    rw [hj, mul_comm (p - 1), mul_assoc]
    exact pow_mul_pred_succ_modEq hq x _
  have hmod : x ^ (e * d) ≡ x [ZMOD p * q] :=
    (Int.modEq_and_modEq_iff_modEq_mul (by simpa using (Nat.coprime_primes hp hq).mpr hpq)).mp ⟨hmodp, hmodq⟩
  calc (x ^ e % (p * q)) ^ d % (p * q) = (x ^ e) ^ d % (p * q) := (Int.mod_modEq _ _).pow d
    _ = x ^ (e * d) % (p * q) := by rw [pow_mul]
    _ = x % (p * q) := hmod
    _ = x := Int.emod_eq_of_lt hx hxn

/-- RSADEC where k bytes stand whose decryption is the block of a message gives the message back (41_rsa.md R143). -/
theorem exec_rsadec_of_block {ra rb : RegIdx} {s : State} {k : Nat} {c ps msg : List Byte}
    (hlo : 256 ^ (k - 1) ≤ s.getB ra) (hhi : s.getB ra < 256 ^ k) (hd : 0 ≤ s.getB rb)
    (harg : s.larg.arg1.toNat = c.length) (hin : inDmem s.larg.arg0.toNat c.length)
    (hdst : inDmem s.larg.arg2.toNat (k - 11)) (hc : s.holds s.larg.arg0.toNat c) (hlen : msg.length + 11 ≤ k)
    (hps : ps.length = k - msg.length - 3) (hnz : ∀ x ∈ ps, x ≠ 0x00)
    (hval : (os2ip (pkcs1Block ps msg) : Int) = (os2ip c : Int) ^ (s.getB rb).toNat % s.getB ra) :
    ∃ u, exec (.rsadec ra rb) s = .next u ∧ u.status.err = false ∧ u.result.toNat = msg.length ∧
      u.holds s.larg.arg2.toNat msg := by
  obtain ⟨unpads, -⟩ := rsaDecrypt ra rb s k c _ (by omega) hlo hhi hd harg hin hdst hc (pkcs1Block_length hlen hps) hval
  obtain ⟨m, ⟨stored, -⟩, hexec⟩ := unpads 0x02 ps msg rfl (.inr rfl) hnz (by omega)
  exact ⟨_, hexec, rfl, Nat.mod_eq_of_lt (by omega), stored⟩

/-- Settles O46: RSAENC ends by O43 with a ciphertext at LARG2, whose decryption is the padded block, and O44 unpads it. -/
theorem rsaRoundTrip : Obligations.RsaRoundTrip := by
  intro ra rb rc pssrc s p q k msg ps hp hq hpq hn he hd hed hlo hhi harg hlen hin hdst hmsg hpad
  obtain ⟨ps, draws, hps, hnz, c, m, hcl, hc, ⟨stored, -⟩, hexec⟩ : ∃ (ps : List Byte) (draws : Nat),
      ps.length = k - msg.length - 3 ∧ (∀ x ∈ ps, x ≠ 0x00) ∧ Encrypts ra rb pssrc s k msg ps draws := by
    obtain ⟨host, ds, hds, hdnz, drawn⟩ := rsaEncrypt ra rb s k msg hlo hhi he harg hlen hin hdst hmsg
    cases pssrc with
    | false => exact ⟨ds, ds.length, hds, hdnz, drawn⟩
    | true =>
      obtain ⟨hps, hnz, hpin, hheld⟩ := hpad rfl
      exact ⟨ps, 0, hps, hnz, host ps hps hnz hpin hheld⟩
  refine ⟨_, hexec, rfl, fun args haddr hresult hout => ?_⟩
  have hlt : (os2ip (pkcs1Block ps msg) : Int) < s.getB ra :=
    os2ip_pkcs1Block_lt (by rwa [pkcs1Block_length hlen hps])
  have hval : (os2ip (pkcs1Block ps msg) : Int) = (os2ip c : Int) ^ (s.getB rc).toNat % s.getB ra := by
    rw [hn] at hc hlt ⊢
    rw [hc, pow_emod_pow_emod_eq hp hq hpq he hd hed (Int.natCast_nonneg _) hlt]
  have hcount : args.arg1.toNat = c.length := by
    rw [hresult, hcl]
    exact Nat.mod_eq_of_lt (by omega)
  rw [← haddr, ← hcl] at hdst
  rw [← haddr] at stored
  exact exec_rsadec_of_block hlo hhi hd hcount hdst hout stored hlen hps hnz hval

end Sys2Proof.Machine
end

section
/-! PROOF. The AES datapath (O47, O49, O50): GF(2^8) and the S-box, the round steps byte by byte, and the block transforms,
which undo each other because the inverse steps undo the steps and there are finitely many states. -/

namespace Sys2Proof.Machine

/-! ### GF(2^8) and the S-box (42_aes.md R154–R156) -/

/-- One more xtime, applied last. -/
theorem xtimeIter_succ (n : Nat) (a : Byte) : xtimeIter (n + 1) a = xtime (xtimeIter n a) := by
  induction n generalizing a with
  | zero => rfl
  | succ n ih => exact ih (xtime a)

/-- a • b as a sum over all bits of b, a bit that is 0 giving 0 (42_aes.md R154). -/
theorem gmul_eq_foldl (a b : Byte) :
    gmul a b = (List.range 8).foldl (fun x i => x ^^^ if b.getLsbD i then xtimeIter i a else 0) 0 := by
  have summand (x : Byte) (i : Nat) : (if b.getLsbD i then x ^^^ xtimeIter i a else x) =
      x ^^^ if b.getLsbD i then xtimeIter i a else 0 := by
    split
    · rfl
    · exact BitVec.xor_zero.symm
  simp only [gmul, summand]

/-- The inverse of the S-box's affine map. -/
def sboxAffineInv (b : Byte) : Byte := b.rotateLeft 1 ^^^ b.rotateLeft 3 ^^^ b.rotateLeft 6 ^^^ 0x05

theorem sboxAffine_sboxAffineInv : ∀ b : Byte, sboxAffine (sboxAffineInv b) = b := by decide +kernel

/-- Without its affine map the S-box is the inverse in GF(2^8) (42_aes.md R155). -/
theorem gmul_sboxAffineInv_sbox : ∀ x : Byte, x ≠ 0 → gmul x (sboxAffineInv (sbox x)) = 1 := by decide +kernel

/-- Settles O47: the inverse of x is what the inverse of the affine map makes of SBOX[x]. -/
theorem sboxTables : Obligations.SboxTables :=
  ⟨fun a b => ⟨fun i => xtimeIter i a, rfl, fun i => xtimeIter_succ i a, gmul_eq_foldl a b⟩, rfl,
    fun x hx => ⟨_, gmul_sboxAffineInv_sbox x hx, (sboxAffine_sboxAffineInv _).symm⟩, isbox_sbox⟩

/-! ### The round steps byte by byte (42_aes.md R151, R160–R163) -/

/-- s[r][c], byte r + 4c of a block (42_aes.md R151). -/
def Block.byteAt (s : Block) (r c : Nat) : Byte := s.toBytes.getD (r + 4 * c) 0

/-- Row r of a column. -/
def Column.row (k : Column) (r : Nat) : Byte := k.toBytes.getD r 0

/-- Column c of a block. -/
def Block.column (s : Block) (c : Nat) : Column := [s.c0, s.c1, s.c2].getD c s.c3

section ByteAt
variable {r c : Nat} (hr : r < 4) (hc : c < 4) (s : Block)
include hr hc

theorem Block.byteAt_eq_row : s.byteAt r c = (s.column c).row r := by
  interval_cases r <;> interval_cases c <;> rfl

theorem Block.byteAt_ofBytes (x : List Byte) : (Block.ofBytes x).byteAt r c = x.getD (r + 4 * c) 0 := by
  interval_cases r <;> interval_cases c <;> rfl

theorem byteAt_shiftRows : (shiftRows s).byteAt r c = s.byteAt r ((c + r) % 4) := by
  interval_cases r <;> interval_cases c <;> rfl

theorem byteAt_invShiftRows : (invShiftRows s).byteAt r ((c + r) % 4) = s.byteAt r c := by
  interval_cases r <;> interval_cases c <;> rfl

theorem byteAt_addRoundKey (w : List Word) (rnd : Nat) :
    (addRoundKey w rnd s).byteAt r c = s.byteAt r c ^^^ (w.getD (4 * rnd + c) 0).extractLsb' (24 - 8 * r) 8 := by
  interval_cases r <;> interval_cases c <;> rfl

end ByteAt

theorem Block.column_mapColumns (f : Column → Column) (s : Block) {c : Nat} (hc : c < 4) :
    (s.mapColumns f).column c = f (s.column c) := by
  interval_cases c <;> rfl

theorem Column.row_map (f : Byte → Byte) (k : Column) {r : Nat} (hr : r < 4) : (k.map f).row r = f (k.row r) := by
  interval_cases r <;> rfl

/-- The circulant product: row r weighs the rows from r on, cyclically, by k0, k1, k2, k3 (42_aes.md R162). -/
theorem Column.row_times (k0 k1 k2 k3 : Byte) (k : Column) {r : Nat} (hr : r < 4) :
    (k.times k0 k1 k2 k3).row r = gmul (k.row r) k0 ^^^ gmul (k.row ((r + 1) % 4)) k1 ^^^
      gmul (k.row ((r + 2) % 4)) k2 ^^^ gmul (k.row ((r + 3) % 4)) k3 := by
  interval_cases r <;> simp only [Column.times, Column.row, Column.toBytes, List.getD_cons_zero, List.getD_cons_succ,
    Nat.reduceAdd, Nat.reduceMod] <;> ac_rfl

theorem byteAt_mapColumns_map (f : Byte → Byte) (s : Block) {r c : Nat} (hr : r < 4) (hc : c < 4) :
    (s.mapColumns (Column.map f)).byteAt r c = f (s.byteAt r c) := by
  rw [Block.byteAt_eq_row hr hc, Block.column_mapColumns _ _ hc, Column.row_map _ _ hr, ← Block.byteAt_eq_row hr hc]

theorem byteAt_mapColumns_times (k0 k1 k2 k3 : Byte) (s : Block) {r c : Nat} (hr : r < 4) (hc : c < 4) :
    (s.mapColumns (Column.times k0 k1 k2 k3)).byteAt r c =
      gmul (s.byteAt r c) k0 ^^^ gmul (s.byteAt ((r + 1) % 4) c) k1 ^^^
      gmul (s.byteAt ((r + 2) % 4) c) k2 ^^^ gmul (s.byteAt ((r + 3) % 4) c) k3 := by
  have hmod (i : Nat) : i % 4 < 4 := Nat.mod_lt _ (by decide)
  rw [Block.byteAt_eq_row hr hc, Block.column_mapColumns _ _ hc, Column.row_times _ _ _ _ _ hr,
    Block.byteAt_eq_row hr hc, Block.byteAt_eq_row (hmod _) hc, Block.byteAt_eq_row (hmod _) hc,
    Block.byteAt_eq_row (hmod _) hc]

/-- Settles O49: each step's byte law at the state of the sixteen bytes. -/
theorem aesRoundSteps : Obligations.AesRoundSteps := by
  intro x w rnd r c _ hr hc s at' mul
  have hs {i j : Nat} (hi : i < 4) (hj : j < 4) : s.byteAt i j = x.getD (i + 4 * j) 0 := Block.byteAt_ofBytes hi hj x
  have hmod (i : Nat) : i % 4 < 4 := Nat.mod_lt _ (by decide)
  have times (k0 k1 k2 k3 : Byte) : at' (s.mapColumns (Column.times k0 k1 k2 k3)) =
      mul k0 r ^^^ mul k1 (r + 1) ^^^ mul k2 (r + 2) ^^^ mul k3 (r + 3) := by
    refine (byteAt_mapColumns_times k0 k1 k2 k3 s hr hc).trans ?_
    rw [hs hr hc, hs (hmod _) hc, hs (hmod _) hc, hs (hmod _) hc, ← Nat.mod_eq_of_lt hr]
    simp only [mul, Nat.mod_add_mod, Nat.mod_mod]
  have map (f : Byte → Byte) : at' (s.mapColumns (Column.map f)) = f (x.getD (r + 4 * c) 0) :=
    (byteAt_mapColumns_map f s hr hc).trans (congrArg f (hs hr hc))
  exact ⟨hs hr hc, map sbox, map isbox, (byteAt_shiftRows hr hc s).trans (hs hr (hmod _)),
    (byteAt_invShiftRows hr hc s).trans (hs hr hc), times 2 3 1 1, times 0xe 0xb 0xd 0x9,
    (byteAt_addRoundKey hr hc s w rnd).trans (congrArg (· ^^^ _) (hs hr hc))⟩

/-! ### The block transforms (42_aes.md R164, R165) -/

/-- The rounds of E in order. -/
theorem encRounds_eq_foldl (w : List Word) (n : Nat) (s : Block) : encRounds w n s =
    (List.range n).foldl (fun s i => addRoundKey w (i + 1) (mixColumns (shiftRows (subBytes s)))) s := by
  induction n with
  | zero => rfl
  | succ n ih => rw [List.range_succ, List.foldl_append, ← ih]; rfl

/-- The rounds of D, last first. -/
theorem decRounds_eq_foldl (w : List Word) (n : Nat) (s : Block) : decRounds w n s =
    (List.range n).reverse.foldl
      (fun s i => invMixColumns (addRoundKey w (i + 1) (invSubBytes (invShiftRows s)))) s := by
  induction n generalizing s with
  | zero => rfl
  | succ n ih => rw [List.range_succ, List.reverse_append, List.foldl_append, ← ih]; rfl

/-- The rounds of D after the rounds of E: each round of E is undone as the SubBytes and ShiftRows of the round after it. -/
theorem decRounds_encRounds (w : List Word) (n : Nat) (s : Block) :
    decRounds w n (shiftRows (subBytes (encRounds w n s))) = shiftRows (subBytes s) := by
  induction n with
  | zero => rfl
  | succ n ih =>
    rw [decRounds, invShiftRows_shiftRows, invSubBytes_subBytes, encRounds, addRoundKey_addRoundKey,
      invMixColumns_mixColumns, ih]

/-- D undoes E on states. -/
theorem decryptState_encryptState (w : List Word) (nr : Nat) (s : Block) :
    decryptState w nr (encryptState w nr s) = s := by
  rw [decryptState, encryptState, addRoundKey_addRoundKey, decRounds_encRounds, invShiftRows_shiftRows,
    invSubBytes_subBytes, addRoundKey_addRoundKey]

/-- There are finitely many states: each is given by its sixteen bytes. -/
theorem Block.finite : Finite Block :=
  Finite.of_injective (β := List.Vector Byte 16) (fun s => ⟨s.toBytes, s.toBytes_length⟩) fun _ _ h =>
    congrArg (fun v : List.Vector Byte 16 => Block.ofBytes v.toList) h

/-- E undoes D on states: E is injective, so it is a bijection of the finitely many states. -/
theorem encryptState_decryptState (w : List Word) (nr : Nat) : ∀ s : Block,
    encryptState w nr (decryptState w nr s) = s := by
  have := Block.finite
  have hleft : Function.LeftInverse (decryptState w nr) (encryptState w nr) := decryptState_encryptState w nr
  exact hleft.rightInverse_of_surjective (Finite.surjective_of_injective hleft.injective)

theorem decryptBlock_encryptBlock (w : List Word) (nr : Nat) {x : List Byte} (hx : x.length = 16) :
    decryptBlock w nr (encryptBlock w nr x) = x := by
  rw [decryptBlock, encryptBlock, Block.ofBytes_toBytes, decryptState_encryptState, Block.toBytes_ofBytes hx]

theorem encryptBlock_decryptBlock (w : List Word) (nr : Nat) {x : List Byte} (hx : x.length = 16) :
    encryptBlock w nr (decryptBlock w nr x) = x := by
  rw [decryptBlock, encryptBlock, Block.ofBytes_toBytes, encryptState_decryptState, Block.toBytes_ofBytes hx]

/-- Settles O50: the rounds as folds, and the two transforms on states. -/
theorem aesBlockTransform : Obligations.AesBlockTransform := by
  intro w nr x
  rw [← encRounds_eq_foldl, ← decRounds_eq_foldl]
  exact ⟨rfl, rfl, fun hx => ⟨decryptBlock_encryptBlock w nr hx, encryptBlock_decryptBlock w nr hx⟩⟩

end Sys2Proof.Machine
end

section
/-! PROOF. Loading the AES key and IV (O48): the words of a column, the key schedule as `expandWords` builds it, and AESKEY and
AESIV as cases of their `_next` lemmas. -/

namespace Sys2Proof.Machine

/-! ### Columns as words (42_aes.md R152, R158) -/

/-- A column's word is big-endian: row 0 weighs most (42_aes.md R152). -/
theorem Column.toNat_toWord (k : Column) :
    k.toWord.toNat = ((k.r0.toNat * 256 + k.r1.toNat) * 256 + k.r2.toNat) * 256 + k.r3.toNat := by
  have append {m n : Nat} (x : BitVec m) (y : BitVec n) : (x ++ y).toNat = x.toNat * 2 ^ n + y.toNat := by
    rw [BitVec.toNat_append, Nat.shiftLeft_eq, Nat.mul_comm, Nat.two_pow_add_eq_or_of_lt y.isLt]
  simp only [Column.toWord, append, Nat.reducePow]

theorem Column.toNat_toWord_eq_os2ip (k : Column) : k.toWord.toNat = os2ip k.toBytes := by
  simp [Column.toNat_toWord, os2ip, Column.toBytes]

/-- A column goes to its word and back unchanged. -/
theorem Column.ofWord_toWord (k : Column) : Column.ofWord k.toWord = k := by
  have h0 := k.r0.isLt; have h1 := k.r1.isLt; have h2 := k.r2.isLt; have h3 := k.r3.isLt
  have hbyte (i : Nat) : (k.toWord.extractLsb' i 8).toNat =
      (((k.r0.toNat * 256 + k.r1.toNat) * 256 + k.r2.toNat) * 256 + k.r3.toNat) / 2 ^ i % 2 ^ 8 := by
    rw [BitVec.extractLsb'_toNat, Column.toNat_toWord, Nat.shiftRight_eq_div_pow]
  rw [Column.ofWord, Column.mk.injEq]
  refine ⟨?_, ?_, ?_, ?_⟩ <;> refine BitVec.eq_of_toNat_eq ((hbyte _).trans ?_) <;> omega

/-- RotWord moves each byte one place up, the first to the end (42_aes.md R158). -/
theorem rotWord_toWord (a b c d : Byte) : rotWord (Column.toWord ⟨a, b, c, d⟩) = Column.toWord ⟨b, c, d, a⟩ := by
  have ha := a.isLt; have hb := b.isLt; have hc := c.isLt; have hd := d.isLt
  have hw := Column.toNat_toWord ⟨a, b, c, d⟩
  have hrot := Column.toNat_toWord ⟨b, c, d, a⟩
  dsimp only at hw hrot
  generalize Column.toWord ⟨a, b, c, d⟩ = w at hw
  refine BitVec.eq_of_toNat_eq ?_
  calc (rotWord w).toNat = w.toNat <<< 8 % 2 ^ 32 ||| w.toNat >>> 24 := BitVec.toNat_rotateLeft
    _ = 2 ^ 8 * ((b.toNat * 256 + c.toNat) * 256 + d.toNat) ||| a.toNat := by
      rw [Nat.shiftLeft_eq, Nat.shiftRight_eq_div_pow]
      congr 1 <;> omega
    _ = 2 ^ 8 * ((b.toNat * 256 + c.toNat) * 256 + d.toNat) + a.toNat := (Nat.two_pow_add_eq_or_of_lt ha _).symm
    _ = (Column.toWord ⟨b, c, d, a⟩).toNat := by omega

/-- SubWord applies SBOX to each byte (42_aes.md R158). -/
theorem subWord_toWord (k : Column) : subWord k.toWord = (k.map sbox).toWord := by
  rw [subWord, Column.ofWord_toWord]

/-- Inside a string a column is its four bytes there. -/
theorem toBytes_columnAt {bs : List Byte} {c : Nat} (h : 4 * c + 4 ≤ bs.length) :
    (columnAt bs c).toBytes = (bs.drop (4 * c)).take 4 := by
  have hlen : ((bs.drop (4 * c)).take 4).length = 4 := by rw [List.length_take, List.length_drop]; omega
  refine List.ext_getElem hlen.symm fun i hi _ => ?_
  have hi : i < 4 := hi
  rw [List.getElem_take, List.getElem_drop, ← List.getD_eq_getElem bs 0]
  interval_cases i <;> rfl

/-! ### The key schedule (42_aes.md R157, R159) -/

/-- Rcon[j] = RC[j]·2^24, RC[j] being j − 1 xtimes of 1 (42_aes.md R157). -/
theorem toNat_rcon : ∀ j : Nat, j ≤ 10 → 1 ≤ j → (rcon j).toNat = (xtimeIter (j - 1) 1).toNat * 2 ^ 24 := by decide

/-- The word R159 gives for i ≥ Nk. -/
def keyRecurrence (nk : Nat) (w : Nat → Word) (i : Nat) : Word :=
  w (i - nk) ^^^
    (if i % nk = 0 then subWord (rotWord (w (i - 1))) ^^^ rcon (i / nk)
     else if 6 < nk ∧ i % nk = 4 then subWord (w (i - 1))
     else w (i - 1))

theorem nextKeyWord_eq (nk : Nat) (l : List Word) : nextKeyWord nk l = keyRecurrence nk (l.getD · 0) l.length := rfl

theorem keyRecurrence_congr {nk i : Nat} {v w : Nat → Word} (h1 : v (i - 1) = w (i - 1)) (hnk : v (i - nk) = w (i - nk)) :
    keyRecurrence nk v i = keyRecurrence nk w i := by
  rw [keyRecurrence, keyRecurrence, h1, hnk]

/-- Expansion keeps the words there are. -/
theorem getD_expandWords_of_lt (nk k : Nat) {l : List Word} {i : Nat} (hi : i < l.length) :
    (expandWords nk k l).getD i 0 = l.getD i 0 := by
  induction k generalizing l with
  | zero => rfl
  | succ k ih => rw [expandWords, ih (by rw [List.length_append]; omega), List.getD_append _ _ _ _ hi]

/-- Each word added is the recurrence on the whole schedule. -/
theorem getD_expandWords {nk k : Nat} (hnk : 0 < nk) {l : List Word} {i : Nat} (hl : nk ≤ l.length) (hlo : l.length ≤ i)
    (hhi : i < l.length + k) :
    (expandWords nk k l).getD i 0 = keyRecurrence nk ((expandWords nk k l).getD · 0) i := by
  induction k generalizing l with
  | zero => omega
  | succ k ih =>
    have hlen : (l ++ [nextKeyWord nk l]).length = l.length + 1 := List.length_append
    obtain rfl | hlt := hlo.eq_or_lt
    · have hold {j : Nat} (hj : j < l.length) : l.getD j 0 = (expandWords nk (k + 1) l).getD j 0 :=
        (getD_expandWords_of_lt nk (k + 1) hj).symm
      calc (expandWords nk (k + 1) l).getD l.length 0 = (l ++ [nextKeyWord nk l]).getD l.length 0 :=
            getD_expandWords_of_lt nk k (by omega)
        _ = keyRecurrence nk (l.getD · 0) l.length := by simp [nextKeyWord_eq]
        _ = keyRecurrence nk ((expandWords nk (k + 1) l).getD · 0) l.length :=
            keyRecurrence_congr (hold (by omega)) (hold (by omega))
    · exact ih (by omega) (by omega) (by omega)

/-- The schedule of a key of 16, 24 or 32 bytes (42_aes.md R159). -/
theorem isKeySchedule_keyExpand {key : List Byte} (hlen : key.length = 16 ∨ key.length = 24 ∨ key.length = 32) :
    IsKeySchedule key ((keyExpand key).getD · 0) := by
  have hinit : ((List.range (key.length / 4)).map fun i => (columnAt key i).toWord).length = key.length / 4 := by simp
  refine ⟨fun i hi => ?_, fun i hlo hhi => ?_⟩
  · have hfirst : (keyExpand key).getD i 0 = (columnAt key i).toWord := by
      rw [keyExpand, getD_expandWords_of_lt _ _ (hinit.symm ▸ hi)]
      simp [hi]
    rw [← toBytes_columnAt (by omega), ← Column.toNat_toWord_eq_os2ip]
    exact congrArg BitVec.toNat hfirst
  · exact getD_expandWords (by omega) hinit.ge (by omega) (by rw [roundsOf]; omega)

/-! ### Tables -/

theorem getElem_vectorOf {α : Type} {n : Nat} (d : α) (l : List α) {i : Nat} (hi : i < n) :
    (vectorOf n d l)[i] = l.getD i d := by
  simp [vectorOf]

/-- A vector that holds all of a list reads as the list does. -/
theorem getD_toList_vectorOf {α : Type} {n : Nat} (d : α) {l : List α} (hl : l.length ≤ n) (i : Nat) :
    (vectorOf n d l).toList.getD i d = l.getD i d := by
  rcases Nat.lt_or_ge i n with hi | hi
  · rw [List.getD_eq_getElem _ _ (by simpa using hi), Vector.getElem_toList, getElem_vectorOf d l hi]
  · rw [List.getD_eq_default _ _ (by simpa using hi), List.getD_eq_default _ _ (hl.trans hi)]

theorem vectorOf_toList {α : Type} {n : Nat} (d : α) (v : Vector α n) : vectorOf n d v.toList = v := by
  refine Vector.ext fun i hi => ?_
  rw [getElem_vectorOf d _ hi]
  simp [hi]

/-- Settles O48: the words of the loaded key are `keyExpand`'s, and zeros beyond them. -/
theorem aesKeyAndIvLoad : Obligations.AesKeyAndIvLoad := by
  refine ⟨⟨fun j => xtimeIter (j - 1) 1, rfl, fun j h2 _ => ?_, fun j h1 h10 => toNat_rcon j h10 h1⟩,
    fun a b c d => ⟨rotWord_toWord a b c d, subWord_toWord ⟨a, b, c, d⟩⟩,
    fun s => ⟨decode_commandWord_eq_ok 0x30 0 0 0 0 0 rfl rfl, fun hlen => execAeskey_next.mpr (.inr (.inl ⟨hlen, rfl⟩)),
      fun hlen hout => execAeskey_next.mpr (.inr (.inr ⟨hlen, hout, rfl⟩)), fun key hkl hlen hin hkey => ?_⟩,
    fun s => ⟨decode_commandWord_eq_ok 0x31 0 0 0 0 0 rfl rfl, fun hout => execAesiv_next.mpr (.inr ⟨hout, rfl⟩),
      fun iv hin hiv => execAesiv_next.mpr (.inl ⟨iv.toList, hin, hiv.readBytes? (by simp), ?_⟩)⟩⟩
  · obtain ⟨i, rfl⟩ : ∃ i, j = i + 2 := ⟨j - 2, by omega⟩
    exact xtimeIter_succ i 1
  · have hwords := keyExpand_length key
    rw [roundsOf] at hwords
    refine ⟨vectorOf 60 0 (keyExpand key), ?_, fun i hi hge => ?_,
      execAeskey_next.mpr (.inl ⟨key, hlen, hin, hkey.readBytes? hkl.symm, ?_⟩)⟩
    · simp only [getD_toList_vectorOf 0 (show (keyExpand key).length ≤ 60 by omega)]
      exact isKeySchedule_keyExpand (by omega)
    · rw [getElem_vectorOf 0 _ hi]
      exact List.getD_eq_default _ _ (by omega)
    · rw [← hkl]
      rfl
  · rw [State.loadIv, vectorOf_toList]

end Sys2Proof.Machine
end

section
/-! PROOF. AESCRYPT (O51, O52, O53, O54): what its modes and PKCS#7 make of the input, the command as a case of
`execAescrypt_next_of_checks`, and its errors check by check. The round trip runs the decryption on the state the encryption
leaves. -/

namespace Sys2Proof.Machine

/-! ### The modes (42_aes.md R166–R168) -/

/-- The blocks of an encryption (42_aes.md R166, R167). -/
theorem Aes.blockAt_encrypt (a : Aes) (cbc : Bool) (xs : List Byte) {i : Nat} (hi : i < xs.length / 16) :
    blockAt (a.encrypt cbc xs) i =
      if cbc = false then encryptBlock a.keyw.toList a.nr.toNat (blockAt xs i)
      else encryptBlock a.keyw.toList a.nr.toNat
        (xorBytes (blockAt xs i) (if i = 0 then a.iv.toList else blockAt (a.encrypt cbc xs) (i - 1))) := by
  cases cbc with
  | false => exact blockAt_ecb (encryptBlock_length _ _) _ xs i hi
  | true => exact blockAt_cbcEncrypt (encryptBlock_length _ _) _ _ xs i hi

/-- The blocks of a decryption (42_aes.md R166, R168). -/
theorem Aes.blockAt_decrypt (a : Aes) (cbc : Bool) {xs : List Byte} (hlen : xs.length % 16 = 0) {i : Nat}
    (hi : i < xs.length / 16) : blockAt (a.decrypt cbc xs) i =
      if cbc = false then decryptBlock a.keyw.toList a.nr.toNat (blockAt xs i)
      else xorBytes (decryptBlock a.keyw.toList a.nr.toNat (blockAt xs i))
        (if i = 0 then a.iv.toList else blockAt xs (i - 1)) := by
  cases cbc with
  | false => exact blockAt_ecb (decryptBlock_length _ _) _ xs i hi
  | true => exact blockAt_cbcDecrypt (decryptBlock_length _ _) _ _ xs i (by simp) (by omega) hi

section Inverse
variable {e d : List Byte → List Byte} (he : ∀ bs, (e bs).length = 16) (hde : ∀ bs, bs.length = 16 → d (e bs) = bs)
include he hde

/-- ECB with a transform undone block by block. -/
theorem ecb_undoes_ecb (n : Nat) {xs : List Byte} (hx : xs.length = 16 * n) : ecb d n (ecb e n xs) = xs := by
  induction n generalizing xs with
  | zero => exact (List.length_eq_zero_iff.mp hx).symm
  | succ n ih =>
    rw [ecb, ecb, List.take_left' (he _), List.drop_left' (he _), hde _ (by rw [List.length_take]; omega),
      ih (by rw [List.length_drop]; omega), List.take_append_drop]

/-- CBC decryption undoes CBC encryption after the same block (42_aes.md R167, R168). -/
theorem cbcDecrypt_cbcEncrypt (n : Nat) {prev xs : List Byte} (hp : prev.length = 16) (hx : xs.length = 16 * n) :
    cbcDecrypt d n prev (cbcEncrypt e n prev xs) = xs := by
  induction n generalizing prev xs with
  | zero => exact (List.length_eq_zero_iff.mp hx).symm
  | succ n ih =>
    have htake : (xs.take 16).length = prev.length := by rw [List.length_take]; omega
    have hblock : (xorBytes (xs.take 16) prev).length = 16 := by rw [xorBytes_length htake, htake, hp]
    rw [cbcEncrypt, cbcDecrypt, List.take_left' (he _), List.drop_left' (he _), hde _ hblock, xorBytes_xorBytes htake,
      ih (he _) (by rw [List.length_drop]; omega), List.take_append_drop]

end Inverse

/-- Decryption undoes encryption of whole blocks in the same mode. -/
theorem Aes.decrypt_encrypt (a : Aes) (cbc : Bool) {xs : List Byte} (hlen : xs.length % 16 = 0) :
    a.decrypt cbc (a.encrypt cbc xs) = xs := by
  have hx : xs.length = 16 * (xs.length / 16) := by omega
  have hde (bs : List Byte) := decryptBlock_encryptBlock a.keyw.toList a.nr.toNat (x := bs)
  rw [Aes.decrypt, Aes.encrypt_length, Nat.mul_div_cancel_left _ (by decide)]
  cases cbc with
  | false => exact ecb_undoes_ecb (encryptBlock_length _ _) hde _ hx
  | true => exact cbcDecrypt_cbcEncrypt (encryptBlock_length _ _) hde _ (by simp) hx

/-! ### PKCS#7 (42_aes.md R169, R170) -/

/-- A string that ends in its padding: p bytes of value p, 1 ≤ p ≤ 16 (42_aes.md R170). -/
def Padded (z : List Byte) : Prop :=
  ∃ (y : List Byte) (p : Nat), 1 ≤ p ∧ p ≤ 16 ∧ z = y ++ List.replicate p (BitVec.ofNat 8 p)

/-- The last byte of a padded string is the number of padding bytes. -/
theorem toNat_padByte_append (y : List Byte) {p : Nat} (h1 : 1 ≤ p) (h16 : p ≤ 16) :
    (padByte (y ++ List.replicate p (BitVec.ofNat 8 p))).toNat = p := by
  rw [padByte_append_replicate y _ h1, BitVec.toNat_ofNat]
  exact Nat.mod_eq_of_lt (by omega)

/-- The validity check accepts exactly the padded strings. -/
theorem pkcs7Valid_iff {z : List Byte} : pkcs7Valid z = true ↔ Padded z := by
  simp only [pkcs7Valid, decide_eq_true_eq]
  constructor
  · rintro ⟨-, h1, h16, -, hdrop⟩
    refine ⟨z.take (z.length - (padByte z).toNat), (padByte z).toNat, h1, h16, ?_⟩
    rw [BitVec.ofNat_toNat, BitVec.setWidth_eq, ← hdrop, List.take_append_drop]
  · rintro ⟨y, p, h1, h16, rfl⟩
    rw [toNat_padByte_append y h1 h16, padByte_append_replicate y _ h1, List.length_append, List.length_replicate]
    exact ⟨by omega, h1, h16, by omega, by simp⟩

/-- Unpadding a padded string drops its padding, in either STRICT mode. -/
theorem pkcs7Unpad_append (strict : Bool) (y : List Byte) {p : Nat} (h1 : 1 ≤ p) (h16 : p ≤ 16) :
    pkcs7Unpad strict (y ++ List.replicate p (BitVec.ofNat 8 p)) = some (y, false) := by
  rw [pkcs7Unpad, if_pos (pkcs7Valid_iff.mpr ⟨y, p, h1, h16, rfl⟩), toNat_padByte_append y h1 h16]
  simp

/-- Unpadding any other string: none when STRICT, else the string with PADBAD. -/
theorem pkcs7Unpad_of_not_padded (strict : Bool) {z : List Byte} (h : ¬ Padded z) :
    pkcs7Unpad strict z = if strict then none else some (z, true) := by
  rw [pkcs7Unpad, if_neg (mt pkcs7Valid_iff.mp h)]

/-! ### The command (42_aes.md R178) -/

/-- What AESCRYPT encrypts: its input, padded when PAD = 1 (42_aes.md R169). -/
def cryptInput (pad : Bool) (x : List Byte) : List Byte := if pad then pkcs7Pad x else x

theorem cryptInput_length_mod {pad : Bool} {x : List Byte} (h : pad = false → x.length % 16 = 0) :
    (cryptInput pad x).length % 16 = 0 := by
  cases pad with
  | false => exact h rfl
  | true => exact pkcs7Pad_length_mod x

/-- The longest output of an encryption is its output's length. -/
theorem aesOutMax_encrypt (pad : Bool) (x : List Byte) : aesOutMax false pad x.length = (cryptInput pad x).length := by
  cases pad with
  | false => rfl
  | true => exact (pkcs7Pad_length x).symm

theorem Aes.encrypt_cryptInput_length (a : Aes) (cbc : Bool) {pad : Bool} {x : List Byte}
    (h : pad = false → x.length % 16 = 0) : (a.encrypt cbc (cryptInput pad x)).length = (cryptInput pad x).length := by
  have := cryptInput_length_mod h
  rw [Aes.encrypt_length]
  omega

theorem Aes.encrypt_pkcs7Pad_length (a : Aes) (cbc : Bool) (x : List Byte) :
    (a.encrypt cbc (pkcs7Pad x)).length = (pkcs7Pad x).length :=
  a.encrypt_cryptInput_length cbc (pad := true) nofun

/-- DMEM `m` after the output `y` of AESCRYPT, its length in RESULT, `padbad` in PADBAD, and nothing else changed. -/
def State.withOutput (s : State) (m : Memory) (y : List Byte) (padbad : Bool) : State :=
  { s with dmem := m, status := { s.status with padbad := padbad }, result := BitVec.ofNat 32 y.length }

/-- AESCRYPT has stored its output `y` at LARG2. -/
def Crypts (dec cbc pad strict : Bool) (s : State) (y : List Byte) (padbad : Bool) : Prop :=
  ∃ m, Memory.Stores s.dmem m s.larg.arg2.toNat y ∧
    exec (.aescrypt dec cbc pad strict) s = .next (complete none (s.withOutput m y padbad))

section Command
variable {dec cbc pad strict : Bool} {s : State} {x : List Byte}

/-- AESCRYPT with its checks met stores what the datapath makes of its input. -/
theorem crypts_of_crypt {y : List Byte} {padbad : Bool} (hc : aescryptChecks dec cbc pad strict s)
    (harg : s.larg.arg1.toNat = x.length) (hx : s.holds s.larg.arg0.toNat x)
    (hy : s.aes.crypt dec cbc pad strict x = some (y, padbad)) : Crypts dec cbc pad strict s y padbad := by
  refine ⟨_, Memory.stores_writeBytes _ _ y, (execAescrypt_next_of_checks hc (hx.readBytes? harg)).trans ?_⟩
  rw [hy]
  rfl

/-- AESCRYPT with its checks met and no output ends with INVALID_PADDING. -/
theorem exec_aescrypt_invalidPadding (hc : aescryptChecks dec cbc pad strict s)
    (harg : s.larg.arg1.toNat = x.length) (hx : s.holds s.larg.arg0.toNat x)
    (hy : s.aes.crypt dec cbc pad strict x = none) :
    exec (.aescrypt dec cbc pad strict) s = .next (complete (some .invalidPadding) s) :=
  (execAescrypt_next_of_checks hc (hx.readBytes? harg)).trans (by rw [hy])

section Met
variable (hkey : s.aes.keyValid = true) (hiv : cbc = true → s.aes.ivValid = true)
  (harg : s.larg.arg1.toNat = x.length) (hin : inDmem s.larg.arg0.toNat x.length)
include hkey hiv harg hin

theorem aescryptChecks_encrypt (hlen : pad = false → x.length % 16 = 0)
    (hdst : inDmem s.larg.arg2.toNat (cryptInput pad x).length) : aescryptChecks false cbc pad false s := by
  rw [← aesOutMax_encrypt] at hdst
  rw [← harg] at hin hlen hdst
  exact ⟨by simp, hkey, hiv, hin, fun h => hlen (h.resolve_left Bool.false_ne_true), hdst⟩

theorem aescryptChecks_decrypt (hlen : x.length % 16 = 0) (hdst : inDmem s.larg.arg2.toNat x.length)
    (hstrict : strict = true → pad = true) : aescryptChecks true cbc pad strict s := by
  rw [← harg] at hin hlen hdst
  exact ⟨fun h => ⟨rfl, hstrict h⟩, hkey, hiv, hin, fun _ => hlen, by rwa [aesOutMax, if_neg (by simp)]⟩

end Met

end Command

/-- Settles O51: the output is the encryption of `cryptInput`. -/
theorem aesEncrypt : Obligations.AesEncrypt := by
  intro cbc pad s x hkey hiv harg hin hx hlen p padded e hdst
  obtain ⟨m, stores, hexec⟩ := crypts_of_crypt (padbad := false)
    (aescryptChecks_encrypt hkey hiv harg hin hlen hdst) harg hx rfl
  exact ⟨_, m, s.aes.encrypt_cryptInput_length cbc hlen, fun i hi => s.aes.blockAt_encrypt cbc _ hi, stores, hexec⟩

/-- Settles O52: the output is the decryption, unpadded by the two cases of PKCS#7. -/
theorem aesDecrypt : Obligations.AesDecrypt := by
  intro cbc s x hkey hiv harg hin hx hlen hdst d writes
  have checks {pad strict : Bool} : (strict = true → pad = true) → aescryptChecks true cbc pad strict s :=
    aescryptChecks_decrypt hkey hiv harg hin hlen hdst
  have unpads {strict padbad : Bool} {y : List Byte} (h : pkcs7Unpad strict (s.aes.decrypt cbc x) = some (y, padbad)) :
      writes true strict padbad y :=
    crypts_of_crypt (checks fun _ => rfl) harg hx h
  refine ⟨s.aes.decrypt cbc x, s.aes.decrypt_length cbc hlen, fun i hi => s.aes.blockAt_decrypt cbc hlen hi,
    crypts_of_crypt (checks (by simp)) harg hx rfl, fun y p h1 h16 hz => ?_, fun hno => ⟨?_, ?_⟩⟩
  · have hunpad (strict : Bool) : pkcs7Unpad strict (s.aes.decrypt cbc x) = some (y, false) :=
      hz ▸ pkcs7Unpad_append strict y h1 h16
    exact ⟨unpads (hunpad false), unpads (hunpad true)⟩
  · exact unpads (pkcs7Unpad_of_not_padded false hno)
  · exact exec_aescrypt_invalidPadding (checks fun _ => rfl) harg hx (pkcs7Unpad_of_not_padded true hno)

/-- A check that fails ends the pseudocode. -/
theorem require_bind_raise {β : Type} {c : Prop} [Decidable c] {e : ErrKind} {g : Unit → Except Stop β} (hc : ¬ c) :
    (require c e >>= g) = .error (.raise e) :=
  Except.bind_eq_error.mpr (.inl (require_eq_error.mpr ⟨hc, rfl⟩))

/-- Settles O53: the checks before the one that fails pass. -/
theorem aesErrorPriority : Obligations.AesErrorPriority := by
  intro dec cbc pad strict s hlegal len omax out
  refine ⟨fun hkey => ?_, fun hkey => ⟨fun hcbc hiv => ?_, fun hiv => ⟨fun hsrc => ?_, fun hsrc =>
    ⟨fun hwhole hlen => ?_, fun hlen hdst => ?_⟩⟩⟩⟩
  all_goals
    refine finish_eq_next.mpr (.inr ⟨_, require_bind_error hlegal ?_, rfl⟩)
  · exact require_bind_raise (by simp [hkey])
  · exact require_bind_error hkey (require_bind_raise (by simp [hcbc, hiv]))
  · exact require_bind_error hkey (require_bind_error hiv (require_bind_raise hsrc))
  · exact require_bind_error hkey (require_bind_error hiv (require_bind_error hsrc
      (require_bind_raise fun h => hlen (h hwhole))))
  · exact require_bind_error hkey (require_bind_error hiv (require_bind_error hsrc (require_bind_error hlen
      (require_bind_raise hdst))))

/-- Where the encryption of padded bytes stands, AESCRYPT with DEC = PAD = 1 gives the bytes back (42_aes.md R179). -/
theorem crypts_decrypt_encrypt {cbc strict : Bool} {s : State} {x : List Byte} (hkey : s.aes.keyValid = true)
    (hiv : cbc = true → s.aes.ivValid = true) (harg : s.larg.arg1.toNat = (pkcs7Pad x).length)
    (hin : inDmem s.larg.arg0.toNat (pkcs7Pad x).length) (hdst : inDmem s.larg.arg2.toNat (pkcs7Pad x).length)
    (hy : s.holds s.larg.arg0.toNat (s.aes.encrypt cbc (pkcs7Pad x))) : Crypts true cbc true strict s x false := by
  have hmod := pkcs7Pad_length_mod x
  rw [← s.aes.encrypt_pkcs7Pad_length cbc] at harg hin hdst hmod
  refine crypts_of_crypt (aescryptChecks_decrypt hkey hiv harg hin hmod hdst fun _ => rfl) harg hy ?_
  calc pkcs7Unpad strict (s.aes.decrypt cbc (s.aes.encrypt cbc (pkcs7Pad x)))
      = pkcs7Unpad strict (pkcs7Pad x) := by rw [s.aes.decrypt_encrypt cbc (pkcs7Pad_length_mod x)]
    _ = some (x, false) := pkcs7Unpad_pkcs7Pad strict x

/-- Settles O54: the encryption ends with its output at LARG2, where `crypts_decrypt_encrypt` decrypts it. -/
theorem aesRoundTrip : Obligations.AesRoundTrip := by
  intro cbc strict s x hkey hiv harg hin hx hdst
  rw [← pkcs7Pad_length] at hdst ⊢
  obtain ⟨m, ⟨stored, -⟩, hexec⟩ := crypts_of_crypt (y := s.aes.encrypt cbc (pkcs7Pad x)) (padbad := false)
    (aescryptChecks_encrypt (pad := true) hkey hiv harg hin nofun hdst) harg hx rfl
  refine ⟨_, hexec, rfl, fun args haddr hresult hout => ?_⟩
  have hcount : args.arg1.toNat = (pkcs7Pad x).length := by
    have hlen := s.aes.encrypt_pkcs7Pad_length cbc x
    rw [hresult, ← hlen]
    exact Nat.mod_eq_of_lt (by omega)
  rw [← haddr] at stored hdst
  obtain ⟨m', ⟨plain, -⟩, hexec'⟩ := crypts_decrypt_encrypt (strict := strict)
    (s := { complete none (s.withOutput m _ false) with larg := args }) hkey hiv hcount hdst hout stored
  exact ⟨_, hexec', rfl, rfl, Nat.mod_eq_of_lt (by omega), plain⟩

end Sys2Proof.Machine
end

section
/-! PROOF. The MD5 compression (O55): the words of a block as sums of their bytes, S and g of a step as R183 and R182 write
them, and the working words after each step. -/

namespace Sys2Proof.Machine

/-- A column's word as a sum that starts at row 3, its least significant byte. -/
theorem Column.toWord_eq_ofNat (k : Column) : k.toWord =
    BitVec.ofNat 32 (k.r3.toNat + k.r2.toNat * 2 ^ 8 + k.r1.toNat * 2 ^ 16 + k.r0.toNat * 2 ^ 24) := by
  rw [← BitVec.setWidth_eq k.toWord, ← BitVec.ofNat_toNat, Column.toNat_toWord]
  exact congrArg (BitVec.ofNat 32) (by omega)

/-- A block's word is little-endian, the column of its four bytes from the last to the first (43_md5.md R180). -/
theorem wordLe_eq_ofNat (bs : List Byte) (j : Nat) : wordLe bs j = BitVec.ofNat 32
    ((bs.getD (4 * j) 0).toNat + (bs.getD (4 * j + 1) 0).toNat * 2 ^ 8 + (bs.getD (4 * j + 2) 0).toNat * 2 ^ 16 +
      (bs.getD (4 * j + 3) 0).toNat * 2 ^ 24) :=
  Column.toWord_eq_ofNat ⟨bs.getD (4 * j + 3) 0, bs.getD (4 * j + 2) 0, bs.getD (4 * j + 1) 0, bs.getD (4 * j) 0⟩

theorem getD_wordsLe (bs : List Byte) {j : Nat} (hj : j < 16) : (wordsLe bs).getD j 0 = wordLe bs j := by
  simp [wordsLe, hj]

/-- g(i) names one of the sixteen words of the block (43_md5.md R182). -/
theorem md5Index_lt (i : Nat) : md5Index i < 16 := by
  rw [md5Index]
  split_ifs <;> omega

/-- Row i div 16 of the rotation amounts, by the group of sixteen steps that `i` is in (43_md5.md R183). -/
theorem md5Shift_eq {i : Nat} (hi : i < 64) : md5Shift i =
    (if i < 16 then [7, 12, 17, 22] else if i < 32 then [5, 9, 14, 20]
      else if i < 48 then [4, 11, 16, 23] else [6, 10, 15, 21]).getD (i % 4) 0 := by
  rw [md5Shift]
  congr 1
  split_ifs with h16 h32 h48
  · rw [show i / 16 = 0 by omega]; rfl
  · rw [show i / 16 = 1 by omega]; rfl
  · rw [show i / 16 = 2 by omega]; rfl
  · rw [show i / 16 = 3 by omega]; rfl

/-- The working words of a compression before step `i`: its steps 0 to i − 1 done on `v`. -/
def workAt {α : Type} (step : α → Nat → α) (v : α) (i : Nat) : α := (List.range i).foldl step v

theorem workAt_succ {α : Type} (step : α → Nat → α) (v : α) (i : Nat) :
    workAt step v (i + 1) = step (workAt step v i) i := by
  simp [workAt, List.range_succ]

/-- Settles O55: the witnesses are the fields of `workAt`, and each step is `md5Step` with its word, its index and its rotation
spelled out. -/
theorem md5Compression : Obligations.Md5Compression := by
  refine ⟨rfl, fun h x => ?_⟩
  let w := workAt (md5Step (wordsLe x)) ⟨h[0], h[1], h[2], h[3]⟩
  refine ⟨fun i => (w i).a, fun i => (w i).b, fun i => (w i).c, fun i => (w i).d, ⟨rfl, rfl, rfl, rfl⟩,
    fun i hi => ?_, rfl⟩
  have hw : w (i + 1) = md5Step (wordsLe x) (w i) i := workAt_succ ..
  rw [md5Step, getD_wordsLe x (md5Index_lt i), wordLe_eq_ofNat, md5Shift_eq hi] at hw
  exact ⟨congrArg Md5Work.a hw, congrArg Md5Work.b hw, congrArg Md5Work.c hw, congrArg Md5Work.d hw⟩

end Sys2Proof.Machine
end

section
/-! PROOF. The SHA-256 compression (O56): the ROM K as cube roots, the words of a block as sums of their bytes, and each word
of the schedule from the words before it. -/

namespace Sys2Proof.Machine

/-! ### The ROM K (44_sha256.md R194) -/

/-- `k` is the first 32 bits of the fractional part of the cube root of `p`, for a cube root below 7. -/
abbrev IsCubeRootFraction (p : Nat) (k : Word) : Prop :=
  ∃ q < 7, (q * 2 ^ 32 + k.toNat) ^ 3 ≤ p * 2 ^ 96 ∧ p * 2 ^ 96 < (q * 2 ^ 32 + k.toNat + 1) ^ 3

/-- Below `b ^ 2` it is enough to try the divisors below `b`. -/
theorem prime_iff_of_lt_sq {b n : Nat} (hn : n < b ^ 2) : n.Prime ↔ 2 ≤ n ∧ ∀ m < b, 2 ≤ m → m ∣ n → m = n := by
  refine ⟨fun hp => ⟨hp.two_le, fun m _ hm hdvd => ?_⟩, fun ⟨htwo, htry⟩ => Nat.prime_def_le_sqrt.mpr ⟨htwo, ?_⟩⟩
  · exact (hp.eq_one_or_self_of_dvd m hdvd).resolve_left (by omega)
  · intro m hm hsqrt hdvd
    have heq := htry m (hsqrt.trans_lt (Nat.sqrt_lt'.mpr hn)) hm hdvd
    exact (Nat.sqrt_lt_self htwo).not_ge (heq ▸ hsqrt)

/-- The primes up to 311 and the words of K, in pairs. -/
theorem isCubeRootFraction_sha256K :
    List.Forall₂ IsCubeRootFraction ((List.range 312).filter fun n => decide n.Prime) sha256K := by
  have htry : (List.range 312).filter (fun n => decide n.Prime) =
      (List.range 312).filter fun n => decide (2 ≤ n ∧ ∀ m < 18, 2 ≤ m → m ∣ n → m = n) :=
    List.filter_congr fun n hn => decide_eq_decide.mpr
      (prime_iff_of_lt_sq ((List.mem_range.mp hn).trans (by decide)))
  rw [htry]
  decide +kernel

/-- In the list of the numbers with a property each stands at the place that counts the ones below it. -/
theorem getElem?_filter_range_count {P : Nat → Prop} [DecidablePred P] {m n : Nat} (hm : P m) (hlt : m < n) :
    ((List.range n).filter fun i => decide (P i))[Nat.count P m]? = some m := by
  obtain ⟨k, rfl⟩ := Nat.exists_eq_add_of_lt hlt
  rw [Nat.count, List.countP_eq_length_filter, Nat.add_right_comm, List.range_add, List.range_succ]
  simp [hm]

/-- Each prime up to 311 has its word in K. -/
theorem isCubeRootFraction_getD_count {p : Nat} (hp : p.Prime) (hle : p ≤ 311) :
    IsCubeRootFraction p (sha256K.getD (Nat.count Nat.Prime p) 0) := by
  obtain ⟨hi, hget⟩ := List.getElem?_eq_some_iff.mp (getElem?_filter_range_count hp (Nat.lt_succ_of_le hle))
  have hroot := isCubeRootFraction_sha256K.get hi (isCubeRootFraction_sha256K.length_eq ▸ hi)
  rwa [List.get_eq_getElem, hget, List.get_eq_getElem, ← List.getD_eq_getElem _ 0] at hroot

/-! ### The words of a block (44_sha256.md R192) -/

/-- A block's word is big-endian, the column of its four bytes in order. -/
theorem wordBe_eq_ofNat (bs : List Byte) (j : Nat) : wordBe bs j = BitVec.ofNat 32
    ((bs.getD (4 * j) 0).toNat * 2 ^ 24 + (bs.getD (4 * j + 1) 0).toNat * 2 ^ 16 + (bs.getD (4 * j + 2) 0).toNat * 2 ^ 8 +
      (bs.getD (4 * j + 3) 0).toNat) := by
  refine (Column.toWord_eq_ofNat (columnAt bs j)).trans (congrArg (BitVec.ofNat 32) ?_)
  dsimp only [columnAt]
  omega

/-! ### The message schedule (44_sha256.md R195) -/

theorem prefix_extendSchedule (k : Nat) (w : List Word) : w <+: extendSchedule k w := by
  induction k generalizing w with
  | zero => exact List.prefix_rfl
  | succ k ih => exact (List.prefix_append w _).trans (ih _)

theorem getD_extendSchedule_of_lt (k : Nat) {w : List Word} {t : Nat} (ht : t < w.length) :
    (extendSchedule k w).getD t 0 = w.getD t 0 := by
  obtain ⟨v, hv⟩ := prefix_extendSchedule k w
  rw [← hv, List.getD_append _ _ _ _ ht]

theorem extendSchedule_length (k : Nat) (w : List Word) : (extendSchedule k w).length = w.length + k := by
  induction k generalizing w with
  | zero => rfl
  | succ k ih => rw [extendSchedule, ih, List.length_append, List.length_singleton, Nat.add_right_comm, Nat.add_assoc]

/-- Every word that is added is the next one of the words before it. -/
theorem getD_extendSchedule {k t : Nat} {w : List Word} (hlo : w.length ≤ t) (hhi : t < w.length + k) :
    (extendSchedule k w).getD t 0 = nextScheduleWord ((extendSchedule k w).take t) := by
  induction k generalizing w with
  | zero => omega
  | succ k ih =>
    have hlen : (w ++ [nextScheduleWord w]).length = w.length + 1 := List.length_append
    obtain rfl | hlt := hlo.eq_or_lt
    · rw [← List.prefix_iff_eq_take.mp (prefix_extendSchedule (k + 1) w), extendSchedule,
        getD_extendSchedule_of_lt k (by omega)]
      simp
    · exact ih (by omega) (by omega)

/-- The next word after the first `t` of a list, read in the whole list. -/
theorem nextScheduleWord_take {w : List Word} {t : Nat} (hlo : 16 ≤ t) (hhi : t ≤ w.length) :
    nextScheduleWord (w.take t) = shaSigma1 (w.getD (t - 2) 0) + w.getD (t - 7) 0 + shaSigma0 (w.getD (t - 15) 0) +
      w.getD (t - 16) 0 := by
  have hold {i : Nat} (hi : i < t) : (w.take t).getD i 0 = w.getD i 0 := by simp [hi]
  rw [nextScheduleWord, List.length_take_of_le hhi, hold (by omega), hold (by omega), hold (by omega), hold (by omega)]

theorem getD_shaSchedule_of_lt (block : List Byte) {t : Nat} (ht : t < 16) :
    (shaSchedule block).getD t 0 = wordBe block t := by
  rw [shaSchedule, getD_extendSchedule_of_lt 48 (by simpa using ht)]
  simp [ht]

theorem getD_shaSchedule (block : List Byte) {t : Nat} (hlo : 16 ≤ t) (hhi : t < 64) :
    let w := shaSchedule block
    w.getD t 0 = shaSigma1 (w.getD (t - 2) 0) + w.getD (t - 7) 0 + shaSigma0 (w.getD (t - 15) 0) + w.getD (t - 16) 0 := by
  have hlen : ((List.range 16).map (wordBe block)).length = 16 := by simp
  exact (getD_extendSchedule (hlen.le.trans hlo) (by omega)).trans
    (nextScheduleWord_take hlo (by rw [extendSchedule_length, hlen]; omega))

/-- Settles O56: the witnesses are the words of `shaSchedule` and the fields of `workAt`, and each step is `shaStep` with its
functions spelled out. -/
theorem sha256Compression : Obligations.Sha256Compression := by
  refine ⟨rfl, fun p hp hle => ?_, fun H x => ?_⟩
  · obtain ⟨q, -, hle, hlt⟩ := isCubeRootFraction_getD_count hp hle
    exact ⟨_, hle, hlt, by rw [Nat.mul_add_mod_self_right, Nat.mod_eq_of_lt (BitVec.isLt _)]⟩
  · let w := workAt (shaStep (shaSchedule x)) ⟨H[0], H[1], H[2], H[3], H[4], H[5], H[6], H[7]⟩
    refine ⟨fun t => (shaSchedule x).getD t 0, fun t => (w t).a, fun t => (w t).b, fun t => (w t).c, fun t => (w t).d,
      fun t => (w t).e, fun t => (w t).f, fun t => (w t).g, fun t => (w t).h,
      fun t ht => (getD_shaSchedule_of_lt x ht).trans (wordBe_eq_ofNat x t), fun t => getD_shaSchedule x,
      ⟨rfl, rfl, rfl, rfl, rfl, rfl, rfl, rfl⟩, fun t _ => ?_, rfl⟩
    have hw : w (t + 1) = shaStep (shaSchedule x) (w t) t := workAt_succ ..
    rw [shaStep, shaBigSigma0, shaBigSigma1, shaCh, shaMaj] at hw
    simp only [hw, and_self]

end Sys2Proof.Machine
end

section
/-! PROOF. The hash commands (O57, O58, O59, O60): absorption and padding as blocks of one string, the context that ALG
names under absorption, and each command as a case of its `_next` lemma. HUPDATEs absorb the message into the initial
context, whose digest is the hash of the message (45_hash_commands.md R216). -/

namespace Sys2Proof

/-! ### The words (30_encoding.md R84, R91) -/

/-- A hash word with ALG 2 or 3 is legal and unsupported. -/
theorem decodeHash_hashFn_unsupported (mk : BitVec 2 → Instr) {alg : BitVec 2} (h : 2 ≤ alg.toNat) :
    decodeHash mk 0 0 0 0 (hashFn alg) = .error .unsupportedAlgorithm := by
  obtain ⟨halg, hzero⟩ := hashFn_bits alg
  have hno : ¬ (alg = 0#2 ∨ alg = 1#2) := by bv_omega
  rw [decodeHash, if_neg (by simp [hzero]), halg, if_neg hno]

/-- The word of a hash command decodes by its ALG. -/
theorem decode_hashWord {op : BitVec 8} {mk : BitVec 2 → Instr}
    (hrow : ∀ fn, decodeFields op 0 0 0 0 fn = decodeHash mk 0 0 0 0 fn) :
    (∀ alg : BitVec 2, alg.toNat < 2 → decode (commandWord op.toNat 0 0 0 0 alg.toNat) = .ok (mk alg)) ∧
    (∀ alg : BitVec 2, 2 ≤ alg.toNat →
      decode (commandWord op.toNat 0 0 0 0 alg.toNat) = .error .unsupportedAlgorithm) := by
  have hword (alg : BitVec 2) :
      decode (commandWord op.toNat 0 0 0 0 alg.toNat) = decodeHash mk 0 0 0 0 (hashFn alg) := by
    rw [← hashFn_toNat]
    exact (decode_commandWord op 0 0 0 0 (hashFn alg)).trans (hrow _)
  exact ⟨fun alg h => (hword alg).trans (decodeHash_hashFn mk (Machine.alg_of_toNat_lt h)),
    fun alg h => (hword alg).trans (decodeHash_hashFn_unsupported mk h)⟩

end Sys2Proof

namespace Sys2Proof.Machine

/-! ### The bytes of a digest (43_md5.md R189, 44_sha256.md R200) -/

/-- Strings of one length in a row: byte i of the j-th. -/
theorem getD_flatMap_of_length {α : Type} {f : α → List Byte} {k : Nat} (hf : ∀ a, (f a).length = k) {l : List α}
    {i j : Nat} (hi : i < k) (hj : j < l.length) : (l.flatMap f).getD (k * j + i) 0 = (f l[j]).getD i 0 := by
  induction l generalizing j with
  | nil => exact absurd hj (Nat.not_lt_zero j)
  | cons a l ih =>
    rw [List.flatMap_cons]
    cases j with
    | zero => rw [Nat.mul_zero, Nat.zero_add, List.getD_append _ _ _ _ (by rwa [hf])]; rfl
    | succ j =>
      have hsub : k * (j + 1) + i - (f a).length = k * j + i := by rw [hf, Nat.mul_succ]; omega
      rw [List.getD_append_right _ _ _ _ (by rw [hf, Nat.mul_succ]; omega), hsub]
      exact ih (Nat.lt_of_succ_lt_succ hj)

theorem getD_leBytes_word (w : Word) {i : Nat} (hi : i < 4) :
    (leBytes w.toNat 4).getD i 0 = w.extractLsb' (8 * i) 8 := by
  rw [leBytes_eq_lanes]
  simp [hi]

theorem getD_i2osp_word (w : Word) {i : Nat} (hi : i < 4) :
    (i2osp w.toNat 4).getD i 0 = w.extractLsb' (24 - 8 * i) 8 := by
  rw [i2osp, leBytes_eq_lanes]
  interval_cases i <;> rfl

theorem getD_md5Output (h : Vector Word 4) {i j : Nat} (hj : j < 4) (hi : i < 4) :
    (md5Output h).getD (4 * j + i) 0 = h[j].extractLsb' (8 * i) 8 :=
  (getD_flatMap_of_length (fun w : Word => leBytes_length w.toNat 4) hi (hj.trans_eq h.length_toList.symm)).trans
    (getD_leBytes_word _ hi)

theorem getD_sha256Output (h : Vector Word 8) {i j : Nat} (hj : j < 8) (hi : i < 4) :
    (sha256Output h).getD (4 * j + i) 0 = h[j].extractLsb' (24 - 8 * i) 8 :=
  (getD_flatMap_of_length (fun w : Word => i2osp_length w.toNat 4) hi (hj.trans_eq h.length_toList.symm)).trans
    (getD_i2osp_word _ hi)

/-! ### Padding (45_hash_commands.md R211) -/

section Padding
variable {n : Nat} {x : HashCtx n}

/-- The buffer never holds a whole block. -/
theorem HashCtx.bufOk.buf_lt (h : x.bufOk) : x.buf.length < 64 := h.trans_lt (Nat.mod_lt _ (by decide))

/-- A string with its context's padding behind it. -/
theorem append_hashPad (len : Nat → List Byte) (m : List Byte) (hx : x.buf.length < 64) :
    m ++ hashPad (fun c => len c.toNat) x =
      m ++ [0x80] ++ List.replicate ((119 - x.buf.length) % 64) 0x00 ++ len (8 * x.cnt.toNat % 2 ^ 64) := by
  have hzeros : padZeros x.buf.length = (119 - x.buf.length) % 64 := by unfold padZeros; omega
  have hbits : (8 * x.cnt).toNat = 8 * x.cnt.toNat % 2 ^ 64 := BitVec.toNat_mul ..
  simp only [hashPad, hzeros, hbits, List.append_assoc, List.cons_append, List.nil_append]

variable (compress : Vector Word n → List Byte → Vector Word n)

/-- The padded running words are the blocks of the buffer and its padding. -/
theorem paddedWords_eq_hashBlocks (len : Nat → List Byte) (hx : x.buf.length < 64) :
    let all := x.buf ++ [0x80] ++ List.replicate ((119 - x.buf.length) % 64) 0x00 ++ len (8 * x.cnt.toNat % 2 ^ 64)
    paddedWords compress (fun c => len c.toNat) x = hashBlocks compress (all.length / 64) x.h all := by
  intro all
  have hall : x.buf ++ hashPad (fun c => len c.toNat) x = all := append_hashPad len x.buf hx
  rw [paddedWords, absorb_eq_hashBlocks compress _ _ _ hx rfl, hall]

/-- A context that absorbed `m` from its initial value pads it as the whole message is padded. -/
theorem append_hashPad_absorb_initial (len : Nat → List Byte) (h0 : Vector Word n) (m : List Byte) :
    m ++ hashPad (fun c => len c.toNat) (absorb compress (HashCtx.initial h0) m) = padMessage len m := by
  have hbuf := absorb_bufOk compress m (HashCtx.bufOk_initial h0)
  have hcnt : (absorb compress (HashCtx.initial h0) m).cnt.toNat = m.length % 2 ^ 64 := by
    rw [absorb_cnt]
    simp [HashCtx.initial]
  have hlen : (absorb compress (HashCtx.initial h0) m).buf.length = m.length % 64 := by
    rw [hbuf, hcnt]
    omega
  rw [append_hashPad len m hbuf.buf_lt, hlen, hcnt, Nat.mul_mod_mod, padMessage]

/-- The padded running words of a whole message (45_hash_commands.md R216). -/
theorem paddedWords_absorb_initial (len : Nat → List Byte) (h0 : Vector Word n) (m : List Byte) :
    paddedWords compress (fun c => len c.toNat) (absorb compress (HashCtx.initial h0) m) =
      hashBlocks compress ((padMessage len m).length / 64) h0 (padMessage len m) := by
  rw [paddedWords, ← absorb_append, append_hashPad_absorb_initial]
  exact congrArg HashCtx.h (absorb_eq_hashBlocks compress _ (HashCtx.initial h0) _ (Nat.zero_lt_succ 63) rfl)

end Padding

/-! ### The context that ALG names -/

section Context
variable {alg : BitVec 2} {s t u : State}

theorem State.sameCtx.trans (h : State.sameCtx alg s t) (h' : State.sameCtx alg t u) : State.sameCtx alg s u := by
  unfold State.sameCtx at *
  split_ifs at * <;> exact Eq.trans h h'

theorem State.sameCtx.symm (h : State.sameCtx alg s t) : State.sameCtx alg t s := by
  unfold State.sameCtx at *
  split_ifs at * <;> exact Eq.symm h

/-- Absorbing one string keeps equal contexts equal. -/
theorem State.sameCtx.ctxAbsorb (h : State.sameCtx alg s t) (bs : List Byte) :
    State.sameCtx alg (s.ctxAbsorb alg bs) (t.ctxAbsorb alg bs) := by
  unfold State.sameCtx at *
  split_ifs at * with halg <;> simp [halg, h]

theorem State.sameCtx.ctxDigest_eq (h : State.sameCtx alg s t) : s.ctxDigest alg = t.ctxDigest alg := by
  unfold State.sameCtx at h
  unfold State.ctxDigest
  split_ifs at * <;> rw [h]

@[simp] theorem State.ctxAbsorb_nil (s : State) (alg : BitVec 2) : s.ctxAbsorb alg [] = s := by
  unfold State.ctxAbsorb
  split <;> rfl

theorem State.ctxAbsorb_append (s : State) (alg : BitVec 2) (bs cs : List Byte) :
    s.ctxAbsorb alg (bs ++ cs) = (s.ctxAbsorb alg bs).ctxAbsorb alg cs := by
  unfold State.ctxAbsorb
  split <;> rw [absorb_append]

/-- The digest of an initial context that absorbed a message is the hash of the message. -/
theorem ctxDigest_ctxAbsorb_reset (alg : BitVec 2) (m : List Byte) :
    (State.reset.ctxAbsorb alg m).ctxDigest alg = wholeHash alg m := by
  by_cases halg : alg = 0#2
  · rw [State.ctxDigest, if_pos halg, wholeHash, if_pos halg, State.ctxAbsorb_md5, if_pos halg]
    exact congrArg md5Output (paddedWords_absorb_initial md5Compress (leBytes · 8) md5Init m)
  · rw [State.ctxDigest, if_neg halg, wholeHash, if_neg halg, State.ctxAbsorb_sha, if_neg halg]
    exact congrArg sha256Output (paddedWords_absorb_initial sha256Compress (i2osp · 8) sha256Init m)

/-! ### The commands (45_hash_commands.md R213, R215) -/

/-- HUPDATE on a string that stands in DMEM. -/
theorem exec_hupdate_of_holds {bs : List Byte} (halg : alg = 0#2 ∨ alg = 1#2) (hlen : s.larg.arg1.toNat = bs.length)
    (hin : inDmem s.larg.arg0.toNat bs.length) (hbs : s.holds s.larg.arg0.toNat bs) :
    exec (.hupdate alg) s = .next (complete none (s.ctxAbsorb alg bs)) :=
  execHupdate_next.mpr (.inl ⟨bs, halg, hlen ▸ hin, hbs.readBytes? hlen, rfl⟩)

/-- HUPDATE absorbs the string into the context it names. -/
theorem sameCtx_of_exec_hupdate {bs : List Byte} (halg : alg = 0#2 ∨ alg = 1#2)
    (hlen : s.larg.arg1.toNat = bs.length) (hin : inDmem s.larg.arg0.toNat bs.length)
    (hbs : s.holds s.larg.arg0.toNat bs) (ht : exec (.hupdate alg) s = .next t) :
    State.sameCtx alg t (s.ctxAbsorb alg bs) := by
  cases ht.symm.trans (exec_hupdate_of_holds halg hlen hin hbs)
  unfold State.sameCtx
  split <;> rfl

/-- The HUPDATEs since an initialisation have absorbed their strings into the initial context. -/
theorem Absorbed.sameCtx {m : List Byte} (halg : alg = 0#2 ∨ alg = 1#2) (h : Absorbed alg s m) :
    State.sameCtx alg s (State.reset.ctxAbsorb alg m) := by
  induction h with
  | start s h => rwa [State.ctxAbsorb_nil]
  | update s u t m bs _ hu hin hlen hbs ht ih =>
    rw [State.ctxAbsorb_append]
    exact (sameCtx_of_exec_hupdate halg hlen hin hbs ht).trans ((hu.symm.trans ih).ctxAbsorb bs)

/-- HFINAL stores the digest, reinitialises the context and leaves the digest's length in RESULT. -/
theorem exec_hfinal_of_digest {d : List Byte} (halg : alg = 0#2 ∨ alg = 1#2)
    (hin : inRange s.larg.arg2 (digestLen alg)) (hd : s.ctxDigest alg = d) :
    exec (.hfinal alg) s =
      .next (complete none (((s.memWrite s.larg.arg2 d).ctxInit alg).setResult (digestLen alg))) :=
  hd ▸ execHfinal_next.mpr (.inl ⟨halg, hin, rfl⟩)

end Context

/-! ### The statements -/

/-- Settles O57: HINIT has no check but that of ALG. -/
theorem hashInit : Obligations.HashInit :=
  ⟨fun _ => ⟨execHinit_next.mpr (.inl ⟨.inl rfl, rfl⟩), execHinit_next.mpr (.inl ⟨.inr rfl, rfl⟩)⟩,
    decode_hashWord (op := 0x40) fun _ => rfl⟩

/-- Settles O58: absorption is `absorb_eq_hashBlocks`, and splits at any boundary. -/
theorem hashUpdate : Obligations.HashUpdate := by
  obtain ⟨hok, herr⟩ := decode_hashWord (op := 0x41) (mk := .hupdate) fun _ => rfl
  refine ⟨fun s hout => ⟨execHupdate_next.mpr (.inr (.inr ⟨.inl rfl, hout, rfl⟩)),
    execHupdate_next.mpr (.inr (.inr ⟨.inr rfl, hout, rfl⟩))⟩, hok, herr, fun s bs hinv hlen hin hbs => ⟨?_, ?_⟩, ?_⟩
  · rw [← absorb_eq_hashBlocks md5Compress _ s.md5 bs (HashCtx.bufOk.buf_lt hinv.md5_buf) rfl]
    exact exec_hupdate_of_holds (.inl rfl) hlen hin hbs
  · rw [← absorb_eq_hashBlocks sha256Compress _ s.sha bs (HashCtx.bufOk.buf_lt hinv.sha_buf) rfl]
    exact exec_hupdate_of_holds (.inr rfl) hlen hin hbs
  · rintro source alg s t u v w x bs cs halg ⟨hslen, hsin, hsbs⟩ ht hsu ⟨hulen, huin, hubs⟩ hv hvw
      ⟨hwlen, hwin, hwbs⟩ hx
    have halg := alg_of_toNat_lt halg
    have hwhole := sameCtx_of_exec_hupdate halg hslen hsin hsbs ht
    have hfirst := sameCtx_of_exec_hupdate halg hulen huin hubs hv
    have hsecond := sameCtx_of_exec_hupdate halg hwlen hwin hwbs hx
    have hparts := ((hsu.ctxAbsorb bs).trans (hfirst.symm.trans hvw)).ctxAbsorb cs
    rw [State.ctxAbsorb_append] at hwhole
    exact hwhole.trans (hparts.trans hsecond.symm)

/-- Settles O59: the stored bytes are the context's digest, block by block. -/
theorem hashFinal : Obligations.HashFinal := by
  obtain ⟨hok, herr⟩ := decode_hashWord (op := 0x42) (mk := .hfinal) fun _ => rfl
  refine ⟨fun h i j hj => ⟨md5Output_length h, getD_md5Output h hj⟩,
    fun h i j hj => ⟨sha256Output_length h, getD_sha256Output h hj⟩,
    fun s => ⟨fun hout => execHfinal_next.mpr (.inr (.inr ⟨.inl rfl, hout, rfl⟩)),
      fun hout => execHfinal_next.mpr (.inr (.inr ⟨.inr rfl, hout, rfl⟩))⟩, hok, herr,
    fun s hinv hin => ?_, fun s hinv hin => ?_⟩
  · have hwords := paddedWords_eq_hashBlocks md5Compress (leBytes · 8) (HashCtx.bufOk.buf_lt hinv.md5_buf)
    exact ⟨_, Memory.stores_writeBytes _ _ _,
      exec_hfinal_of_digest (.inl rfl) hin (congrArg md5Output hwords)⟩
  · have hwords := paddedWords_eq_hashBlocks sha256Compress (i2osp · 8) (HashCtx.bufOk.buf_lt hinv.sha_buf)
    exact ⟨_, Memory.stores_writeBytes _ _ _,
      exec_hfinal_of_digest (.inr rfl) hin (congrArg sha256Output hwords)⟩

/-- Settles O60: the context is the initial one after the whole message, and so is its digest. -/
theorem digestOfWholeMessage : Obligations.DigestOfWholeMessage := by
  intro alg s u msg halg habs hsu hin
  have halg := alg_of_toNat_lt halg
  have hdigest : u.ctxDigest alg = wholeHash alg msg :=
    calc u.ctxDigest alg = (State.reset.ctxAbsorb alg msg).ctxDigest alg :=
          (hsu.symm.trans (habs.sameCtx halg)).ctxDigest_eq
      _ = wholeHash alg msg := ctxDigest_ctxAbsorb_reset alg msg
  refine ⟨_, exec_hfinal_of_digest halg hin hdigest, rfl, ?_⟩
  rw [complete_dmem, State.setResult_dmem, State.ctxInit_dmem]
  exact Memory.stores_writeBytes _ _ _

end Sys2Proof.Machine
end

section
/-! PROOF. Completion and its errors, the interrupt output, the engine step and the turn it is taken in (O15, O21, O22, O23,
O24): a command that answers has completed (`exec_next`), with an error among those listed for it (`exec_endsWithin`), and
a step is the first turn of the schedule on the state without that turn (`step_eq_takeTurn`). -/

namespace Sys2Proof.Machine

/-! ### Completion (60_exceptions.md R229, R230) -/

/-- What the host sees of a completion: idle and DONE, with success or with one of the codes that R226 allows. -/
def State.Completed (t : State) : Prop :=
  t.status.busy = false ∧ t.pending = false ∧ t.status.done = true ∧
    ((t.status.err = false ∧ t.errcode = 0) ∨
     (t.status.err = true ∧ 1 ≤ t.errcode.toNat ∧ t.errcode.toNat ≤ 14 ∧ t.errcode ≠ 4))

theorem complete_none_completed (s : State) : (complete none s).Completed := ⟨rfl, rfl, rfl, .inl ⟨rfl, rfl⟩⟩

theorem complete_some_completed {e : ErrKind} (h : e ≠ .invalidKeySpec) (s : State) :
    (complete (some e) s).Completed := by
  obtain ⟨hle, hne4, hne0⟩ := ErrKind.code_legal h
  exact ⟨rfl, rfl, rfl, .inr ⟨rfl, by rw [complete_errcode, errCode]; bv_omega, hle, hne4⟩⟩

theorem exec_completed {i : Instr} {s t : State} (h : exec i s = .next t) : t.Completed := by
  rcases exec_next h with ⟨e, he, rfl⟩ | ⟨u, rfl, -⟩
  · exact complete_some_completed he s
  · exact complete_none_completed u

theorem engineStep_completed {s t : State} (hp : s.pending = true) (h : engineStep s = .next t) : t.Completed := by
  rcases engineStep_next h with ⟨hidle, -⟩ | ⟨e, -, he, rfl⟩ | ⟨i, u, -, -, rfl, -⟩
  · cases hp.symm.trans hidle
  · exact complete_some_completed he s
  · exact complete_none_completed u

/-- Settles O23: every next state is a `complete`, of the state before the command where it is an error's. -/
theorem completion : Obligations.Completion := by
  refine ⟨fun i s t => exec_completed, fun s t => engineStep_completed, fun i s t h herr => ?_⟩
  rcases exec_next h with ⟨e, -, rfl⟩ | ⟨u, rfl, -⟩
  · rfl
  · cases herr

/-! ### The errors of each command (60_exceptions.md R226, R227) -/

/-- A command started in `s` ends in `t` with success, or as the completion of `s` with one of the errors `errs`. -/
inductive EndsWithin (errs : List ErrKind) (s : State) : State → Prop where
  | success {u : State} : EndsWithin errs s (complete none u)
  | error {e : ErrKind} (h : e ∈ errs) : EndsWithin errs s (complete (some e) s)

theorem EndsWithin.errcode {errs : List ErrKind} {s t : State} (h : EndsWithin errs s t) (herr : t.status.err = true) :
    ∃ e ∈ errs, t.errcode = ErrKind.code e := by
  cases h with
  | success => cases herr
  | @error e he => exact ⟨e, he, rfl⟩

/-- RSAENC's padding string raises RANGE or PS_ZERO only (41_rsa.md R139, R140). -/
theorem paddingString_raises {pssrc : Bool} {s : State} {n : Nat} {e : ErrKind}
    (h : paddingString pssrc s n = .error (.raise e)) : e = .range ∨ e = .psZero := by
  obtain ⟨-, ⟨-, he⟩ | ⟨-, -, he⟩ | ⟨ps, -, -, -, he⟩⟩ := paddingString_eq_error.mp h <;> cases he
  · exact .inl rfl
  · exact .inr rfl

/-- A well-formed command ends with success or with one of the errors R227 lists for it: its `_next` lemma, case by case.
The errors that only an ill-formed command ends with are the decoder's. -/
theorem exec_endsWithin {i : Instr} {s t : State} (hw : i.wellFormed = true) (h : exec i s = .next t) :
    EndsWithin i.errors s t := by
  cases i with
  | nop => cases execNop_next.mp h; exact .success
  | ldi rd => cases execLdi_next.mp h; exact .success
  | mov rd ra => cases execMov_next.mp h; exact .success
  | ldb rd =>
    rcases execLdb_next.mp h with ⟨_, -, -, -, rfl⟩ | ⟨-, rfl⟩ | ⟨_, -, -, -, rfl⟩
    · exact .success
    all_goals exact .error (by simp [Instr.errors])
  | ldu rd =>
    rcases execLdu_next.mp h with ⟨_, -, -, -, rfl⟩ | ⟨-, rfl⟩ | ⟨_, -, -, -, rfl⟩
    · exact .success
    all_goals exact .error (by simp [Instr.errors])
  | stb ra =>
    rcases execStb_next.mp h with ⟨-, rfl⟩ | ⟨-, rfl⟩
    exacts [.success, .error (by simp [Instr.errors])]
  | stu ra =>
    rcases execStu_next.mp h with ⟨-, -, rfl⟩ | ⟨-, rfl⟩
    exacts [.success, .error (by simp [Instr.errors])]
  | add rd ra rb =>
    rcases execAdd_next.mp h with ⟨-, rfl⟩ | ⟨-, rfl⟩
    exacts [.success, .error (by simp [Instr.errors])]
  | sub rd ra rb =>
    rcases execSub_next.mp h with ⟨-, rfl⟩ | ⟨-, rfl⟩
    exacts [.success, .error (by simp [Instr.errors])]
  | mul rd ra rb =>
    rcases execMul_next.mp h with ⟨-, rfl⟩ | ⟨-, rfl⟩
    exacts [.success, .error (by simp [Instr.errors])]
  | div rd ra rb =>
    rcases execDiv_next.mp h with ⟨-, rfl⟩ | ⟨-, rfl⟩
    exacts [.success, .error (by simp [Instr.errors])]
  | rem rd ra rb =>
    rcases execRem_next.mp h with ⟨-, rfl⟩ | ⟨-, rfl⟩
    exacts [.success, .error (by simp [Instr.errors])]
  | divrem rd ra rb rc =>
    rcases execDivrem_next.mp h with ⟨-, -, rfl⟩ | ⟨hsame, -⟩ | ⟨-, -, rfl⟩
    · exact .success
    · simp [Instr.wellFormed, hsame] at hw
    · exact .error (by simp [Instr.errors])
  | mod rd ra rb =>
    rcases execMod_next.mp h with ⟨-, -, rfl⟩ | ⟨-, rfl⟩ | ⟨-, -, rfl⟩
    · exact .success
    all_goals exact .error (by simp [Instr.errors])
  | modpow rd ra rb rc =>
    rcases execModpow_next.mp h with ⟨-, -, rfl⟩ | ⟨-, rfl⟩
    exacts [.success, .error (by simp [Instr.errors])]
  | modinv rd ra rb =>
    rcases execModinv_next.mp h with ⟨-, -, rfl⟩ | ⟨_, -, -, rfl⟩ | ⟨-, rfl⟩
    exacts [.success, .success, .error (by simp [Instr.errors])]
  | cmp ra rb => cases execCmp_next.mp h; exact .success
  | bitlen ra => cases execBitlen_next.mp h; exact .success
  | rsaenc ra rb pssrc =>
    rcases execRsaenc_next.mp h with ⟨_, _, -, -, -, -, -, rfl⟩ | ⟨-, rfl⟩ | ⟨-, -, rfl⟩ | ⟨-, -, -, rfl⟩ |
      ⟨e, -, -, -, he, rfl⟩
    · exact .success
    iterate 3 exact .error (by simp [Instr.errors])
    exact .error (by rcases paddingString_raises he with rfl | rfl <;> simp [Instr.errors])
  | rsadec ra rb =>
    rcases execRsadec_next.mp h with ⟨_, _, -, -, -, -, rfl⟩ | ⟨-, rfl⟩ | ⟨-, -, rfl⟩ | ⟨_, -, -, -, -, rfl⟩
    · exact .success
    all_goals exact .error (by simp [Instr.errors])
  | aeskey =>
    rcases execAeskey_next.mp h with ⟨_, -, -, -, rfl⟩ | ⟨-, rfl⟩ | ⟨-, -, rfl⟩
    · exact .success
    all_goals exact .error (by simp [Instr.errors])
  | aesiv =>
    rcases execAesiv_next.mp h with ⟨_, -, -, rfl⟩ | ⟨-, rfl⟩
    exacts [.success, .error (by simp [Instr.errors])]
  | aescrypt dec cbc pad strict =>
    rcases execAescrypt_cases h with ⟨_, _, -, -, -, rfl⟩ | ⟨e, rfl, ⟨-, hill⟩ | he⟩
    · exact .success
    · exact absurd (by simpa [Instr.wellFormed, ← Bool.not_eq_true, imp_iff_not_or] using hw) hill
    · exact .error (by simpa [Instr.errors] using he)
  | hinit alg =>
    rcases execHinit_next.mp h with ⟨-, rfl⟩ | ⟨-, rfl⟩
    exacts [.success, .error (by simp [Instr.errors])]
  | hupdate alg =>
    rcases execHupdate_next.mp h with ⟨_, -, -, -, rfl⟩ | ⟨-, rfl⟩ | ⟨-, -, rfl⟩
    · exact .success
    all_goals exact .error (by simp [Instr.errors])
  | hfinal alg =>
    rcases execHfinal_next.mp h with ⟨-, -, rfl⟩ | ⟨-, rfl⟩ | ⟨-, -, rfl⟩
    · exact .success
    all_goals exact .error (by simp [Instr.errors])

/-- A residue modulo a positive modulus within the capacity is within it (10_state.md R36, 40_bigint.md R106). -/
theorem fits_modop_of_pos (a : Int) {b : Int} (hb : 0 < b) (hfit : fits b) : fits (modop a b) := by
  have hnonneg := Int.emod_nonneg a hb.ne'
  have hlt := Int.emod_lt_of_pos a hb
  rw [modop_eq_emod a hb]
  exact lt_trans (by omega) hfit

/-- MOD runs out of capacity only for a negative modulus (log entry 15). -/
theorem neg_of_execMod_capacity {rd ra rb : RegIdx} {s t : State} (hfit : fits (s.getB rb))
    (h : execMod rd ra rb s = .next t) (hcode : t.errcode = 10) : s.getB rb < 0 := by
  rcases execMod_next.mp h with ⟨-, -, rfl⟩ | ⟨-, rfl⟩ | ⟨hne, hbig, rfl⟩
  · cases hcode
  · cases hcode
  · by_contra hnonneg
    exact hbig (fits_modop_of_pos _ (by omega) hfit)

/-- Settles O24: `complete` writes the code, each command's errors are `exec_endsWithin`, and MOD's result fits under a
positive modulus. -/
theorem errorsOfEachCommand : Obligations.ErrorsOfEachCommand := by
  refine ⟨fun s e => ⟨?_, rfl⟩, fun i s t hw h => (exec_endsWithin hw h).errcode, fun rd ra rb s t hs h =>
    neg_of_execMod_capacity (fits_iff.mpr (hs rb)) h⟩
  cases e <;> rfl

/-! ### The interrupt output (60_exceptions.md R236) -/

theorem State.resetEngine_irq (s : State) (m : Memory) : (s.resetEngine m).irq = false := (s.resetEngine_isReset m).irq

/-- A CTRL write sets IE unless it is a soft reset, which clears it. -/
theorem writeCtrl_irq (s : State) (v : Word) :
    (writeCtrl s v).irq = (!v.getLsbD 1 && v.getLsbD 0 && s.status.done) := by
  unfold writeCtrl
  cases v.getLsbD 1
  · rfl
  · exact s.resetEngine_irq _

theorem writeStatus_irq (s : State) (v : Word) : (writeStatus s v).irq = (s.irq && !v.getLsbD 1) :=
  (Bool.and_assoc _ _ _).symm

/-- An issue clears DONE. -/
theorem acceptCommand_irq (s : State) (w : Word) : (acceptCommand s w).irq = false := Bool.and_false _

/-- Settles O15: a completion sets DONE, and each register write is the one lemma about it. -/
theorem interruptOutput : Obligations.InterruptOutput := by
  refine ⟨fun s => rfl, fun s e => Bool.and_true _, fun s t v h => ?_, fun s t v h => ?_, fun s t w hb h => ?_,
    fun s => ⟨s.resetEngine_irq _, s.resetEngine_irq _⟩⟩
  · cases (hostWrite_register s v (by decide) (by decide)).symm.trans h
    exact writeCtrl_irq s v
  · cases (hostWrite_register s v (by decide) (by decide)).symm.trans h
    exact writeStatus_irq s v
  · cases (hostWrite_register s w (by decide) (by decide)).symm.trans h
    change (writeCmd s w).irq = false
    rw [writeCmd, if_neg (by simp [hb])]
    exact acceptCommand_irq s w

/-! ### The engine step and its turn (60_exceptions.md R233; log entry 4) -/

theorem engineStep_of_decode_ok {s : State} {i : Instr} (hp : s.pending = true) (hd : decode s.lcmd = .ok i) :
    engineStep s = exec i s := by
  rw [engineStep, if_pos hp, hd]

theorem engineStep_of_idle {s : State} (hp : s.pending = false) : engineStep s = .next s := by
  rw [engineStep, if_neg (by simp [hp])]

theorem State.turnTaken_of_sched_nil {s : State} (h : s.sched = []) : s.turnTaken = s := by
  unfold State.turnTaken
  rw [h, List.tail_nil, ← h]

/-- A step takes the first turn of the schedule, or the default one of an empty schedule. -/
theorem step_eq_takeTurn {s : State} {r : Turn} (h : s.sched.head? = some r ∨ (s.sched = [] ∧ defaultTurn s = r)) :
    step s = takeTurn r s.turnTaken := by
  rcases h with h | ⟨hs, rfl⟩
  · obtain ⟨ts, hs⟩ := List.head?_eq_some_iff.mp h
    rw [step, State.turnTaken, hs]
    rfl
  · rw [State.turnTaken_of_sched_nil hs, step, hs]

theorem step_of_engineNext {s : State} (h : s.engineNext) : step s = engineStep s.turnTaken := by
  obtain ⟨hr, hturn⟩ := h
  rw [step_eq_takeTurn (r := .engine) (hturn.imp_right (And.imp_right fun hp => by rw [defaultTurn, if_pos hp])),
    takeTurn, if_neg (by simp [State.turnTaken, hr])]

theorem step_of_hostNext {s : State} (h : s.hostNext) : step s = hostTurn s.turnTaken := by
  obtain ⟨hr, hturn⟩ := h
  rw [step_eq_takeTurn (r := .host) (hturn.imp_right (And.imp_right fun hp => by simp [defaultTurn, hp])),
    takeTurn, if_neg (by simp [State.turnTaken, hr])]

/-- Settles O22: `step_of_engineNext` and `step_of_hostNext`, and taking the turn leaves LCMD, PENDING and the queue. -/
theorem stepRunsTheDecodedCommand : Obligations.StepRunsTheDecodedCommand := by
  refine ⟨fun s hn hp => ⟨fun i hd => ?_, fun e hd => ?_⟩, fun s hn => ⟨fun a rest hh => ?_, fun hh => ?_⟩⟩
  · rw [step_of_engineNext hn, engineStep_of_decode_ok (s := s.turnTaken) hp hd]
  · rw [step_of_engineNext hn, engineStep_of_decode_error hd (s := s.turnTaken) hp rfl]
  · rw [step_of_hostNext hn, hostTurn, show s.turnTaken.host = a :: rest from hh]
  · rw [step_of_hostNext hn, hostTurn, show s.turnTaken.host = [] from hh]

end Sys2Proof.Machine

namespace Sys2Proof.Laws

/-- Settles O21: the three cases of the engine step. (`Machine.engineStep` is the model's function.) -/
theorem engineStep : Obligations.EngineStep := fun _ =>
  ⟨fun hp => ⟨fun _ hd => Machine.engineStep_of_decode_ok hp hd, fun _ hd => engineStep_of_decode_error hd hp rfl⟩,
    Machine.engineStep_of_idle⟩

end Sys2Proof.Laws
end

section
/-! PROOF. The resets and the liveness of the engine (O4, O5, O25): the soft reset's range is `State.destLength`, the release
of rst is a reset to the unmarked memory, and a command is the `finish` of a pseudocode whose only fault is UNINIT_READ, at
an unmarked byte inside DMEM. -/

namespace Sys2Proof.Machine

/-! ### No command blocks (70_reset_and_hazards.md R265, 20_memory.md R63) -/

/-- A range that cannot be read has an unmarked byte. -/
theorem Memory.exists_unmarked_of_readBytes?_eq_none {m : Memory} {a n : Nat} (h : m.readBytes? a n = none) :
    ∃ i, i < n ∧ m.read? (a + i) = none := by
  by_contra! hmarked
  simpa [h] using Memory.readBytes?_isSome fun i hi => Option.isSome_iff_ne_none.mpr (hmarked i hi)

/-- A pseudocode run in `s` faults only with UNINIT_READ, and only where a byte of DMEM is unmarked. -/
def FaultsOnlyUnmarked {α : Type} (s : State) (c : Except Stop α) : Prop :=
  ∀ f, c = .error (.fault f) → f = .uninitRead ∧ ∃ a, a < 4096 ∧ s.dmem.read? a = none

namespace FaultsOnlyUnmarked

section Pseudocode
variable {α β : Type} {s : State}

theorem ok (v : α) : FaultsOnlyUnmarked s (.ok v) := nofun

theorem raise (e : ErrKind) : FaultsOnlyUnmarked s (.error (.raise e) : Except Stop α) := nofun

theorem bind {x : Except Stop α} {g : α → Except Stop β} (hx : FaultsOnlyUnmarked s x)
    (hg : ∀ v, FaultsOnlyUnmarked s (g v)) : FaultsOnlyUnmarked s (x >>= g) := by
  intro f h
  rcases Except.bind_eq_error.mp h with h | ⟨v, -, h⟩
  · exact hx f h
  · exact hg v f h

/-- A check does not fault, and what follows it may rely on it. -/
theorem require {c : Prop} [Decidable c] {e : ErrKind} {g : Unit → Except Stop β}
    (hg : c → FaultsOnlyUnmarked s (g ())) : FaultsOnlyUnmarked s (require c e >>= g) := by
  intro f h
  rcases Except.bind_eq_error.mp h with h | ⟨_, hc, h⟩
  · obtain ⟨-, hraise⟩ := require_eq_error.mp h
    cases hraise
  · exact hg (require_eq_ok.mp hc) f h

/-- A read whose range is inside DMEM faults at an unmarked byte of the range. -/
theorem memRead {addr : Word} {n : Nat} (hin : inRange addr n) : FaultsOnlyUnmarked s (memRead s addr n) := by
  intro f h
  obtain ⟨hnone, hstop⟩ := memRead_eq_error.mp h
  cases hstop
  obtain ⟨i, hi, hread⟩ := Memory.exists_unmarked_of_readBytes?_eq_none hnone
  exact ⟨rfl, addr.toNat + i, (Nat.add_lt_add_left hi _).trans_le hin, hread⟩

theorem writeFitting (rd : RegIdx) (v : Int) (u : State) : FaultsOnlyUnmarked s (writeFitting rd v u) :=
  .require fun _ => .ok _

/-- RSAENC's padding string is read from inside DMEM, or drawn (41_rsa.md R139). -/
theorem paddingString (pssrc : Bool) (n : Nat) : FaultsOnlyUnmarked s (paddingString pssrc s n) := by
  cases pssrc with
  | false => exact .ok _
  | true => exact .bind (.require fun hin => .bind (.memRead hin) fun _ => .require fun _ => .ok _) fun _ => .ok _

end Pseudocode

end FaultsOnlyUnmarked

/-- A command started in `s` ends as `o`: in a next state, or in UNINIT_READ where a byte of DMEM is unmarked. -/
def AnswersIfMarked (s : State) (o : Host.Outcome State Fault Refusal) : Prop :=
  (∃ t, o = .next t) ∨ (o = .fault .uninitRead ∧ ∃ a, a < 4096 ∧ s.dmem.read? a = none)

theorem FaultsOnlyUnmarked.finish {s : State} {c : Except Stop State} (h : FaultsOnlyUnmarked s c) :
    AnswersIfMarked s (finish s c) := by
  cases c with
  | ok t => exact .inl ⟨_, rfl⟩
  | error z =>
    cases z with
    | raise e => exact .inl ⟨_, rfl⟩
    | fault f =>
      obtain ⟨rfl, hunmarked⟩ := h f rfl
      exact .inr ⟨rfl, hunmarked⟩

/-- Every command answers or faults so: it is the `finish` of a pseudocode that reads only ranges it has checked. -/
theorem exec_answersIfMarked (i : Instr) (s : State) : AnswersIfMarked s (exec i s) := by
  have run {c : Except Stop State} (hc : FaultsOnlyUnmarked s c) := hc.finish
  cases i with
  | nop | ldi | mov | cmp | bitlen => exact run (.ok _)
  | add | sub | mul => rw [exec]; exact run (.writeFitting _ _ _)
  | stb | div | rem | hinit => exact run (.require fun _ => .ok _)
  | stu | divrem | modpow | hfinal => exact run (.require fun _ => .require fun _ => .ok _)
  | mod => exact run (.require fun _ => .writeFitting _ _ _)
  | modinv rd ra rb =>
    refine run (.require fun _ => ?_)
    cases modInverse (s.getB ra) (s.getB rb) <;> exact .ok _
  | ldb | ldu => exact run (.require fun hin => .bind (.memRead hin) fun _ => .require fun _ => .ok _)
  | aesiv => exact run (.require fun hin => .bind (.memRead hin) fun _ => .ok _)
  | aeskey | hupdate => exact run (.require fun _ => .require fun hin => .bind (.memRead hin) fun _ => .ok _)
  | rsaenc ra rb pssrc =>
    exact run (.require fun _ => .require fun hin => .require fun _ => .bind (.paddingString pssrc _) fun _ =>
      .bind (.memRead hin.1) fun _ => .ok _)
  | rsadec ra rb =>
    refine run (.require fun _ => .require fun hin => .bind (.memRead hin.1) fun bs => ?_)
    cases pkcs1Unpad (i2osp (modPow (os2ip bs) (s.getB rb).toNat (s.getB ra)).toNat (keyLen (s.getB ra))) with
    | none => exact .raise _
    | some m => exact .ok _
  | aescrypt dec cbc pad strict =>
    refine run (.require fun _ => .require fun _ => .require fun _ => .require fun hin => .require fun _ =>
      .require fun _ => .bind (.memRead hin) fun xs => ?_)
    cases s.aes.crypt dec cbc pad strict xs with
    | none => exact .raise _
    | some y => exact .ok _

/-- Settles O25: `exec_answersIfMarked` leaves no refusal, no other fault and, with every byte marked, no fault at all. -/
theorem commandsAlwaysAnswer : Obligations.CommandsAlwaysAnswer := by
  refine ⟨fun i s hmarked => ?_, fun i s r h => ?_, fun i s f h => ?_⟩
  · rcases exec_answersIfMarked i s with hnext | ⟨-, a, ha, hnone⟩
    · exact hnext
    · exact absurd (hmarked a ha) (by simp [hnone])
  · rcases exec_answersIfMarked i s with ⟨t, ht⟩ | ⟨hfault, -⟩
    · cases ht.symm.trans h
    · cases hfault.symm.trans h
  · rcases exec_answersIfMarked i s with ⟨t, ht⟩ | ⟨hfault, -⟩
    · cases ht.symm.trans h
    · cases hfault.symm.trans h
      rfl

/-! ### The soft reset while busy (70_reset_and_hazards.md R255) -/

/-- A soft reset while busy unmarks the pending command's destination range. -/
theorem softReset_read?_of_pending {s : State} (hp : s.pending = true) (a : Nat) :
    (softReset s).dmem.read? a =
      if s.larg.arg2.toNat ≤ a ∧ a < s.larg.arg2.toNat + s.destLength then none else s.dmem.read? a := by
  rw [softReset, State.resetEngine_dmem, State.abandonedDmem, if_pos hp, Memory.read?_unmark]

/-- Settles O4: the length of R255 is `State.destLength`, word by word. -/
theorem softResetWhileBusy : Obligations.SoftResetWhileBusy := by
  intro s v n hv hp hn
  have hlen : n = s.destLength := by
    rw [hn, State.destLength]
    rcases decode s.lcmd with e | i
    · rfl
    · cases i with
      | stb ra => exact tcEncode_length _
      | _ => rfl
  subst hlen
  obtain ⟨-, hreset, -⟩ := ctrlRegister s v
  exact ⟨softReset s, (hreset hv).1, s.resetEngine_isReset _, softReset_read?_of_pending hp⟩

/-! ### The hardware reset (70_reset_and_hazards.md R251) -/

/-- The release of rst is a reset to the unmarked memory. -/
theorem driveRst_release {s : State} (hr : s.rst = true) :
    driveRst false s = State.resetEngine { s with rst := false } [] := by
  rw [driveRst, if_neg (by simp [hr])]
  rfl

/-- Settles O5: a turn under rst is used up, and its release is `driveRst_release`. -/
theorem hardwareReset : Obligations.HardwareReset := fun _ hr =>
  ⟨if_pos hr, if_pos hr, _, congrArg Host.Outcome.next (driveRst_release hr), rfl, State.resetEngine_isReset _ _,
    fun _ => rfl⟩

end Sys2Proof.Machine
end
